-- ==== Sys2Proof/Config.lean ====
section
/-! DEFINITION. The parameters of 00_scope.md R7 and R8, as named constants of the configuration, and, as constants with no
body, the one parameter the spec leaves OPEN and the model's free values. -/

namespace Sys2Proof.Config

/-- `WORD` (R7). -/
abbrev word : Nat := 32

/-- `BLOCK_BITS` (R7). -/
abbrev blockBits : Nat := 512

/-- `OUTLEN` (R7). -/
abbrev outLen : Nat := 256

/-- `ROUNDS` (R7). -/
abbrev rounds : Nat := 64

/-- `SEEDLEN` (R7). -/
abbrev seedLen : Nat := 440

/-- `MAX_STRENGTH` (R7). -/
abbrev maxStrength : Nat := 256

/-- `MAX_REQUEST_BITS` (R7): 2^19. -/
abbrev maxRequestBits : Nat := 2 ^ 19

/-- `RESEED_INTERVAL` (R7): 2^48. -/
abbrev reseedInterval : Nat := 2 ^ 48

/-- `MAX_PERS_BITS` (R7): 2^35. -/
abbrev maxPersBits : Nat := 2 ^ 35

/-- `LEN_FIELD_BITS` (R7). -/
abbrev lenFieldBits : Nat := 64

/-- `DF_CTR_BITS` (R7). -/
abbrev dfCtrBits : Nat := 8

/-- `DF_LEN_BITS` (R7). -/
abbrev dfLenBits : Nat := 32

/-- `MAX_ADDIN_BITS` (R8, decision D9): 2^35. -/
abbrev maxAddinBits : Nat := 2 ^ 35

/-- `DF_MAX_BITS` (R8, decision D26): 255 blocks of 256 bits, all that the counter can number. -/
abbrev dfMaxBits : Nat := (2 ^ dfCtrBits - 1) * outLen

/-- `MIN_STRENGTH` (R8, decision D14). -/
abbrev minStrength : Nat := 1

/-- `CTR_BITS` (R8, decision D13). -/
abbrev ctrBits : Nat := 64

/-- `ENT_MAX_BITS` (R8, decision D17): 2^35. -/
abbrev entMaxBits : Nat := 2 ^ 35

/-- The bound on a hashed message: its length is written in `LEN_FIELD_BITS` bits (R7, R110). -/
abbrev messageBound : Nat := 2 ^ lenFieldBits

/-- `NONCE_MIN_BITS(strength)` (R8, decision D16: OPEN). It has no body: nothing in Lean knows a value
of it, so a claim holds for every choice (log 4). -/
opaque nonceMinBits : Nat → BitVec 32

/-- Bit `i` of the `n`-th free value: what HG.HASHGEN returns for more bits than its operand range has (log 10). -/
opaque freeBit : Nat → Nat → Bool

/-- The `n`-th free value as a block count: `hg_i` when it cannot hold the number of blocks (log 10). -/
opaque freeCount : Nat → BitVec 12

end Sys2Proof.Config
end

