-- ==== Sys2Proof/Word.lean ====
section
/-! DEFINITION. The value types of the ENH-DRBG CORE (00_scope.md R7, R9, R16). -/

namespace Sys2Proof

/-- A 32-bit word (R7 `WORD`, R16). -/
abbrev Word := BitVec Config.word

/-- A 512-bit block (R7 `BLOCK_BITS`); bit 0 of the block, its first bit, is the most significant. -/
abbrev Block := BitVec Config.blockBits

/-- A 256-bit digest (R7 `OUTLEN`). -/
abbrev Digest := BitVec Config.outLen

/-- A seed-length value: `V`, `C` and the Hashgen copy `data` (R7 `SEEDLEN`, R16). -/
abbrev Seed := BitVec Config.seedLen

/-- A bit string, first bit first (R9). -/
abbrev BitString := List Bool

end Sys2Proof
end

