-- ==== Sys2Proof/Syntax.lean ====
section
/-! DEFINITION. The instructions: the four commands and the twelve micro-operations of
spec/opcode_table.json, one constructor a row (30_encoding.md R82, R95). -/

namespace Sys2Proof

/-- A command (format C, 30_encoding.md R81) or a micro-operation (format U, R95). A command's operand
bit string is not part of it: it stands in the IN buffer (R85). -/
inductive Instr where
  /-- INSTANTIATE, `IMM24` = the requested strength in bits (R153). -/
  | instantiate (strength : BitVec 24)
  /-- RESEED, `IMM24` = 0 (R154). -/
  | reseed
  /-- GENERATE, `IMM24` = the requested number of bits (R155). -/
  | generate (bits : BitVec 24)
  /-- UNINSTANTIATE, `IMM24` = 0 (R156). -/
  | uninstantiate
  /-- U.NOP (R132). -/
  | uNop
  /-- SHA.INIT (R120). -/
  | shaInit
  /-- SHA.ABSORB of a bit string (R124). -/
  | shaAbsorb (s : BitString)
  /-- SHA.FINAL (R125). -/
  | shaFinal
  /-- SHA.LOAD of a 512-bit block (R121). -/
  | shaLoad (block : Block)
  /-- SHA.ROUND (R122). -/
  | shaRound
  /-- SHA.FOLD (R123). -/
  | shaFold
  /-- DF.DERIVE of an input and a number of bits (R141). -/
  | dfDerive (input : BitString) (bits : BitVec 32)
  /-- HG.HASHGEN of a number of bits (R163). -/
  | hgHashgen (bits : BitVec 32)
  /-- ENT.REQUEST of a minimum number of bits (R192). -/
  | entRequest (minBits : BitVec 32)
  /-- ENT.DELIVER of a bit string (R193). -/
  | entDeliver (s : BitString)
  /-- ENT.FAIL (R195). -/
  | entFail
  deriving DecidableEq, Repr

/-- The arguments of a micro-operation, "carried beside it, not encoded" (30_encoding.md R95; log 12). -/
structure UopArgs where
  bits  : BitString
  block : Block
  num   : BitVec 32
  deriving DecidableEq, Repr

/-- The arguments of a micro-operation that takes none. -/
def UopArgs.none : UopArgs := { bits := [], block := 0, num := 0 }

/-- The encoded form of an instruction: a word written to `CMD` (R80), or a code on the 4-bit bus `uop`
with its arguments beside it (R95). -/
inductive Encoded where
  | command (w : Word)
  | uop (code : BitVec 4) (args : UopArgs)
  deriving DecidableEq, Repr

end Sys2Proof
end

