-- ==== Sys2Proof/Decode.lean ====
section
/-! DEFINITION. Decoding, total on every command word and every micro-operation code and rejecting by name,
and the encoder (30_encoding.md R80 to R84, R95). -/

namespace Sys2Proof

/-- Why a word or a code stands for no instruction. -/
inductive DecodeError where
  /-- `OPCODE` 0x00 or 0x05 to 0xFF (R84). -/
  | reservedOpcode
  /-- RESEED with `IMM24` other than 0 (R84). -/
  | reseedImmediate
  /-- UNINSTANTIATE with `IMM24` other than 0 (R84). -/
  | uninstantiateImmediate
  /-- One of the unused micro-operation codes 0x7, 0xA, 0xB, 0xF (R95). -/
  | unusedMicroOp
  deriving DecidableEq, Repr

/-- `OPCODE = CMD[31:24]` (R81). -/
def opcodeField (w : Word) : BitVec 8 := w.extractLsb' 24 8

/-- `IMM24 = CMD[23:0]` (R81). -/
def immField (w : Word) : BitVec 24 := w.extractLsb' 0 24

/-- Format C with its two fields put together (R81). -/
def commandWord (op : BitVec 8) (imm : BitVec 24) : Word := op ++ imm

/-- The opcode map (R82) with the illegal encodings refused by name (R84). -/
def decodeCommand (w : Word) : Except DecodeError Instr :=
  if opcodeField w = 0x01#8 then .ok (.instantiate (immField w))
  else if opcodeField w = 0x02#8 then
    if immField w = 0 then .ok .reseed else .error .reseedImmediate
  else if opcodeField w = 0x03#8 then .ok (.generate (immField w))
  else if opcodeField w = 0x04#8 then
    if immField w = 0 then .ok .uninstantiate else .error .uninstantiateImmediate
  else .error .reservedOpcode

/-- The micro-operation codes (R95). -/
def decodeUop (code : BitVec 4) (args : UopArgs) : Except DecodeError Instr :=
  if code = 0x0#4 then .ok .uNop
  else if code = 0x1#4 then .ok .shaInit
  else if code = 0x2#4 then .ok (.shaAbsorb args.bits)
  else if code = 0x3#4 then .ok .shaFinal
  else if code = 0x4#4 then .ok (.shaLoad args.block)
  else if code = 0x5#4 then .ok .shaRound
  else if code = 0x6#4 then .ok .shaFold
  else if code = 0x8#4 then .ok (.dfDerive args.bits args.num)
  else if code = 0x9#4 then .ok (.hgHashgen args.num)
  else if code = 0xC#4 then .ok (.entRequest args.num)
  else if code = 0xD#4 then .ok (.entDeliver args.bits)
  else if code = 0xE#4 then .ok .entFail
  else .error .unusedMicroOp

/-- The decoder on either form. -/
def decode : Encoded → Except DecodeError Instr
  | .command w => decodeCommand w
  | .uop code args => decodeUop code args

/-- The encoder, from the same tables (R82, R95). -/
def encode : Instr → Encoded
  | .instantiate strength => .command (commandWord 0x01 strength)
  | .reseed => .command (commandWord 0x02 0)
  | .generate bits => .command (commandWord 0x03 bits)
  | .uninstantiate => .command (commandWord 0x04 0)
  | .uNop => .uop 0x0 .none
  | .shaInit => .uop 0x1 .none
  | .shaAbsorb s => .uop 0x2 { UopArgs.none with bits := s }
  | .shaFinal => .uop 0x3 .none
  | .shaLoad block => .uop 0x4 { UopArgs.none with block := block }
  | .shaRound => .uop 0x5 .none
  | .shaFold => .uop 0x6 .none
  | .dfDerive input bits => .uop 0x8 { UopArgs.none with bits := input, num := bits }
  | .hgHashgen bits => .uop 0x9 { UopArgs.none with num := bits }
  | .entRequest minBits => .uop 0xC { UopArgs.none with num := minBits }
  | .entDeliver s => .uop 0xD { UopArgs.none with bits := s }
  | .entFail => .uop 0xE .none

/-- Whether an instruction is one of the four commands; the others are micro-operations. -/
def isCommand (i : Instr) : Bool :=
  match encode i with
  | .command _ => true
  | .uop _ _ => false

/-- The encoded form that the bits of a row of spec/opcode_table.json stand for: 32 bits are a `CMD` word; one
byte holds a micro-operation code in its low four bits, with no arguments beside it (log 12). Any other width,
or a byte above 0x0F, is no row's. -/
def tableForm (nbits w : Nat) : Option Encoded :=
  if nbits = 32 then some (.command (BitVec.ofNat 32 w))
  else if (nbits = 8 ∨ nbits = 4) ∧ w < 16 then some (.uop (BitVec.ofNat 4 w) .none)
  else none

/-- The instruction the decoder reads from a table row's bits. -/
def decodeTableWord (nbits w : Nat) : Option Instr :=
  match tableForm nbits w with
  | some e => (decode e).toOption
  | none => none

end Sys2Proof
end

