-- ==== Sys2Proof/Machine/State.lean ====
section
/-! DEFINITION. The state of the core, every register of 10_state.md R20, beside it the outside world's pending
events, and the state after reset (R51). -/

namespace Sys2Proof.Machine

/-- No step of this machine ends in a fault: an error of a command is a NEXT state with `error = 1` (60_exceptions.md
R200, R206), and the spec has no other way for the core to stop (log 24). No constructor raises it, which is safe. -/
inductive Fault where
  deriving DecidableEq, Repr

/-- Why the model has no step. Every one of these is a step that the spec says is never taken, so stopping is safe
(log 11). -/
inductive Refusal where
  /-- An instruction with no meaning yet. Raised by `exec` only; safe. -/
  | notModelled (mnemonic : String)
  /-- A micro-operation code that is unused and never issued (30_encoding.md R95; 93 U14). Raised by `step`; safe. -/
  | unusedMicroOp (code : BitVec 4)
  /-- SHA.ROUND when the 64 rounds are done (40_sha256_engine.md R122; 93 U15). Raised by `execShaRound`; safe. -/
  | roundAfterLast
  /-- SHA.FOLD before the 64 rounds are done (R123; 93 U15). Raised by `execShaFold`; safe. -/
  | foldBeforeLastRound
  /-- A message of 2^64 bits or more (R110, R124, R130; 93 U2). Raised by `execShaAbsorb`, `execDfDerive`; safe. -/
  | messageTooLong
  /-- ENT.REQUEST with a request outstanding (43_entropy_sync.md R192; 93 U15). Raised by `execEntRequest`; safe. -/
  | requestOutstanding
  /-- A delivery above `ENT_MAX_BITS` (43_entropy_sync.md R197; 93 U5). Raised by `execEntDeliver`; safe. -/
  | deliveryTooLong
  deriving DecidableEq, Repr

/-- The registers of the SHA-256 engine (R21 to R26). -/
structure Engine where
  a : Word
  b : Word
  c : Word
  d : Word
  e : Word
  f : Word
  g : Word
  h : Word
  /-- The running digest `H[0..7]` (R23). -/
  H : Vector Word 8
  /-- The message schedule `W[0..63]` (R24). -/
  W : Vector Word 64
  /-- The index of the next round, 0 to 64 (R25). -/
  t : BitVec 7
  /-- The block in the making (R26). -/
  blkbuf : Block
  /-- How many bits of `blkbuf` are valid, 0 to 511 (R26). -/
  fill : BitVec 10
  /-- The message bits absorbed since SHA.INIT (R26). -/
  mlen : BitVec Config.lenFieldBits
  deriving DecidableEq, Repr

/-- The engine after reset and after a scrub (R51, R54). -/
def Engine.zero : Engine :=
  { a := 0, b := 0, c := 0, d := 0, e := 0, f := 0, g := 0, h := 0
    H := Vector.replicate 8 0, W := Vector.replicate 64 0
    t := 0, blkbuf := 0, fill := 0, mlen := 0 }

/-- The DRBG registers (R28 to R32). -/
structure Drbg where
  V : Seed
  C : Seed
  reseedCounter : BitVec Config.ctrBits
  instantiated : Bool
  strength : BitVec 9
  deriving DecidableEq, Repr

/-- No instance (R51; 42_drbg_commands.md R156). -/
def Drbg.zero : Drbg := { V := 0, C := 0, reseedCounter := 0, instantiated := false, strength := 0 }

/-- The sequencer's phase (R33). -/
inductive Phase where
  | idle | check | entE | entN | seedV | seedC | addin | hashgen | update | complete
  deriving DecidableEq, Repr

/-- An operand as latched: the declared length and the words (R36, R38). -/
structure Operand where
  len : BitVec 64
  words : List Word
  deriving DecidableEq, Repr

/-- The sequencer's working registers (R34 to R36). -/
structure Work where
  dfCtr : BitVec Config.dfCtrBits
  dfReq : BitVec Config.dfLenBits
  dfAcc : BitString
  data : Seed
  hgI : BitVec 12
  curOp : BitVec 8
  curImm : BitVec 24
  opnd : Operand
  entE : BitString
  entN : BitString
  seedTmpV : Seed
  /-- The model's own: the value a micro-operation returns (log 7). -/
  ret : BitString
  deriving DecidableEq, Repr

/-- The working registers after reset and after a scrub (R51, R54). -/
def Work.zero : Work :=
  { dfCtr := 0, dfReq := 0, dfAcc := [], data := 0, hgI := 0, curOp := 0, curImm := 0
    opnd := { len := 0, words := [] }, entE := [], entN := [], seedTmpV := 0, ret := [] }

/-- The synchronizer's state (R37). -/
inductive EntState where
  | idle | req | ready | fail
  deriving DecidableEq, Repr

/-- The entropy-input synchronizer (R37). -/
structure Sync where
  state : EntState
  min : BitVec 32
  buf : BitString
  len : BitVec 64
  deriving DecidableEq, Repr

/-- The synchronizer with no request outstanding (R51, R54). -/
def Sync.zero : Sync := { state := .idle, min := 0, buf := [], len := 0 }

/-- The host-side buffers and flags (R38, R39, R48, R50). -/
structure HostIf where
  inLen : BitVec 64
  inWords : List Word
  outLen : BitVec 20
  outWords : List Word
  outRd : BitVec 15
  busy : Bool
  done : Bool
  error : Bool
  err : BitVec 8
  overrun : Bool
  deriving DecidableEq, Repr

/-- The host interface after reset (R51). -/
def HostIf.zero : HostIf :=
  { inLen := 0, inWords := [], outLen := 0, outWords := [], outRd := 0
    busy := false, done := false, error := false, err := 0, overrun := false }

/-- An answer of the EntropySource to a request (43_entropy_sync.md R193, R195). -/
inductive Answer where
  | deliver (s : BitString)
  | fail
  deriving DecidableEq, Repr

/-- What can reach the core from outside: a host access of an interface register by its number (00_scope.md R15), a
micro-operation driven on the bus with its arguments (30_encoding.md R95, R96), and reset (70_reset_and_hazards.md R230). -/
inductive Event where
  | hostWrite (n : Nat) (v : Word)
  | hostRead (n : Nat)
  | uop (code : BitVec 4) (args : UopArgs)
  | reset
  deriving DecidableEq, Repr

/-- An event still to land, and how many turns the core has, after the event before it, until it lands (log 2). -/
structure Input where
  after : Nat
  event : Event
  deriving DecidableEq, Repr

/-- The outside world and the count of free values; the model's own fields (log 1, 3, 8, 10). -/
structure Env where
  /-- The events still to land, next first. -/
  inputs : List Input
  /-- The script of the EntropySource: its answers to the coming requests, next first. -/
  source : List Answer
  /-- The value that the last host read returned. -/
  readData : Word
  /-- How many free values have been taken (log 10). -/
  draws : Nat
  deriving DecidableEq, Repr

/-- An outside world that does nothing. -/
def Env.zero : Env := { inputs := [], source := [], readData := 0, draws := 0 }

/-- The whole state (R20), with the outside world beside it. -/
structure State where
  eng : Engine
  drbg : Drbg
  phase : Phase
  work : Work
  ent : Sync
  host : HostIf
  env : Env
  deriving DecidableEq, Repr

/-- The state after reset: every register of R20 at the value of R51, and nothing pending outside (log 25). -/
def State.reset : State :=
  { eng := Engine.zero, drbg := Drbg.zero, phase := .idle, work := Work.zero, ent := Sync.zero
    host := HostIf.zero, env := Env.zero }

end Sys2Proof.Machine
end

