-- ==== Sys2Proof/Machine/Flags.lean ====
section
/-! DEFINITION. The flags the host sees: `STATUS` (10_state.md R42, R48 to R50), the error kinds and their codes
(60_exceptions.md R201), and ENHD's three states (42_drbg_commands.md R150). -/

namespace Sys2Proof.Machine

/-- The eleven error kinds (60_exceptions.md R201). -/
inductive ErrorKind where
  | invalidSecurityStrength
  | personalizationTooLong
  | additionalInputTooLong
  | insufficientEntropy
  | reseedRequired
  | requestedBitsExceedsMax
  | invalidLength
  | illegalCommand
  | notInstantiated
  | alreadyInstantiated
  | operandMalformed
  deriving DecidableEq, Repr

/-- `code(E)` (R201). -/
def errorCode : ErrorKind → BitVec 8
  | .invalidSecurityStrength => 0x01
  | .personalizationTooLong => 0x02
  | .additionalInputTooLong => 0x03
  | .insufficientEntropy => 0x04
  | .reseedRequired => 0x05
  | .requestedBitsExceedsMax => 0x06
  | .invalidLength => 0x07
  | .illegalCommand => 0x10
  | .notInstantiated => 0x11
  | .alreadyInstantiated => 0x12
  | .operandMalformed => 0x13

/-- `reseed_counter > RESEED_INTERVAL` (R166). -/
def counterExhausted (d : Drbg) : Bool := decide (Config.reseedInterval < d.reseedCounter.toNat)

/-- `NEEDS_RESEED` (10_state.md R42, R49). -/
def needsReseed (d : Drbg) : Bool := d.instantiated && counterExhausted d

/-- `ENT_WAIT` (10_state.md R42, R50). -/
def entWait (e : Sync) : Bool := decide (e.state = .req)

/-- The `STATUS` word (10_state.md R42), its fields from bit 31 down. -/
def statusWord (s : State) : Word :=
  0#16 ++ s.host.err ++ 0#1 ++ BitVec.ofBool s.host.overrun ++ BitVec.ofBool (entWait s.ent) ++
    BitVec.ofBool (needsReseed s.drbg) ++ BitVec.ofBool s.drbg.instantiated ++ BitVec.ofBool s.host.error ++
    BitVec.ofBool s.host.done ++ BitVec.ofBool s.host.busy

/-- ENHD's three states (42_drbg_commands.md R150). -/
inductive DrbgState where
  | uninstantiated | instantiated | needsReseed
  deriving DecidableEq, Repr

/-- The three states as functions of `instantiated` and `reseed_counter` (R150). -/
def drbgState (d : Drbg) : DrbgState :=
  if d.instantiated then (if counterExhausted d then .needsReseed else .instantiated) else .uninstantiated

end Sys2Proof.Machine
end

