-- ==== Sys2Proof/Machine/Operands.lean ====
section
/-! DEFINITION. Bit strings, numbers and words (00_scope.md R9 to R14), the operand and output encodings
(30_encoding.md R85, R86) and the layouts of the messages the DRBG hashes (R88 to R90). -/

namespace Sys2Proof.Machine

/-- `bits_N` (R10): the bits of an `N`-bit value, most significant first. -/
def toBits {w : Nat} (x : BitVec w) : BitString := (List.range w).map x.getMsbD

/-- `int(s)` (R10): the unsigned integer a bit string denotes, its first bit the most significant. -/
def toInt (s : BitString) : Nat := s.foldl (fun n b => 2 * n + b.toNat) 0

/-- A bit string read as a register of `w` bits; for `len(s) = w` the inverse of `toBits` (R10, R14). -/
def ofBits (w : Nat) (s : BitString) : BitVec w := BitVec.ofNat w (toInt s)

/-- `ceil(n / d)` for positive `d` (R15). -/
def ceilDiv (n d : Nat) : Nat := (n + d - 1) / d

/-- `leftmost(s, k)` (R9). -/
def leftmost (s : BitString) (k : Nat) : BitString := s.take k

/-- The word of at most 32 bits that a string starts with, left-aligned, zeros after it (R14). -/
def headWord (s : BitString) : Word :=
  ofBits 32 (s.take 32 ++ List.replicate (32 - s.length) false)

/-- `n` words cut off a bit string left to right. -/
def cutWords : Nat → BitString → List Word
  | 0, _ => []
  | n + 1, s => headWord s :: cutWords n (s.drop 32)

/-- `pack32(s)` (R14; 20_memory.md R65). -/
def pack32 (s : BitString) : List Word := cutWords (ceilDiv s.length 32) s

/-- The bits of a sequence of words, first word first (R38). -/
def wordsBits (ws : List Word) : BitString := ws.flatMap toBits

/-- `wellformed(opnd)` (30_encoding.md R85): `count(in_words) = ceil(in_len / 32)`. -/
def Operand.wellFormed (o : Operand) : Bool := o.words.length == ceilDiv o.len.toNat 32

/-- `string(opnd)` (R38, R85). -/
def Operand.string (o : Operand) : BitString := leftmost (wordsBits o.words) o.len.toNat

/-- `SEEDLEN` as the `requested_bits` of a derivation (41_hash_df.md R143). -/
def seedRequest : BitVec Config.dfLenBits := BitVec.ofNat Config.dfLenBits Config.seedLen

/-- `byte(b)` (R10, R88). -/
def byte (b : BitVec 8) : BitString := toBits b

/-- `B.word(i)` (R14). -/
def blockWord (B : Block) (i : Nat) : Word := B.extractLsb' (480 - 32 * i) 32

/-- `B.bit(i) <- x`: bit `i` from the left. -/
def setBlockBit (B : Block) (i : Nat) (x : Bool) : Block :=
  let mask : Block := 1#512 <<< (511 - i)
  if i < 512 then (if x then B ||| mask else B &&& ~~~mask) else B

/-- `B.bit(i .. j) <- 0`, positions counted from the left; nothing when `i > j`. -/
def clearBlockBits (B : Block) (i j : Nat) : Block :=
  B &&& ~~~(BitVec.ofNat 512 (2 ^ (j + 1 - i) - 1) <<< (511 - j))

/-- `B.bit(448 .. 511) <- bits_64(n)` (40_sha256_engine.md R125). -/
def setBlockLength (B : Block) (n : BitVec Config.lenFieldBits) : Block := B.extractLsb' 64 448 ++ n

/-- The seed material of INSTANTIATE (30_encoding.md R90). -/
def instantiateMaterial (e n p : BitString) : BitString := e ++ n ++ p

/-- The seed material of RESEED (R90). -/
def reseedMaterial (V : Seed) (e a : BitString) : BitString := byte 0x01 ++ toBits V ++ e ++ a

/-- What `C` is derived from (R90). -/
def cMaterial (V : Seed) : BitString := byte 0x00 ++ toBits V

end Sys2Proof.Machine
end

