-- ==== Sys2Proof/Machine/Functions.lean ====
section
/-! DEFINITION. The word functions and the constant tables of SHA-256 (40_sha256_engine.md R111 to R118), and the pure
functions `Pad`, `Compress`, `Sha256` (R126 to R128), `derive` (41_hash_df.md R141) and `Hashgen` (42_drbg_commands.md
R163) that the engine's micro-operations are claimed to compute. The machine itself uses the word functions and the
tables only. -/

namespace Sys2Proof.Machine

/-- `ROTR^n` (00_scope.md R12). -/
def rotr (n : Nat) (x : Word) : Word := (x >>> n) ||| (x <<< (32 - n))

/-- `SHR^n` (R12). -/
def shr (n : Nat) (x : Word) : Word := x >>> n

/-- R111. -/
def sigma0 (x : Word) : Word := rotr 7 x ^^^ rotr 18 x ^^^ shr 3 x

/-- R112. -/
def sigma1 (x : Word) : Word := rotr 17 x ^^^ rotr 19 x ^^^ shr 10 x

/-- R113. -/
def bigSigma0 (x : Word) : Word := rotr 2 x ^^^ rotr 13 x ^^^ rotr 22 x

/-- R114. -/
def bigSigma1 (x : Word) : Word := rotr 6 x ^^^ rotr 11 x ^^^ rotr 25 x

/-- R115. -/
def ch (x y z : Word) : Word := (x &&& y) ^^^ (~~~x &&& z)

/-- R116. -/
def maj (x y z : Word) : Word := (x &&& y) ^^^ (x &&& z) ^^^ (y &&& z)

/-- The rows of the table of R117: row `i` holds `K[4i] … K[4i+3]`, the first in the highest bits. -/
def tableRows : List (BitVec 128) :=
  [0x428a2f98_71374491_b5c0fbcf_e9b5dba5#128, 0x3956c25b_59f111f1_923f82a4_ab1c5ed5#128,
   0xd807aa98_12835b01_243185be_550c7dc3#128, 0x72be5d74_80deb1fe_9bdc06a7_c19bf174#128,
   0xe49b69c1_efbe4786_0fc19dc6_240ca1cc#128, 0x2de92c6f_4a7484aa_5cb0a9dc_76f988da#128,
   0x983e5152_a831c66d_b00327c8_bf597fc7#128, 0xc6e00bf3_d5a79147_06ca6351_14292967#128,
   0x27b70a85_2e1b2138_4d2c6dfc_53380d13#128, 0x650a7354_766a0abb_81c2c92e_92722c85#128,
   0xa2bfe8a1_a81a664b_c24b8b70_c76c51a3#128, 0xd192e819_d6990624_f40e3585_106aa070#128,
   0x19a4c116_1e376c08_2748774c_34b0bcb5#128, 0x391c0cb3_4ed8aa4a_5b9cca4f_682e6ff3#128,
   0x748f82ee_78a5636f_84c87814_8cc70208#128, 0x90befffa_a4506ceb_bef9a3f7_c67178f2#128]

/-- `K[t]`: a quarter of its row. -/
def roundConst (t : Nat) : Word := (tableRows.getD (t / 4) 0).extractLsb' (96 - 32 * (t % 4)) 32

/-- `K[0..63]` (R117). -/
def tableK : List Word := (List.range Config.rounds).map roundConst

/-- `IV[0..7]` (R118). -/
def initialDigest : Vector Word 8 :=
  #v[0x6a09e667, 0xbb67ae85, 0x3c6ef372, 0xa54ff53a, 0x510e527f, 0x9b05688c, 0x1f83d9ab, 0x5be0cd19]

/-- `W[t]` from `W[t-2]`, `W[t-7]`, `W[t-15]`, `W[t-16]` (R119). -/
def scheduleWord (w2 w7 w15 w16 : Word) : Word := sigma1 w2 + w7 + sigma0 w15 + w16

/-- The eight working values `a..h` as a value. -/
structure Vars where
  a : Word
  b : Word
  c : Word
  d : Word
  e : Word
  f : Word
  g : Word
  h : Word
  deriving DecidableEq, Repr

/-- The three middle lines of R122, for the constant `k` and the schedule word `w`. -/
def roundVars (r : Vars) (k w : Word) : Vars :=
  let t1 := r.h + bigSigma1 r.e + ch r.e r.f r.g + k + w
  let t2 := bigSigma0 r.a + maj r.a r.b r.c
  { a := t1 + t2, b := r.a, c := r.b, d := r.c, e := r.d + t1, f := r.e, g := r.f, h := r.g }

/-- `(a..h) = S` (R128). -/
def varsOf (S : Vector Word 8) : Vars :=
  { a := S[0], b := S[1], c := S[2], d := S[3], e := S[4], f := S[5], g := S[6], h := S[7] }

/-- `S[i] +32 (a..h)[i]` (R128). -/
def addVars (S : Vector Word 8) (r : Vars) : Vector Word 8 :=
  #v[S[0] + r.a, S[1] + r.b, S[2] + r.c, S[3] + r.d, S[4] + r.e, S[5] + r.f, S[6] + r.g, S[7] + r.h]

/-- The block's sixteen words. -/
def blockWords (B : Block) : List Word := (List.range 16).map (blockWord B)

/-- One more entry of the message schedule (R119). -/
def extendSchedule (ws : List Word) : List Word :=
  let n := ws.length
  ws ++ [scheduleWord (ws.getD (n - 2) 0) (ws.getD (n - 7) 0) (ws.getD (n - 15) 0) (ws.getD (n - 16) 0)]

/-- The message schedule of a block, 64 words (R119). -/
def schedule (B : Block) : List Word := Nat.repeat extendSchedule 48 (blockWords B)

/-- `Compress(S, B)` (R128). -/
def compress (S : Vector Word 8) (B : Block) : Vector Word 8 :=
  addVars S ((tableK.zip (schedule B)).foldl (fun r kw => roundVars r kw.1 kw.2) (varsOf S))

/-- `Pad(M)` (R127): `M ‖ 1 ‖ 0^k ‖ bits_64(len(M))` with `k = (447 - len(M)) mod 512`. -/
def pad (M : BitString) : BitString :=
  let k := (Config.blockBits + (Config.blockBits - Config.lenFieldBits - 1) - M.length % Config.blockBits) % Config.blockBits
  M ++ [true] ++ List.replicate k false ++ toBits (BitVec.ofNat Config.lenFieldBits M.length)

/-- `n` blocks cut off a bit string left to right. -/
def cutBlocks : Nat → BitString → List Block
  | 0, _ => []
  | n + 1, s => ofBits Config.blockBits (s.take Config.blockBits) :: cutBlocks n (s.drop Config.blockBits)

/-- `blocks(P)` (R127). -/
def blocks (P : BitString) : List Block := cutBlocks (P.length / Config.blockBits) P

/-- `fold_blocks(S, Bs)` (R128). -/
def foldBlocks (S : Vector Word 8) (Bs : List Block) : Vector Word 8 := Bs.foldl compress S

/-- `digest(S)` (R92, R128). -/
def digestOf (S : Vector Word 8) : Digest :=
  S[0] ++ S[1] ++ S[2] ++ S[3] ++ S[4] ++ S[5] ++ S[6] ++ S[7]

/-- `Sha256(M)` (R126). -/
def sha256 (M : BitString) : Digest := digestOf (foldBlocks initialDigest (blocks (pad M)))

/-- The message DF.DERIVE hashes under a counter (30_encoding.md R89). -/
def deriveMessage (ctr : BitVec Config.dfCtrBits) (bits : BitVec Config.dfLenBits) (input : BitString) : BitString :=
  toBits ctr ++ toBits bits ++ input

/-- `derive(input, requested_bits)` (41_hash_df.md R141), for `1 <= requested_bits <= DF_MAX_BITS`. -/
def derive (input : BitString) (bits : BitVec Config.dfLenBits) : BitString :=
  let n := ceilDiv bits.toNat Config.outLen
  leftmost ((List.range n).flatMap fun i => toBits (sha256 (deriveMessage (BitVec.ofNat Config.dfCtrBits (i + 1)) bits input)))
    bits.toNat

/-- `derive` at `SEEDLEN`, as a register (42_drbg_commands.md R160). -/
def deriveSeed (input : BitString) : Seed := ofBits Config.seedLen (derive input seedRequest)

/-- `Hashgen(V, r)` (42_drbg_commands.md R163). -/
def hashgen (V : Seed) (r : Nat) : BitString :=
  leftmost ((List.range (ceilDiv r Config.outLen)).flatMap fun i => toBits (sha256 (toBits (V + BitVec.ofNat Config.seedLen i)))) r

/-- The additional-input step (R161). -/
def addinV (V : Seed) (a : BitString) : Seed :=
  if a.length = 0 then V else V + (sha256 (byte 0x02 ++ toBits V ++ a)).setWidth Config.seedLen

/-- The update of `V` (R162). -/
def updateV (V C : Seed) (ctr : BitVec Config.ctrBits) : Seed :=
  V + (sha256 (byte 0x03 ++ toBits V)).setWidth Config.seedLen + C + ctr.setWidth Config.seedLen

/-- The last sixteen words of a schedule in the making: drop the oldest, append the next (R131). -/
def slideWindow (ws : List Word) : List Word :=
  ws.drop 1 ++ [scheduleWord (ws.getD 14 0) (ws.getD 9 0) (ws.getD 1 0) (ws.getD 0 0)]

/-- A round that reads the window's oldest word and slides the window (R131). -/
def windowRound (p : Vars × List Word) (k : Word) : Vars × List Word :=
  (roundVars p.1 k (p.2.getD 0 0), slideWindow p.2)

/-- `Compress` with a sixteen-word window in place of the 64 schedule entries (R131). -/
def compressWindow (S : Vector Word 8) (B : Block) : Vector Word 8 :=
  addVars S (tableK.foldl windowRound (varsOf S, blockWords B)).1

end Sys2Proof.Machine
end

