-- ==== Sys2Proof/Machine/Ops.lean ====
section
/-! DEFINITION. The shared operations: the SHA-256 engine's (40_sha256_engine.md R120 to R125), the derivation unit's
(41_hash_df.md R141), Hashgen's (42_drbg_commands.md R163), the synchronizer's (43_entropy_sync.md R192 to R195), the
acceptance and the two endings of a command (42_drbg_commands.md R152, 60_exceptions.md R206), the host's register
accesses (10_state.md R41 to R47) and reset (70_reset_and_hazards.md R230 to R232). -/

namespace Sys2Proof.Machine

/-! ### The engine -/

/-- SHA.INIT (R120). -/
def engineInit (e : Engine) : Engine :=
  { e with H := initialDigest, fill := 0, mlen := 0, blkbuf := 0 }

/-- `W[i] <- B.word(i)` for the sixteen words of a block, the other entries as they are (R121). -/
def loadSchedule (W : Vector Word 64) (B : Block) : Vector Word 64 :=
  (List.range 16).foldl (fun W i => W.setIfInBounds i (blockWord B i)) W

/-- SHA.LOAD (R121). -/
def engineLoad (B : Block) (e : Engine) : Engine :=
  { e with
    W := loadSchedule e.W B
    a := e.H[0], b := e.H[1], c := e.H[2], d := e.H[3], e := e.H[4], f := e.H[5], g := e.H[6], h := e.H[7]
    t := 0 }

/-- The schedule with `W[t]` written, when `t >= 16` (R122, first line). -/
def roundSchedule (W : Vector Word 64) (t : Nat) : Vector Word 64 :=
  if 16 ≤ t then
    W.setIfInBounds t
      (scheduleWord (W.getD (t - 2) 0) (W.getD (t - 7) 0) (W.getD (t - 15) 0) (W.getD (t - 16) 0))
  else W

/-- `a..h` as a value. -/
def engineVars (e : Engine) : Vars :=
  { a := e.a, b := e.b, c := e.c, d := e.d, e := e.e, f := e.f, g := e.g, h := e.h }

/-- SHA.ROUND (R122), for `t <= 63`. All eight registers are written at once. -/
def engineRound (e : Engine) : Engine :=
  let W := roundSchedule e.W e.t.toNat
  let r := roundVars (engineVars e) (roundConst e.t.toNat) (W.getD e.t.toNat 0)
  { e with a := r.a, b := r.b, c := r.c, d := r.d, e := r.e, f := r.f, g := r.g, h := r.h, W := W, t := e.t + 1 }

/-- SHA.FOLD (R123). -/
def engineFold (e : Engine) : Engine := { e with H := addVars e.H (engineVars e) }

/-- `process(B) = SHA.LOAD(B) ; 64 × SHA.ROUND ; SHA.FOLD` (R124, R125). -/
def engineProcess (B : Block) (e : Engine) : Engine :=
  engineFold (Nat.repeat engineRound Config.rounds (engineLoad B e))

/-- `process(blkbuf) ; fill <- 0 ; blkbuf <- 0` (R124, R125). -/
def engineFlush (e : Engine) : Engine := { engineProcess e.blkbuf e with fill := 0, blkbuf := 0 }

/-- `blkbuf.bit(fill) <- b ; fill <- fill + 1` (R124, R125). -/
def enginePut (b : Bool) (e : Engine) : Engine :=
  { e with blkbuf := setBlockBit e.blkbuf e.fill.toNat b, fill := e.fill + 1 }

/-- The flush of a block that has become full (R124, R125). -/
def engineFlushFull (e : Engine) : Engine := if e.fill = 512 then engineFlush e else e

/-- One pass of the loop of SHA.ABSORB (R124). -/
def engineAbsorbBit (e : Engine) (b : Bool) : Engine :=
  engineFlushFull { enginePut b e with mlen := e.mlen + 1 }

/-- SHA.ABSORB (R124). -/
def engineAbsorb (s : BitString) (e : Engine) : Engine := s.foldl engineAbsorbBit e

/-- `if fill > 448`: the block with no room for the length is closed with zeros and processed (R125). -/
def engineCloseBlock (e : Engine) : Engine :=
  if 448 < e.fill.toNat then engineFlush { e with blkbuf := clearBlockBits e.blkbuf e.fill.toNat 511 } else e

/-- SHA.FINAL (R125). The padding bits do not count in `mlen`, which is the length written. The result is
`engineDigest` of the engine it leaves. -/
def engineFinal (e : Engine) : Engine :=
  let e2 := engineCloseBlock (engineFlushFull (enginePut true e))
  let B := setBlockLength (clearBlockBits e2.blkbuf e2.fill.toNat 447) e.mlen
  engineProcess B { e2 with blkbuf := B }

/-- `str32(H[0]) ‖ … ‖ str32(H[7])` (R125; 30_encoding.md R92). -/
def engineDigest (e : Engine) : Digest := digestOf e.H

/-- `SHA.INIT`, one `SHA.ABSORB` for each part, `SHA.FINAL` (R124, R126). -/
def engineHash (parts : List BitString) (e : Engine) : Engine :=
  engineFinal (parts.foldl (fun e s => engineAbsorb s e) (engineInit e))

/-! ### The derivation unit and Hashgen -/

/-- One pass of the loop of DF.DERIVE (41_hash_df.md R141). -/
def deriveBlock (input : BitString) (s : State) : State :=
  let ctr := s.work.dfCtr + 1
  let e := engineHash [toBits ctr, toBits s.work.dfReq, input] s.eng
  { s with eng := e, work := { s.work with dfCtr := ctr, dfAcc := s.work.dfAcc ++ toBits (engineDigest e) } }

/-- DF.DERIVE (R141), for `1 <= requested_bits <= DF_MAX_BITS`; the result goes to `ret`. -/
def runDerive (input : BitString) (bits : BitVec Config.dfLenBits) (s : State) : State :=
  let s1 := { s with work := { s.work with dfReq := bits, dfAcc := [], dfCtr := 0 } }
  let s2 := Nat.repeat (deriveBlock input) (ceilDiv bits.toNat Config.outLen) s1
  { s2 with work := { s2.work with ret := leftmost s2.work.dfAcc bits.toNat } }

/-- One pass of the loop of HG.HASHGEN (42_drbg_commands.md R163); `acc` grows in `ret` (log 7). -/
def hashgenBlock (s : State) : State :=
  let e := engineHash [toBits s.work.data] s.eng
  { s with
    eng := e
    work := { s.work with
      ret := s.work.ret ++ toBits (engineDigest e), data := s.work.data + 1, hgI := s.work.hgI + 1 } }

/-- HG.HASHGEN (R163), for `requested_bits <= 2^19`; the result goes to `ret`. -/
def runHashgen (bits : Nat) (s : State) : State :=
  let s1 := { s with work := { s.work with data := s.drbg.V, hgI := 0, ret := [] } }
  let s2 := Nat.repeat hashgenBlock (ceilDiv bits Config.outLen) s1
  { s2 with work := { s2.work with ret := leftmost s2.work.ret bits } }

/-- HG.HASHGEN of more bits than its operand range has (log 10). The loop runs as R163 writes it, on the engine, `data` and
`hg_i`; the bits returned, which no rule states there, are free, and so is `hg_i` when its 12 bits cannot hold the number of
blocks. -/
def runHashgenBeyond (bits : Nat) (s : State) : State :=
  let t := runHashgen bits s
  { t with
    work := { t.work with
      ret := (List.range bits).map (Config.freeBit t.env.draws)
      hgI := if ceilDiv bits Config.outLen < 2 ^ 12 then t.work.hgI else Config.freeCount t.env.draws }
    env := { t.env with draws := t.env.draws + 1 } }

/-! ### The entropy-input synchronizer -/

/-- ENT.REQUEST (43_entropy_sync.md R192), for `ent_state = E_IDLE`. -/
def entRequest (minBits : BitVec 32) (e : Sync) : Sync := { e with min := minBits, buf := [], state := .req }

/-- ENT.DELIVER (R193): dropped without a trace when no request is outstanding. -/
def entDeliver (s : BitString) (e : Sync) : Sync :=
  if e.state = .req then { e with buf := s, len := BitVec.ofNat 64 s.length, state := .ready } else e

/-- ENT.FAIL (R195). -/
def entFail (e : Sync) : Sync := if e.state = .req then { e with state := .fail } else e

/-- The taking of a delivery in `EntropyGet` (R194). -/
def entTake (e : Sync) : Sync := { e with buf := [], len := 0, state := .idle }

/-! ### Acceptance and the two endings of a command -/

/-- The scrub (10_state.md R54): engine, sequencer registers and synchronizer to zero, `phase` to IDLE. -/
def scrub (s : State) : State :=
  { s with eng := Engine.zero, work := Work.zero, ent := Sync.zero, phase := .idle }

/-- Acceptance (42_drbg_commands.md R152). -/
def accept (w : Word) (s : State) : State :=
  { s with
    phase := .check
    work := { s.work with
      curOp := w.extractLsb' 24 8, curImm := w.extractLsb' 0 24
      opnd := { len := s.host.inLen, words := s.host.inWords } }
    host := { HostIf.zero with busy := true } }

/-- THE EXCEPTION OF THIS MACHINE: `raise E` (60_exceptions.md R206; 42_drbg_commands.md R152), one step: the code and
`error`, `done` stays 0, scrub, `phase` to IDLE, `busy` to 0. Nothing of the DRBG registers is written. -/
def raiseError (k : ErrorKind) (s : State) : State :=
  scrub { s with host := { s.host with err := errorCode k, error := true, done := false, busy := false } }

/-- The successful ending (R152): `done`, scrub, `phase` to IDLE, `busy` to 0. There is no return instruction (R217). -/
def finishCommand (s : State) : State :=
  scrub { s with host := { s.host with done := true, busy := false } }

/-! ### The host's register accesses -/

/-- An ignored write while `busy = 1` (10_state.md R50). -/
def setOverrun (s : State) : State := { s with host := { s.host with overrun := true } }

/-- A write of `IN_LEN_LO` while `busy = 0` (R43). -/
def writeInLenLo (v : Word) (s : State) : State :=
  { s with host := { s.host with inLen := s.host.inLen.extractLsb' 32 32 ++ v } }

/-- A write of `IN_LEN_HI` while `busy = 0` (R43). -/
def writeInLenHi (v : Word) (s : State) : State :=
  { s with host := { s.host with inLen := v ++ s.host.inLen.extractLsb' 0 32 } }

/-- A write of `IN_DATA` while `busy = 0` (R44). -/
def pushInData (v : Word) (s : State) : State :=
  { s with host := { s.host with inWords := s.host.inWords ++ [v] } }

/-- A host write of a register other than `CMD` (R42 to R47; 20_memory.md R69). -/
def hostWrite (n : Nat) (v : Word) (s : State) : State :=
  match n with
  | 2 => if s.host.busy then setOverrun s else writeInLenLo v s
  | 3 => if s.host.busy then setOverrun s else writeInLenHi v s
  | 4 => if s.host.busy then setOverrun s else pushInData v s
  | _ => s

/-- Whether a read of `OUT_DATA` pops a word (R46). -/
def outReady (h : HostIf) : Bool := !h.busy && decide (h.outRd.toNat < ceilDiv h.outLen.toNat 32)

/-- The value a host read returns (R41 to R47). -/
def readValue (n : Nat) (s : State) : Word :=
  match n with
  | 1 => statusWord s
  | 2 => s.host.inLen.extractLsb' 0 32
  | 3 => s.host.inLen.extractLsb' 32 32
  | 5 => s.host.outLen.setWidth 32
  | 6 => if outReady s.host then s.host.outWords.getD s.host.outRd.toNat 0 else 0
  | _ => 0

/-- The pop of an output word (R46). -/
def popOut (s : State) : State :=
  if outReady s.host then { s with host := { s.host with outRd := s.host.outRd + 1 } } else s

/-- The side effect of a host read: only `OUT_DATA` has one (20_memory.md R69). -/
def readEffect (n : Nat) (s : State) : State :=
  match n with
  | 6 => popOut s
  | _ => s

/-- A host read: the value to the host (log 8), and the side effect. -/
def hostRead (n : Nat) (s : State) : State :=
  let t := readEffect n s
  { t with env := { t.env with readData := readValue n s } }

/-! ### Reset -/

/-- Reset at any time (70_reset_and_hazards.md R230 to R232): every register of the core to its reset value. The
outside world is not the core's and stays (log 21). -/
def resetCore (s : State) : State := { State.reset with env := s.env }

end Sys2Proof.Machine
end

