-- ==== Sys2Proof/Machine/Sequencer.lean ====
section
/-! DEFINITION. The Hash_DRBG sequencer: the checks of the four commands in their order (42_drbg_commands.md R153 to
R156, R165), one action for each phase (R168), `EntropyGet` (43_entropy_sync.md R194), the commit and the completion
(R152), and the turns of the core. -/

namespace Sys2Proof.Machine

/-! ### CHECK -/

/-- The checks of INSTANTIATE (R153), then phase ENT_E. -/
def checkInstantiate (s : State) : State :=
  if s.drbg.instantiated then raiseError .alreadyInstantiated s
  else if s.work.curImm.toNat < Config.minStrength ∨ Config.maxStrength < s.work.curImm.toNat then
    raiseError .invalidSecurityStrength s
  else if Config.maxPersBits < s.work.opnd.len.toNat then raiseError .personalizationTooLong s
  else if !s.work.opnd.wellFormed then raiseError .operandMalformed s
  else { s with phase := .entE }

/-- The checks of RESEED (R154), then phase ENT_E. -/
def checkReseed (s : State) : State :=
  if s.work.curImm ≠ 0 then raiseError .illegalCommand s
  else if !s.drbg.instantiated then raiseError .notInstantiated s
  else if Config.maxAddinBits < s.work.opnd.len.toNat then raiseError .additionalInputTooLong s
  else if !s.work.opnd.wellFormed then raiseError .operandMalformed s
  else { s with phase := .entE }

/-- The checks of GENERATE (R155), then phase ADDIN, which an empty additional input skips (R161, R168). -/
def checkGenerate (s : State) : State :=
  if !s.drbg.instantiated then raiseError .notInstantiated s
  else if s.work.curImm = 0 then raiseError .invalidLength s
  else if Config.maxRequestBits < s.work.curImm.toNat then raiseError .requestedBitsExceedsMax s
  else if Config.maxAddinBits < s.work.opnd.len.toNat then raiseError .additionalInputTooLong s
  else if !s.work.opnd.wellFormed then raiseError .operandMalformed s
  else if counterExhausted s.drbg then raiseError .reseedRequired s
  else { s with phase := if s.work.opnd.string.length = 0 then .hashgen else .addin }

/-- The check of UNINSTANTIATE (R156), then phase COMPLETE. -/
def checkUninstantiate (s : State) : State :=
  if s.work.curImm ≠ 0 then raiseError .illegalCommand s else { s with phase := .complete }

/-- Phase CHECK: the opcode map (30_encoding.md R82), any other opcode being illegal (R84). -/
def phaseCheck (s : State) : State :=
  if s.work.curOp = 0x01#8 then checkInstantiate s
  else if s.work.curOp = 0x02#8 then checkReseed s
  else if s.work.curOp = 0x03#8 then checkGenerate s
  else if s.work.curOp = 0x04#8 then checkUninstantiate s
  else raiseError .illegalCommand s

/-! ### ENT_E and ENT_N -/

/-- The EntropySource's turn while a request is outstanding: the next answer of its script, if it has one. An answer
above `ENT_MAX_BITS` is no step of the source (43_entropy_sync.md R197; log 13). -/
def sourceTurn (s : State) : State :=
  match s.env.source with
  | [] => s
  | .deliver d :: rest =>
    if d.length ≤ Config.entMaxBits then
      { s with ent := entDeliver d s.ent, env := { s.env with source := rest } }
    else s
  | .fail :: rest => { s with ent := entFail s.ent, env := { s.env with source := rest } }

/-- `EntropyGet(min_bits)` (R194), one action a turn: the request; the hold, which only an answer lifts; the taking of
the answer, passed on to `take`. The length is held against `ent_min`, the request's `min_bits` (log 16). -/
def entropyGet (minBits : BitVec 32) (take : BitString → State → State) (s : State) : State :=
  match s.ent.state with
  | .idle => { s with ent := entRequest minBits s.ent }
  | .req => sourceTurn s
  | .fail => raiseError .insufficientEntropy { s with ent := { s.ent with state := .idle } }
  | .ready =>
    if s.ent.buf.length < s.ent.min.toNat then
      raiseError .insufficientEntropy { s with ent := entTake s.ent }
    else take s.ent.buf { s with ent := entTake s.ent }

/-- `min_bits` of the entropy input: the requested strength at INSTANTIATE, the stored one at RESEED (R153, R154). -/
def entropyMin (s : State) : BitVec 32 :=
  if s.work.curOp = 0x01#8 then s.work.curImm.setWidth 32 else s.drbg.strength.setWidth 32

/-- The entropy input is kept; INSTANTIATE goes on to the nonce, RESEED to the seeding (R168). -/
def takeEntropy (d : BitString) (s : State) : State :=
  { s with
    work := { s.work with entE := d }
    phase := if s.work.curOp = 0x01#8 then .entN else .seedV }

/-- The nonce is kept, and the two lengths together are checked against the strength (R153). -/
def takeNonce (d : BitString) (s : State) : State :=
  if s.work.entE.length + d.length < s.work.curImm.toNat then raiseError .insufficientEntropy s
  else { s with work := { s.work with entN := d }, phase := .seedV }

/-- Phase ENT_E. -/
def phaseEntE (s : State) : State := entropyGet (entropyMin s) takeEntropy s

/-- Phase ENT_N. -/
def phaseEntN (s : State) : State := entropyGet (Config.nonceMinBits s.work.curImm.toNat) takeNonce s

/-! ### SEED_V and SEED_C -/

/-- The seed material of the running command (30_encoding.md R90), read with the old `V`. -/
def seedMaterial (s : State) : BitString :=
  if s.work.curOp = 0x01#8 then instantiateMaterial s.work.entE s.work.entN s.work.opnd.string
  else reseedMaterial s.drbg.V s.work.entE s.work.opnd.string

/-- Phase SEED_V (R160): `seed_tmp_v <- derive(seed_material, 440) ; V <- seed_tmp_v`. -/
def phaseSeedV (s : State) : State :=
  let t := runDerive (seedMaterial s) seedRequest s
  let v : Seed := ofBits Config.seedLen t.work.ret
  { t with work := { t.work with seedTmpV := v }, drbg := { t.drbg with V := v }, phase := .seedC }

/-- Phase SEED_C (R160): `C <- derive(byte(0x00) ‖ V, 440)` with the new `V`. -/
def phaseSeedC (s : State) : State :=
  let t := runDerive (cMaterial s.drbg.V) seedRequest s
  { t with drbg := { t.drbg with C := ofBits Config.seedLen t.work.ret }, phase := .complete }

/-! ### ADDIN, HASHGEN, UPDATE -/

/-- Phase ADDIN (R161). -/
def phaseAddin (s : State) : State :=
  let e := engineHash [byte 0x02, toBits s.drbg.V, s.work.opnd.string] s.eng
  { s with eng := e, drbg := { s.drbg with V := s.drbg.V + (engineDigest e).setWidth Config.seedLen }, phase := .hashgen }

/-- Phase HASHGEN (R163), with `requested_bits = zext_32(IMM24)` (30_encoding.md R83). -/
def phaseHashgen (s : State) : State := { runHashgen s.work.curImm.toNat s with phase := .update }

/-- Phase UPDATE (R162), the write of `V`; the counter is written by the commit (log 5). -/
def phaseUpdate (s : State) : State :=
  let e := engineHash [byte 0x03, toBits s.drbg.V] s.eng
  { s with
    eng := e
    drbg := { s.drbg with
      V := s.drbg.V + (engineDigest e).setWidth Config.seedLen + s.drbg.C + s.drbg.reseedCounter.setWidth Config.seedLen }
    phase := .complete }

/-! ### COMPLETE -/

/-- `reseed_counter <- 1 ; strength <- s ; instantiated <- 1` (R153, R160). -/
def commitInstantiate (s : State) : State :=
  { s with
    drbg := { s.drbg with reseedCounter := 1, strength := s.work.curImm.setWidth 9, instantiated := true } }

/-- `reseed_counter <- 1` (R154, R160). -/
def commitReseed (s : State) : State := { s with drbg := { s.drbg with reseedCounter := 1 } }

/-- `reseed_counter <- reseed_counter + 1` (R162) and the delivery of the returned bits (R164). -/
def commitGenerate (s : State) : State :=
  { s with
    drbg := { s.drbg with reseedCounter := s.drbg.reseedCounter + 1 }
    host := { s.host with outLen := s.work.curImm.setWidth 20, outWords := pack32 s.work.ret, outRd := 0 } }

/-- The zeroizing of UNINSTANTIATE (R156). -/
def commitUninstantiate (s : State) : State := { s with drbg := Drbg.zero }

/-- The writes that the host can see, made in the one step that completes the command (10_state.md R49; 20_memory.md
R68, R70 (c); log 5). -/
def commit (s : State) : State :=
  if s.work.curOp = 0x01#8 then commitInstantiate s
  else if s.work.curOp = 0x02#8 then commitReseed s
  else if s.work.curOp = 0x03#8 then commitGenerate s
  else if s.work.curOp = 0x04#8 then commitUninstantiate s
  else s

/-- Phase COMPLETE (R152, R168). -/
def phaseComplete (s : State) : State := finishCommand (commit s)

/-! ### The turns of the core -/

/-- One turn: the action of the phase (R168). An idle core does nothing (60_exceptions.md R225). -/
def seqStep (s : State) : State :=
  match s.phase with
  | .idle => s
  | .check => phaseCheck s
  | .entE => phaseEntE s
  | .entN => phaseEntN s
  | .seedV => phaseSeedV s
  | .seedC => phaseSeedC s
  | .addin => phaseAddin s
  | .hashgen => phaseHashgen s
  | .update => phaseUpdate s
  | .complete => phaseComplete s

/-- `n` turns of the core, one after another. -/
def turns : Nat → State → State
  | 0, s => s
  | n + 1, s => turns n (seqStep s)

/-- The most turns a command takes that does not hold: INSTANTIATE, with CHECK, three turns for each entropy request,
SEED_V, SEED_C and COMPLETE (R168, R244). -/
def maxTurns : Nat := 10

/-- How many turns the core has before the next event lands; with no event to come, as many as it can use (log 2). -/
def budget (s : State) : Nat :=
  match s.env.inputs with
  | [] => maxTurns
  | i :: _ => min i.after maxTurns

/-- The core goes on until the next event lands. -/
def goOn (s : State) : State := turns (budget s) s

/-- A host write of `CMD`: accepted while `busy = 0`, dropped with `overrun` while `busy = 1` (10_state.md R41); then
the core goes on. -/
def issueCommand (w : Word) (s : State) : State :=
  goOn (if s.host.busy then setOverrun s else accept w s)

end Sys2Proof.Machine
end

