-- ==== Sys2Proof/Machine/Commands.lean ====
section
/-! DEFINITION. The meanings of the four commands and of HG.HASHGEN (42_drbg_commands.md R153 to R156, R163). A command
is issued by writing its word to `CMD`; the core then executes it until it completes, holds for entropy, or the next
event of the outside world lands (R152, R168; log 2). -/

namespace Sys2Proof.Machine

/-- INSTANTIATE (R153): CMD = 0x01000000 | strength. -/
def execInstantiate (strength : BitVec 24) (s : State) : Host.Outcome State Fault Refusal :=
  .next (issueCommand (commandWord 0x01 strength) s)

/-- RESEED (R154): CMD = 0x02000000. -/
def execReseed (s : State) : Host.Outcome State Fault Refusal := .next (issueCommand (commandWord 0x02 0) s)

/-- GENERATE (R155): CMD = 0x03000000 | requested_bits. -/
def execGenerate (bits : BitVec 24) (s : State) : Host.Outcome State Fault Refusal :=
  .next (issueCommand (commandWord 0x03 bits) s)

/-- UNINSTANTIATE (R156): CMD = 0x04000000. -/
def execUninstantiate (s : State) : Host.Outcome State Fault Refusal := .next (issueCommand (commandWord 0x04 0) s)

/-- HG.HASHGEN (R163): within its operand range the first `r` bits of the digests, beyond it a free value (log 10). -/
def execHgHashgen (bits : BitVec 32) (s : State) : Host.Outcome State Fault Refusal :=
  if bits.toNat ≤ Config.maxRequestBits then .next (runHashgen bits.toNat s)
  else .next (runHashgenBeyond bits.toNat s)

end Sys2Proof.Machine
end

