-- ==== Sys2Proof/Machine/Df.lean ====
section
/-! DEFINITION. The meaning of DF.DERIVE (41_hash_df.md R141, R142). -/

namespace Sys2Proof.Machine

/-- Whether `derive` fails with `InvalidLength` (R142). -/
def deriveLengthInvalid (bits : BitVec 32) : Bool :=
  decide (bits = 0 ∨ Config.dfMaxBits < bits.toNat)

/-- DF.DERIVE: `InvalidLength` before any hashing (R142; log 9), else the derivation (R141), for messages, 40 header
bits and the input, below 2^64 bits (R110). -/
def execDfDerive (input : BitString) (bits : BitVec 32) (s : State) : Host.Outcome State Fault Refusal :=
  if deriveLengthInvalid bits then .next (raiseError .invalidLength s)
  else if 40 + input.length < Config.messageBound then .next (runDerive input bits s)
  else .refused .messageTooLong

end Sys2Proof.Machine
end

