-- ==== Sys2Proof/Machine/Entropy.lean ====
section
/-! DEFINITION. The meanings of the entropy-port micro-operations (43_entropy_sync.md R192, R193, R195). -/

namespace Sys2Proof.Machine

/-- ENT.REQUEST (R192), with its precondition `ent_state = E_IDLE` (93 U15). -/
def execEntRequest (minBits : BitVec 32) (s : State) : Host.Outcome State Fault Refusal :=
  if s.ent.state = .idle then .next { s with ent := entRequest minBits s.ent } else .refused .requestOutstanding

/-- ENT.DELIVER (R193); there is no such step for a string above `ENT_MAX_BITS` (R197; 93 U5). -/
def execEntDeliver (bits : BitString) (s : State) : Host.Outcome State Fault Refusal :=
  if bits.length ≤ Config.entMaxBits then .next { s with ent := entDeliver bits s.ent } else .refused .deliveryTooLong

/-- ENT.FAIL (R195). -/
def execEntFail (s : State) : Host.Outcome State Fault Refusal := .next { s with ent := entFail s.ent }

end Sys2Proof.Machine
end

