-- ==== Sys2Proof/Machine/Sha.lean ====
section
/-! DEFINITION. The meanings of U.NOP and of the SHA-256 micro-operations (40_sha256_engine.md R120 to R125, R132). -/

namespace Sys2Proof.Machine

/-- U.NOP: reads nothing and writes nothing (R132). -/
def execUNop (s : State) : Host.Outcome State Fault Refusal := .next s

/-- SHA.INIT (R120). -/
def execShaInit (s : State) : Host.Outcome State Fault Refusal := .next { s with eng := engineInit s.eng }

/-- SHA.ABSORB (R124), with its precondition `mlen + len(s) < 2^64`. -/
def execShaAbsorb (bits : BitString) (s : State) : Host.Outcome State Fault Refusal :=
  if s.eng.mlen.toNat + bits.length < Config.messageBound then
    .next { s with eng := engineAbsorb bits s.eng }
  else .refused .messageTooLong

/-- SHA.FINAL (R125); the digest is returned in `ret` (log 7). -/
def execShaFinal (s : State) : Host.Outcome State Fault Refusal :=
  .next { s with
    eng := engineFinal s.eng
    work := { s.work with ret := toBits (engineDigest (engineFinal s.eng)) } }

/-- SHA.LOAD (R121). -/
def execShaLoad (B : Block) (s : State) : Host.Outcome State Fault Refusal :=
  .next { s with eng := engineLoad B s.eng }

/-- SHA.ROUND (R122), with its precondition `t <= 63` ("a model should treat such an issue as a refusal"). -/
def execShaRound (s : State) : Host.Outcome State Fault Refusal :=
  if s.eng.t.toNat < Config.rounds then .next { s with eng := engineRound s.eng } else .refused .roundAfterLast

/-- SHA.FOLD (R123), with its precondition `t = 64` (93 U15). -/
def execShaFold (s : State) : Host.Outcome State Fault Refusal :=
  if s.eng.t.toNat = Config.rounds then .next { s with eng := engineFold s.eng } else .refused .foldBeforeLastRound

end Sys2Proof.Machine
end

