-- ==== Sys2Proof/Machine/Dispatch.lean ====
section
/-! DEFINITION. One arm for each instruction, a direct call of its meaning. -/

namespace Sys2Proof.Machine

def exec (i : Instr) (s : State) : Host.Outcome State Fault Refusal :=
  match i with
  | .instantiate strength => Sys2Proof.Machine.execInstantiate strength s
  | .reseed => Sys2Proof.Machine.execReseed s
  | .generate bits => Sys2Proof.Machine.execGenerate bits s
  | .uninstantiate => Sys2Proof.Machine.execUninstantiate s
  | .uNop => Sys2Proof.Machine.execUNop s
  | .shaInit => Sys2Proof.Machine.execShaInit s
  | .shaAbsorb bits => Sys2Proof.Machine.execShaAbsorb bits s
  | .shaFinal => Sys2Proof.Machine.execShaFinal s
  | .shaLoad block => Sys2Proof.Machine.execShaLoad block s
  | .shaRound => Sys2Proof.Machine.execShaRound s
  | .shaFold => Sys2Proof.Machine.execShaFold s
  | .dfDerive input bits => Sys2Proof.Machine.execDfDerive input bits s
  | .hgHashgen bits => Sys2Proof.Machine.execHgHashgen bits s
  | .entRequest minBits => Sys2Proof.Machine.execEntRequest minBits s
  | .entDeliver bits => Sys2Proof.Machine.execEntDeliver bits s
  | .entFail => Sys2Proof.Machine.execEntFail s

end Sys2Proof.Machine
end

