-- ==== Sys2Proof/Machine/Fetch.lean ====
section
/-! DEFINITION. What the next event of the outside world asks for, and what the machine does with an event that is no
instruction (10_state.md R40 to R47; 43_entropy_sync.md R193, R195; 70_reset_and_hazards.md R232). -/

namespace Sys2Proof.Machine

/-- What a step has before it. -/
inductive Fetched where
  /-- An instruction to run, in the state with the event taken off the list. -/
  | instr (i : Instr) (s : State)
  /-- No instruction: the state the step leaves. -/
  | other (s : State)
  /-- An event that no agent can cause. -/
  | stop (r : Refusal)
  deriving DecidableEq, Repr

/-- The state with a list of events to come. -/
def withInputs (l : List Input) (s : State) : State := { s with env := { s.env with inputs := l } }

/-- The event that a decoded form stands for: a command is a host write of `CMD`, register 0 (30_encoding.md R80), a
micro-operation an event on the bus (R95). -/
def issueEvent : Encoded → Event
  | .command w => .hostWrite 0 w
  | .uop code args => .uop code args

/-- An event in the state with it taken off the list. A `CMD` word that decodes to a command is that command; any other
is accepted all the same and ends with `IllegalCommand` (30_encoding.md R84). -/
def landEvent (ev : Event) (s : State) : Fetched :=
  match ev with
  | .hostWrite 0 w =>
    match decodeCommand w with
    | .ok i => .instr i s
    | .error _ => .other (issueCommand w s)
  | .hostWrite (n + 1) v => .other (goOn (hostWrite (n + 1) v s))
  | .hostRead n => .other (goOn (hostRead n s))
  | .uop code args =>
    match decodeUop code args with
    | .ok i => .instr i s
    | .error _ => .stop (.unusedMicroOp code)
  | .reset => .other (goOn (resetCore s))

/-- The next event; with none, the core has its turns alone (60_exceptions.md R225; log 1, 2). -/
def fetch (s : State) : Fetched :=
  match s.env.inputs with
  | [] => .other (goOn s)
  | i :: rest => landEvent i.event (withInputs rest s)

/-- What follows an instruction's own effect within its step: after a micro-operation the core goes on until the next
event lands (an answer lifts the hold); a command's meaning contains that already. -/
def afterInstr (i : Instr) (s : State) : State := if isCommand i then s else goOn s

/-- The event placed where the next step looks. -/
def placeEvent (ev : Event) (s : State) : State :=
  withInputs ({ after := 0, event := ev } :: s.env.inputs) s

end Sys2Proof.Machine
end

