-- ==== Sys2Proof/Machine/Step.lean ====
section
/-! DEFINITION. One step of the whole machine: the next event lands, and the core goes on until the one after it. -/

namespace Sys2Proof.Machine

/-- One step (log 1, 2). -/
def step (s : State) : Host.Outcome State Fault Refusal :=
  match fetch s with
  | .other t => .next t
  | .stop r => .refused r
  | .instr i t =>
    match exec i t with
    | .next u => .next (afterInstr i u)
    | .fault r => .fault r
    | .refused r => .refused r

/-- The state with a table row's bits placed so that the next step fetches and runs them (log 1, 12): a `CMD` word as a
host write of `CMD`, a micro-operation code as an event on the bus. Bits that are no row's place nothing. -/
def State.withFetchWord (s : State) (nbits w : Nat) : State :=
  match tableForm nbits w with
  | some e => placeEvent (issueEvent e) s
  | none => s

end Sys2Proof.Machine
end

