-- ==== Sys2Proof/Machine/Transactions.lean ====
section
/-! DEFINITION. The host transactions that the pseudo-instructions of the text syntax stand for (30_encoding.md R94). -/

namespace Sys2Proof.Machine

/-- A host write that lands at once. -/
def writeNow (n : Nat) (v : Word) : Input := { after := 0, event := .hostWrite n v }

/-- The loading of an operand: `IN_LEN_LO`, `IN_LEN_HI`, then one `IN_DATA` write a word of `pack32` (R94; 20_memory.md
R65). -/
def loadOperand (p : BitString) : List Input :=
  writeNow 2 (BitVec.ofNat 32 p.length) :: writeNow 3 (BitVec.ofNat 32 (p.length >>> 32)) ::
    (pack32 p).map (writeNow 4)

/-- The write of the command word after its operand (R94). -/
def issueInputs (w : Word) (p : BitString) : List Input := loadOperand p ++ [writeNow 0 w]

/-- A read of `STATUS` when the core has had its turns; the host repeats it while `BUSY` reads 1 (R94). -/
def pollInput : Input := { after := maxTurns, event := .hostRead 1 }

/-- The reading of the returned bits: `OUT_LEN`, then every word (R94). -/
def collectInputs (bits : Nat) : List Input :=
  { after := 0, event := .hostRead 5 } :: List.replicate (ceilDiv bits 32) { after := 0, event := .hostRead 6 }

/-- A command line `instantiate`, `reseed`, `generate` or `uninstantiate` with its bit string: load, issue, poll, and
after a `generate` that ended with `DONE` the reading of `bits` returned bits (R94). -/
def hostTransaction (w : Word) (p : BitString) (bits : Nat) : List Input :=
  issueInputs w p ++ [pollInput] ++ (if bits = 0 then [] else collectInputs bits)

/-- A sequence of host writes, one after another, with the core's turns left out: what they leave in the registers
while the core is idle. -/
def writeAll (ws : List Input) (s : State) : State :=
  ws.foldl (fun s i => match i.event with | .hostWrite n v => hostWrite n v s | _ => s) s

end Sys2Proof.Machine
end

