-- ==== Sys2Proof/Safety.lean ====
section
/-! DEFINITION. What the claims are stated in: which events an outside agent can cause, a state in which no event lands during
a command, what a command leaves when it ends in an error, holding, what is public of a state, and the invariant that every
step keeps. -/

namespace Sys2Proof.Machine

/-- The events an agent outside the core can cause: host accesses, reset, and of the micro-operations the two of the
EntropySource, ENT.DELIVER and ENT.FAIL (00_scope.md R17; 30_encoding.md R95, R96). -/
def Event.external : Event → Bool
  | .hostWrite _ _ => true
  | .hostRead _ => true
  | .uop code _ => code = 0xD#4 || code = 0xE#4
  | .reset => true

/-- No event lands before the core has had all the turns a command can use. -/
abbrev Undisturbed (s : State) : Prop := budget s = maxTurns

/-- The core waits on the EntropySource, and the source's script has no answer for it (43_entropy_sync.md R194, R198). -/
def Holding (s : State) : Prop := (s.phase = .entE ∨ s.phase = .entN) ∧ s.ent.state = .req ∧ sourceTurn s = s

/-- Instructions one after another, stopping where one stops. -/
def execAll : List Instr → State → Host.Outcome State Fault Refusal
  | [], s => .next s
  | i :: is, s =>
    match exec i s with
    | .next t => execAll is t
    | .fault r => .fault r
    | .refused r => .refused r

/-- The flags and buffers of the host interface when a command has ended with an error (60_exceptions.md R206): the
code, `error`, everything else cleared (42_drbg_commands.md R152). -/
def errorHost (code : BitVec 8) : HostIf := { HostIf.zero with error := true, err := code }

/-- The flags and buffers when a command other than GENERATE has ended with success (R152). -/
def doneHost : HostIf := { HostIf.zero with done := true }

/-- An idle core with the DRBG registers, the host interface and the outside world given, every working register at its
reset value (10_state.md R54). -/
def idleState (d : Drbg) (h : HostIf) (v : Env) : State :=
  { eng := Engine.zero, drbg := d, phase := .idle, work := Work.zero, ent := Sync.zero, host := h, env := v }

/-- What a command that ends with an error of the given code leaves of a state: nothing of the DRBG registers changed (60_exceptions.md
R200, R206). -/
def endedInError (code : BitVec 8) (s : State) : State := idleState s.drbg (errorHost code) s.env

/-- The operand that stands in the IN buffer (30_encoding.md R85). -/
def inOperand (s : State) : Operand := { len := s.host.inLen, words := s.host.inWords }

/-- `V` after INSTANTIATE or RESEED from a seed material, `C` from it, and the counter at 1 (42_drbg_commands.md R160). -/
def seeded (material : BitString) (d : Drbg) : Drbg :=
  { d with V := deriveSeed material, C := deriveSeed (cMaterial (deriveSeed material)), reseedCounter := 1 }

/-! ### What is public (10_state.md R52) -/

/-- An answer with the bits of a delivery hidden, its length kept. -/
def hideAnswer : Answer → Answer
  | .deliver s => .deliver (List.replicate s.length false)
  | .fail => .fail

/-- An event with the bits of a delivery hidden, their number kept. -/
def hideInput (i : Input) : Input :=
  match i.event with
  | .uop code args =>
    { i with event := .uop code { args with bits := List.replicate args.bits.length false, block := 0 } }
  | .hostWrite _ _ => i
  | .hostRead _ => i
  | .reset => i

/-- A state with every secret hidden: the engine, `V`, `C`, the values derived from them, the bits of the entropy input and
the nonce, the returned bits, and the value of the last read. What is left is the command history, the lengths, the counter
and the strength (10_state.md R52). -/
def publicView (s : State) : State :=
  { s with
    eng := Engine.zero
    drbg := { s.drbg with V := 0, C := 0 }
    work := { s.work with
      dfAcc := [], data := 0, seedTmpV := 0, ret := []
      entE := List.replicate s.work.entE.length false, entN := List.replicate s.work.entN.length false }
    ent := { s.ent with buf := List.replicate s.ent.buf.length false }
    host := { s.host with outWords := [] }
    env := { s.env with inputs := s.env.inputs.map hideInput, source := s.env.source.map hideAnswer, readData := 0 } }

/-- An outcome with the secrets of the next state hidden. -/
def publicOutcome : Host.Outcome State Fault Refusal → Host.Outcome State Fault Refusal
  | .next t => .next (publicView t)
  | .fault r => .fault r
  | .refused r => .refused r

/-! ### The invariant -/

/-- What every state of a core driven from outside meets. -/
structure Inv (s : State) : Prop where
  /-- `phase = IDLE` exactly when `busy = 0` (10_state.md R33). -/
  busyPhase : s.host.busy = true ↔ s.phase ≠ .idle
  /-- The idle invariant (R54). -/
  idleClean : s.phase = .idle → s.eng = Engine.zero ∧ s.work = Work.zero ∧ s.ent = Sync.zero
  /-- At most one of `busy`, `done`, `error` is 1 (R48). -/
  oneFlag : ¬ (s.host.busy = true ∧ s.host.done = true) ∧ ¬ (s.host.busy = true ∧ s.host.error = true) ∧
    ¬ (s.host.done = true ∧ s.host.error = true)
  /-- `ERR` is 0x00 when `error = 0` and a code of the table when `error = 1` (R42; 60_exceptions.md R201). -/
  errCode : (s.host.error = false → s.host.err = 0) ∧ (s.host.error = true → ∃ k, s.host.err = errorCode k)
  /-- A request is outstanding or an answer held only in ENT_E and ENT_N (R50; 43_entropy_sync.md R196). -/
  entPhase : s.ent.state ≠ .idle → s.phase = .entE ∨ s.phase = .entN
  /-- Without an instance the counter and the strength are 0 (R30, R32), and so are `V` and `C` but for an INSTANTIATE about
  to complete. -/
  noInstance : s.drbg.instantiated = false → s.drbg.reseedCounter = 0 ∧ s.drbg.strength = 0 ∧
    ((s.drbg.V = 0 ∧ s.drbg.C = 0) ∨ ((s.phase = .seedC ∨ s.phase = .complete) ∧ s.work.curOp = 0x01#8))
  /-- With an instance the strength is 1 to 256 (R32) and the counter 1 to 2^48 + 1 (R30; 42_drbg_commands.md R166). -/
  hasInstance : s.drbg.instantiated = true →
    1 ≤ s.drbg.strength.toNat ∧ s.drbg.strength.toNat ≤ Config.maxStrength ∧
      1 ≤ s.drbg.reseedCounter.toNat ∧ s.drbg.reseedCounter.toNat ≤ Config.reseedInterval + 1
  /-- INSTANTIATE past its checks (42_drbg_commands.md R153, R168). -/
  instantiating : s.work.curOp = 0x01#8 →
    s.phase = .entE ∨ s.phase = .entN ∨ s.phase = .seedV ∨ s.phase = .seedC ∨ s.phase = .complete →
    s.drbg.instantiated = false ∧ 1 ≤ s.work.curImm.toNat ∧ s.work.curImm.toNat ≤ Config.maxStrength
  /-- RESEED past its checks (R154, R168). -/
  reseeding : s.work.curOp = 0x02#8 →
    s.phase = .entE ∨ s.phase = .seedV ∨ s.phase = .seedC ∨ s.phase = .complete → s.drbg.instantiated = true
  /-- GENERATE past its checks (R155, R168). -/
  generating : s.work.curOp = 0x03#8 →
    s.phase = .addin ∨ s.phase = .hashgen ∨ s.phase = .update ∨ s.phase = .complete →
    s.drbg.instantiated = true ∧ s.drbg.reseedCounter.toNat ≤ Config.reseedInterval ∧
      1 ≤ s.work.curImm.toNat ∧ s.work.curImm.toNat ≤ Config.maxRequestBits
  /-- Which command stands behind a phase (R168). -/
  phaseOp :
    (s.phase = .entE ∨ s.phase = .seedV ∨ s.phase = .seedC → s.work.curOp = 0x01#8 ∨ s.work.curOp = 0x02#8) ∧
    (s.phase = .entN → s.work.curOp = 0x01#8) ∧
    (s.phase = .addin ∨ s.phase = .hashgen ∨ s.phase = .update → s.work.curOp = 0x03#8) ∧
    (s.phase = .complete → s.work.curOp = 0x01#8 ∨ s.work.curOp = 0x02#8 ∨ s.work.curOp = 0x03#8 ∨
      s.work.curOp = 0x04#8)
  /-- The returned bits are as many as were asked for (R163). -/
  returned : s.phase = .update ∨ (s.phase = .complete ∧ s.work.curOp = 0x03#8) →
    s.work.ret.length = s.work.curImm.toNat
  /-- The OUT buffer holds `ceil(out_len / 32)` words, at most 2^19 bits, and the read index is within it (10_state.md R39,
  R46). -/
  outBuffer : s.host.outWords.length = ceilDiv s.host.outLen.toNat 32 ∧
    s.host.outRd.toNat ≤ ceilDiv s.host.outLen.toNat 32 ∧ s.host.outLen.toNat ≤ Config.maxRequestBits
  /-- Only outside agents cause events. -/
  inputs : ∀ i ∈ s.env.inputs, i.event.external = true

end Sys2Proof.Machine
end

