-- ==== Sys2Proof/Certificates/Slice0/Obligations.lean ====
section
/-! DEFINITION. The statements, from the numbered rules of spec/. A statement whose docstring says "the model's choice" rests on
the log entry it names and not on a rule. -/

open Sys2Proof Sys2Proof.Machine

/-! ### Encoding -/

/-- No bit of an encoding is dropped: for every instruction and every value of its fields, decoding what the encoder writes
gives it back (30_encoding.md R81, R82, R95). -/
def Obligations.DecodeOfEncodeIsIdentity : Prop :=
  ∀ i : Instr, decode (encode i) = .ok i

/-- Every command word has one meaning: a word that decodes to a command is the word the encoder writes for it (R81 to
R83). -/
def Obligations.EncodeOfDecodedCommandIsWord : Prop :=
  ∀ (w : Word) (i : Instr), decodeCommand w = .ok i → encode i = .command w

/-- Words written out from the opcode map and the micro-operation codes decode to the instructions they stand for (R82,
R95). -/
def Obligations.SampleWordsDecode : Prop :=
  decodeCommand 0x01000100#32 = .ok (.instantiate 256#24) ∧
  decodeCommand 0x02000000#32 = .ok .reseed ∧
  decodeCommand 0x03080000#32 = .ok (.generate 0x080000#24) ∧
  decodeCommand 0x04000000#32 = .ok .uninstantiate ∧
  decodeUop 0b0001#4 .none = .ok .shaInit ∧
  decodeUop 0b1000#4 { UopArgs.none with num := 440 } = .ok (.dfDerive [] 440) ∧
  decodeUop 0b1001#4 { UopArgs.none with num := 256 } = .ok (.hgHashgen 256) ∧
  decodeUop 0b1110#4 .none = .ok .entFail

/-! ### A step -/

/-- A host write of `CMD` whose word decodes to a command: the step is `exec` of the command, in the state with the event
taken off the list (R80; the event list is the model's choice, log 1). -/
def Obligations.StepRunsDecodedCommand : Prop :=
  ∀ (s : State) (k : Nat) (w : Word) (rest : List Input) (i : Instr),
    s.env.inputs = ⟨k, .hostWrite 0 w⟩ :: rest → decodeCommand w = .ok i →
    step s = exec i (withInputs rest s)

/-- A micro-operation on the bus: the step is `exec` of it, after which the core goes on until the next event lands (R95;
log 1, 2). -/
def Obligations.StepRunsDecodedMicroOp : Prop :=
  ∀ (s : State) (k : Nat) (code : BitVec 4) (args : UopArgs) (rest : List Input) (i : Instr),
    s.env.inputs = ⟨k, .uop code args⟩ :: rest → decodeUop code args = .ok i →
    step s = (match exec i (withInputs rest s) with
      | .next t => .next (goOn t)
      | .fault r => .fault r
      | .refused r => .refused r)

/-- The unused micro-operation codes are refused by name (R95; 93 U14). -/
def Obligations.UnusedCodesAreRefused : Prop :=
  ∀ (s : State) (k : Nat) (code : BitVec 4) (args : UopArgs) (rest : List Input),
    s.env.inputs = ⟨k, .uop code args⟩ :: rest →
    code = 0x7#4 ∨ code = 0xA#4 ∨ code = 0xB#4 ∨ code = 0xF#4 →
    step s = .refused (.unusedMicroOp code)

/-! ### The SHA-256 engine -/

/-- U.NOP, code 0x0: "it reads nothing and writes nothing" (40_sha256_engine.md R132). -/
def Obligations.UNopChangesNothing : Prop :=
  (∀ args : UopArgs, decodeUop 0x0#4 args = .ok .uNop) ∧ ∀ s : State, exec .uNop s = .next s

/-- The six word functions: their formulas over `ROTR`, `SHR` and the bitwise operations, and the corner cases the rules
give (R111 to R116). -/
def Obligations.WordFunctionRules : Prop :=
  (∀ x : Word, sigma0 x = x.rotateRight 7 ^^^ x.rotateRight 18 ^^^ (x >>> 3)) ∧
  (∀ x : Word, sigma1 x = x.rotateRight 17 ^^^ x.rotateRight 19 ^^^ (x >>> 10)) ∧
  (∀ x : Word, bigSigma0 x = x.rotateRight 2 ^^^ x.rotateRight 13 ^^^ x.rotateRight 22) ∧
  (∀ x : Word, bigSigma1 x = x.rotateRight 6 ^^^ x.rotateRight 11 ^^^ x.rotateRight 25) ∧
  (∀ y z : Word, ch 0 y z = z ∧ ch 0xFFFFFFFF y z = y) ∧
  (∀ (x y z : Word) (j : Nat), j < 32 →
    (ch x y z).getLsbD j = if x.getLsbD j then y.getLsbD j else z.getLsbD j) ∧
  (∀ x z : Word, maj x x z = x ∧ maj 0 0 z = 0 ∧ maj 0xFFFFFFFF 0 z = z) ∧
  (∀ (x y z : Word) (j : Nat), j < 32 →
    (maj x y z).getLsbD j =
      decide (2 ≤ (x.getLsbD j).toNat + (y.getLsbD j).toNat + (z.getLsbD j).toNat))

/-- The constant tables (R117, R118): `K[i]` is the first 32 bits of the fractional part of the cube root of the `i`-th prime,
`IV[i]` of its square root, the primes counted from 2 to 311. -/
def Obligations.ConstantTablesAreRoots : Prop :=
  let primes := (List.range 312).filter fun n => 2 ≤ n ∧ ∀ d ∈ List.range n, 2 ≤ d → n % d ≠ 0
  primes.length = 64 ∧ tableK.length = 64 ∧
  (∀ i : Nat, i < 64 → ∃ n : Nat, n ^ 3 ≤ primes.getD i 0 * 2 ^ 96 ∧ primes.getD i 0 * 2 ^ 96 < (n + 1) ^ 3 ∧
    (tableK.getD i 0).toNat = n % 2 ^ 32) ∧
  (∀ i : Nat, i < 8 → ∃ n : Nat, n ^ 2 ≤ primes.getD i 0 * 2 ^ 64 ∧ primes.getD i 0 * 2 ^ 64 < (n + 1) ^ 2 ∧
    (initialDigest.getD i 0).toNat = n % 2 ^ 32)

/-- SHA.INIT, code 0x1, in any engine state (R120): `H <- IV`, `fill`, `mlen`, `blkbuf` to 0, and nothing else. -/
def Obligations.ShaInitEffect : Prop :=
  (∀ args : UopArgs, decodeUop 0x1#4 args = .ok .shaInit) ∧
  ∀ s : State, exec .shaInit s = .next { s with
    eng := { s.eng with
      H := #v[0x6a09e667, 0xbb67ae85, 0x3c6ef372, 0xa54ff53a, 0x510e527f, 0x9b05688c, 0x1f83d9ab, 0x5be0cd19]
      fill := 0, mlen := 0, blkbuf := 0 } }

/-- SHA.LOAD, code 0x4 (R121): the sixteen words of the block in `W[0..15]`, `W[16..63]` as they are, `a..h` from `H[0..7]`, `t` to 0,
and nothing else. -/
def Obligations.ShaLoadEffect : Prop :=
  (∀ args : UopArgs, decodeUop 0x4#4 args = .ok (.shaLoad args.block)) ∧
  ∀ (s : State) (B : Block), ∃ W : Vector Word 64,
    exec (.shaLoad B) s = .next { s with
      eng := { s.eng with
        W := W, t := 0
        a := s.eng.H[0], b := s.eng.H[1], c := s.eng.H[2], d := s.eng.H[3]
        e := s.eng.H[4], f := s.eng.H[5], g := s.eng.H[6], h := s.eng.H[7] } } ∧
    (∀ i : Nat, i < 16 → ∀ j : Nat, j < 32 → (W.getD i 0).getMsbD j = B.getMsbD (32 * i + j)) ∧
    (∀ i : Nat, 16 ≤ i → i < 64 → W.getD i 0 = s.eng.W.getD i 0)

/-- SHA.ROUND (R122): for `t <= 63` the pseudocode, every right-hand side read before the round, and nothing else; with the
64 rounds done it is refused. -/
def Obligations.ShaRoundEffect : Prop :=
  ∀ s : State,
    let x := s.eng
    let n := x.t.toNat
    let W := if 16 ≤ n then
        x.W.setIfInBounds n
          (sigma1 (x.W.getD (n - 2) 0) + x.W.getD (n - 7) 0 + sigma0 (x.W.getD (n - 15) 0) + x.W.getD (n - 16) 0)
      else x.W
    let T1 := x.h + bigSigma1 x.e + ch x.e x.f x.g + tableK.getD n 0 + W.getD n 0
    let T2 := bigSigma0 x.a + maj x.a x.b x.c
    (n ≤ 63 → exec .shaRound s = .next { s with
      eng := { x with
        W := W, h := x.g, g := x.f, f := x.e, e := x.d + T1, d := x.c, c := x.b, b := x.a, a := T1 + T2
        t := x.t + 1 } }) ∧
    (64 ≤ n → exec .shaRound s = .refused .roundAfterLast)

/-- SHA.FOLD, code 0x6 (R123): with `t = 64` the eight additions modulo 2^32, `a..h`, `W`, `t` and everything else kept; with any other
`t` it is refused (93_implementation_defined.md U15, not R123; log 11). -/
def Obligations.ShaFoldEffect : Prop :=
  (∀ args : UopArgs, decodeUop 0x6#4 args = .ok .shaFold) ∧
  ∀ s : State,
    let x := s.eng
    (x.t.toNat = 64 → exec .shaFold s = .next { s with
      eng := { x with
        H := #v[x.H[0] + x.a, x.H[1] + x.b, x.H[2] + x.c, x.H[3] + x.d,
          x.H[4] + x.e, x.H[5] + x.f, x.H[6] + x.g, x.H[7] + x.h] } }) ∧
    (x.t.toNat ≠ 64 → exec .shaFold s = .refused .foldBeforeLastRound)

/-- SHA.ABSORB (R124) with its precondition: it completes, writes engine registers only, adds `len(s)` to `mlen`, moves `fill`
on modulo 512, changes nothing for the empty string; and absorbing `s` then `u` equals absorbing `s ‖ u`. -/
def Obligations.ShaAbsorbEffect : Prop :=
  ∀ (s : State) (p u : BitString),
    s.eng.fill.toNat < 512 → s.eng.mlen.toNat + (p ++ u).length < 2 ^ 64 →
    (∃ e : Engine, exec (.shaAbsorb p) s = .next { s with eng := e } ∧
      e.mlen.toNat = s.eng.mlen.toNat + p.length ∧
      e.fill.toNat = (s.eng.fill.toNat + p.length) % 512 ∧
      exec (.shaAbsorb u) { s with eng := e } = exec (.shaAbsorb (p ++ u)) s) ∧
    exec (.shaAbsorb []) s = .next s

/-- SHA.ABSORB of one bit (R124): the bit goes to block position `fill` and the counters move on; the bit that fills the block
has it processed, `H <- Compress(H, blkbuf)`, and the buffer emptied. Longer strings are their bits one after another
(`ShaAbsorbEffect`). -/
def Obligations.ShaAbsorbOneBitEffect : Prop :=
  ∀ (s : State) (b : Bool), s.eng.fill.toNat < 512 → s.eng.mlen.toNat + 1 < 2 ^ 64 →
    ∃ B : Block, (∀ j : Nat, j < 512 → B.getMsbD j = if j = s.eng.fill.toNat then b else s.eng.blkbuf.getMsbD j) ∧
      (s.eng.fill.toNat < 511 → exec (.shaAbsorb [b]) s = .next { s with
        eng := { s.eng with blkbuf := B, fill := s.eng.fill + 1, mlen := s.eng.mlen + 1 } }) ∧
      (s.eng.fill.toNat = 511 → ∃ e : Engine, exec (.shaAbsorb [b]) s = .next { s with eng := e } ∧
        e.H = compress s.eng.H B ∧ e.t = 64 ∧ e.blkbuf = 0 ∧ e.fill = 0 ∧ e.mlen = s.eng.mlen + 1)

/-- A SHA.ABSORB that would take the message to 2^64 bits or more is refused (R124, R130; 93 U2). -/
def Obligations.ShaAbsorbRefusesLongMessage : Prop :=
  ∀ (s : State) (p : BitString),
    2 ^ 64 ≤ s.eng.mlen.toNat + p.length → exec (.shaAbsorb p) s = .refused .messageTooLong

/-- SHA.FINAL completes in every state and returns the digest `str32(H[0]) ‖ … ‖ str32(H[7])` of the `H` it leaves (R125; the
register `ret` is the model's choice, log 7); the padding bits do not count in `mlen`; only the engine and `ret` are
written. That `mlen` itself is left as it was is read from the pseudocode (log 15). -/
def Obligations.ShaFinalEffect : Prop :=
  ∀ s : State, ∃ e : Engine,
    exec .shaFinal s = .next { s with
      eng := e
      work := { s.work with
        ret := toBits e.H[0] ++ toBits e.H[1] ++ toBits e.H[2] ++ toBits e.H[3] ++
          toBits e.H[4] ++ toBits e.H[5] ++ toBits e.H[6] ++ toBits e.H[7] } } ∧
    e.mlen = s.eng.mlen ∧ e.t = 64

/-- `SHA.INIT ; SHA.ABSORB(M) ; SHA.FINAL`, from any state whatever an earlier hash left, returns `Sha256(M)`, the digest of
`fold_blocks(IV, blocks(Pad(M)))`, for every message below 2^64 bits (R110, R126, R128). -/
def Obligations.EngineComputesSha256 : Prop :=
  ∀ (s : State) (M : BitString), M.length < 2 ^ 64 → ∃ e : Engine,
    execAll [.shaInit, .shaAbsorb M, .shaFinal] s = .next { s with
      eng := e
      work := { s.work with ret := toBits (digestOf (foldBlocks initialDigest (blocks (pad M)))) } }

/-- `SHA.LOAD(B) ; 64 × SHA.ROUND ; SHA.FOLD` started with `H = S` completes and ends with `H = Compress(S, B)` (R128). -/
def Obligations.EngineComputesCompress : Prop :=
  ∀ (s : State) (B : Block), ∃ e : Engine,
    execAll (.shaLoad B :: (List.replicate 64 .shaRound ++ [.shaFold])) s = .next { s with eng := e } ∧
    e.H = compress s.eng.H B ∧ e.t = 64 ∧
    e.blkbuf = s.eng.blkbuf ∧ e.fill = s.eng.fill ∧ e.mlen = s.eng.mlen

/-- A sixteen-word window computes the same as the 64 schedule entries (R131). -/
def Obligations.WindowEqualsSchedule : Prop :=
  ∀ (S : Vector Word 8) (B : Block), compressWindow S B = compress S B

/-! ### The derivation unit and Hashgen -/

/-- DF.DERIVE for a legal length (41_hash_df.md R141): it completes, the result is `leftmost(df_acc, requested_bits)` with
`df_acc` the concatenation of `Sha256(bits_8(i) ‖ bits_32(requested_bits) ‖ input)` for `i = 1..n`, `df_ctr` ends at `n`, and only
the engine, the derivation unit and `ret` are written (`ret` is the model's choice, log 7). -/
def Obligations.DfDeriveEffect : Prop :=
  ∀ (s : State) (input : BitString) (bits : BitVec 32),
    1 ≤ bits.toNat → bits.toNat ≤ 65280 → 40 + input.length < 2 ^ 64 →
    let n := (bits.toNat + 255) / 256
    let acc := (List.range n).flatMap fun i =>
      toBits (sha256 (toBits (BitVec.ofNat 8 (i + 1)) ++ toBits bits ++ input))
    ∃ e : Engine, exec (.dfDerive input bits) s = .next { s with
      eng := e
      work := { s.work with
        dfReq := bits, dfCtr := BitVec.ofNat 8 n, dfAcc := acc, ret := acc.take bits.toNat } }

/-- `InvalidLength` for a length of 0 or above 65280, before any hashing: no digest is made, and the DRBG registers, the buffers
and the outside world keep their values (R142). That DF.DERIVE issued outside a command takes the error entry of R206 is the
model's choice, log 9. -/
def Obligations.DfDeriveInvalidLength : Prop :=
  ∀ (s : State) (input : BitString) (bits : BitVec 32),
    bits.toNat = 0 ∨ 65280 < bits.toNat →
    exec (.dfDerive input bits) s = .next (idleState s.drbg
      { s.host with err := 0x07, error := true, done := false, busy := false } s.env)

/-- What holds of `derive` and what does not (R144): (a) the result has exactly the requested length, for every legal length;
(b) ENHD's prefix property is false, by the spec's witness "abc", and the weaker statement holds: the result is a prefix of the
concatenation of the digests made for that length. -/
def Obligations.DeriveLengthAndPrefix : Prop :=
  (∀ (input : BitString) (bits : BitVec 32), 1 ≤ bits.toNat → bits.toNat ≤ 65280 →
    (derive input bits).length = bits.toNat ∧
    derive input bits <+: (List.range ((bits.toNat + 255) / 256)).flatMap fun i =>
      toBits (sha256 (toBits (BitVec.ofNat 8 (i + 1)) ++ toBits bits ++ input))) ∧
  toBits 0x8644b538#32 <+: derive (toBits 0x616263#24) 256 ∧
  toBits 0x602e88b2#32 <+: derive (toBits 0x616263#24) 512 ∧
  ¬ derive (toBits 0x616263#24) 256 <+: derive (toBits 0x616263#24) 512

/-- HG.HASHGEN (42_drbg_commands.md R163). Up to 2^19 bits it completes with the first `r` bits of
`Sha256(V) ‖ Sha256(V + 1 mod 2^440) ‖ …`, `m` blocks, `hg_i` ending at `m`; `V` and everything but the engine, `data`, `hg_i` and
`ret` keep their values (70_reset_and_hazards.md R239; `ret` is the model's choice, log 7, and so is the length 0, log 10). Beyond
2^19 bits, outside the operand range, it completes all the same, with the same `data` and frame, `hg_i` at `m` while 12 bits hold
it, and `r` free bits in `ret` (the model's choice, log 10: it holds of every free value). -/
def Obligations.HgHashgenEffect : Prop :=
  ∀ (s : State) (bits : BitVec 32),
    let m := (bits.toNat + 255) / 256
    (bits.toNat ≤ 2 ^ 19 → ∃ e : Engine, exec (.hgHashgen bits) s = .next { s with
      eng := e
      work := { s.work with
        data := s.drbg.V + BitVec.ofNat 440 m
        hgI := BitVec.ofNat 12 m
        ret := ((List.range m).flatMap fun i =>
          toBits (sha256 (toBits (BitVec.ofNat 440 (s.drbg.V.toNat + i))))).take bits.toNat } }) ∧
    (2 ^ 19 < bits.toNat → ∃ (e : Engine) (count : BitVec 12) (free : BitString),
      exec (.hgHashgen bits) s = .next { s with
        eng := e
        work := { s.work with data := s.drbg.V + BitVec.ofNat 440 m, hgI := count, ret := free }
        env := { s.env with draws := s.env.draws + 1 } } ∧
      free.length = bits.toNat ∧ (m < 2 ^ 12 → count.toNat = m))

/-! ### The entropy-input synchronizer -/

/-- ENT.REQUEST with `ent_state = E_IDLE` (43_entropy_sync.md R192): the three writes and nothing else, and `ENT_WAIT` reads 1;
with a request not yet answered and taken it is refused (93 U15). -/
def Obligations.EntRequestEffect : Prop :=
  ∀ (s : State) (minBits : BitVec 32),
    (s.ent.state = .idle → ∃ t, exec (.entRequest minBits) s = .next t ∧
      t = { s with ent := { s.ent with min := minBits, buf := [], state := .req } } ∧
      (statusWord t).getLsbD 5 = true) ∧
    (s.ent.state ≠ .idle → exec (.entRequest minBits) s = .refused .requestOutstanding)

/-- ENT.DELIVER (R193) of a string up to `ENT_MAX_BITS`: with a request outstanding the whole string is held and `ENT_WAIT` reads
0; otherwise the delivery leaves no trace. A longer one is no step (R197). -/
def Obligations.EntDeliverEffect : Prop :=
  ∀ (s : State) (p : BitString),
    (p.length ≤ 2 ^ 35 → s.ent.state = .req → ∃ t, exec (.entDeliver p) s = .next t ∧
      t = { s with ent := { s.ent with buf := p, len := BitVec.ofNat 64 p.length, state := .ready } } ∧
      (statusWord t).getLsbD 5 = false) ∧
    (p.length ≤ 2 ^ 35 → s.ent.state ≠ .req → exec (.entDeliver p) s = .next s) ∧
    (2 ^ 35 < p.length → exec (.entDeliver p) s = .refused .deliveryTooLong)

/-- ENT.FAIL (R195): with a request outstanding `ent_state <- E_FAIL` and `ENT_WAIT` reads 0; otherwise nothing. -/
def Obligations.EntFailEffect : Prop :=
  ∀ s : State,
    (s.ent.state = .req → ∃ t, exec .entFail s = .next t ∧
      t = { s with ent := { s.ent with state := .fail } } ∧ (statusWord t).getLsbD 5 = false) ∧
    (s.ent.state ≠ .req → exec .entFail s = .next s)

/-- An answer that lands with no request outstanding is dropped: the step is as though only the core had gone on (R193, R195,
R216; the turns are the model's, log 2). -/
def Obligations.UnsolicitedAnswerIsDropped : Prop :=
  ∀ (s : State) (k : Nat) (code : BitVec 4) (args : UopArgs) (rest : List Input),
    s.env.inputs = ⟨k, .uop code args⟩ :: rest → code = 0xD#4 ∨ code = 0xE#4 →
    args.bits.length ≤ 2 ^ 35 → s.ent.state ≠ .req →
    step s = .next (goOn (withInputs rest s))

/-- What lifts the hold without entropy: a failure, or a delivery shorter than `min_bits`, ends the waiting command with
`InsufficientEntropy`, the DRBG registers as they were and every working register scrubbed (R194; 60_exceptions.md R205, R206).
`min_bits` is read from `ent_min` (log 16). -/
def Obligations.ShortOrFailedAnswerEndsCommand : Prop :=
  ∀ (s : State) (k : Nat) (code : BitVec 4) (args : UopArgs) (rest : List Input),
    s.env.inputs = ⟨k, .uop code args⟩ :: rest →
    s.phase = .entE ∨ s.phase = .entN → s.ent.state = .req → Undisturbed (withInputs rest s) →
    (code = 0xD#4 ∧ args.bits.length ≤ 2 ^ 35 ∧ args.bits.length < s.ent.min.toNat) ∨ code = 0xE#4 →
    step s = .next (idleState s.drbg
      { s.host with err := 0x04, error := true, done := false, busy := false } { s.env with inputs := rest })

/-- No timeout: a core that waits for an answer that neither the source nor any event brings stays as it is, for ever
(R198). -/
def Obligations.WaitingCoreHasNoStepOfItsOwn : Prop :=
  ∀ s : State, s.phase = .entE ∨ s.phase = .entN → s.ent.state = .req →
    s.env.source = [] → s.env.inputs = [] → step s = .next s

/-! ### The commands -/

/-- INSTANTIATE (42_drbg_commands.md R153, R160) with a legal strength and operand, when the source answers the two requests
with at least `s` and `NONCE_MIN_BITS(s)` bits: `V`, `C`, the counter at 1, the strength, `instantiated`, `DONE`, the working
registers scrubbed, and nothing else. It holds for every function `NONCE_MIN_BITS` (log 4). -/
def Obligations.InstantiateCompletes : Prop :=
  ∀ (s : State) (n : BitVec 24) (e d : BitString) (rest : List Answer),
    s.host.busy = false → Undisturbed s → s.ent.state = .idle →
    s.drbg.instantiated = false → 1 ≤ n.toNat → n.toNat ≤ 256 →
    s.host.inLen.toNat ≤ 2 ^ 35 → s.host.inWords.length = (s.host.inLen.toNat + 31) / 32 →
    s.env.source = .deliver e :: .deliver d :: rest →
    n.toNat ≤ e.length → e.length ≤ 2 ^ 35 →
    (Config.nonceMinBits n.toNat).toNat ≤ d.length → d.length ≤ 2 ^ 35 →
    let p := (wordsBits s.host.inWords).take s.host.inLen.toNat
    let V : Seed := ofBits 440 (derive (e ++ d ++ p) 440)
    let C : Seed := ofBits 440 (derive (toBits 0x00#8 ++ toBits V) 440)
    exec (.instantiate n) s = .next (idleState
      { V := V, C := C, reseedCounter := 1, instantiated := true, strength := BitVec.ofNat 9 n.toNat }
      doneHost { s.env with source := rest })

/-- INSTANTIATE with no answer at hand latches the command and its operand, asks for `s` bits and holds: `BUSY` and `ENT_WAIT`
read 1, the buffers are consumed, and nothing else has changed (R152, R153; 43_entropy_sync.md R192, R194). -/
def Obligations.InstantiateHolds : Prop :=
  ∀ (s : State) (n : BitVec 24),
    s.host.busy = false → Undisturbed s → s.ent.state = .idle →
    s.drbg.instantiated = false → 1 ≤ n.toNat → n.toNat ≤ 256 →
    s.host.inLen.toNat ≤ 2 ^ 35 → s.host.inWords.length = (s.host.inLen.toNat + 31) / 32 →
    s.env.source = [] →
    let t := { s with
      phase := .entE
      work := { s.work with curOp := 0x01, curImm := n, opnd := inOperand s }
      ent := { s.ent with state := .req, min := BitVec.ofNat 32 n.toNat, buf := [] }
      host := { HostIf.zero with busy := true } }
    exec (.instantiate n) s = .next t ∧ statusWord t = 0x00000021

/-- The checks of INSTANTIATE in their order (R153, R165; 60_exceptions.md R202, R203, R212, R213): the first that fails is the
error, and nothing of the DRBG registers changes. -/
def Obligations.InstantiateErrors : Prop :=
  ∀ (s : State) (n : BitVec 24), s.host.busy = false → Undisturbed s →
    (s.drbg.instantiated = true → exec (.instantiate n) s = .next (endedInError 0x12 s)) ∧
    (s.drbg.instantiated = false → n.toNat = 0 ∨ 256 < n.toNat →
      exec (.instantiate n) s = .next (endedInError 0x01 s)) ∧
    (s.drbg.instantiated = false → 1 ≤ n.toNat → n.toNat ≤ 256 → 2 ^ 35 < s.host.inLen.toNat →
      exec (.instantiate n) s = .next (endedInError 0x02 s)) ∧
    (s.drbg.instantiated = false → 1 ≤ n.toNat → n.toNat ≤ 256 → s.host.inLen.toNat ≤ 2 ^ 35 →
      s.host.inWords.length ≠ (s.host.inLen.toNat + 31) / 32 →
      exec (.instantiate n) s = .next (endedInError 0x13 s))

/-- INSTANTIATE whose entropy input or nonce fails or falls short (R153; 43_entropy_sync.md R194; 60_exceptions.md R205): after a
failed or short entropy input no nonce is asked for, so one answer is taken, whatever follows it. -/
def Obligations.InstantiateInsufficientEntropy : Prop :=
  ∀ (s : State) (n : BitVec 24),
    s.host.busy = false → Undisturbed s → s.ent.state = .idle →
    s.drbg.instantiated = false → 1 ≤ n.toNat → n.toNat ≤ 256 →
    s.host.inLen.toNat ≤ 2 ^ 35 → s.host.inWords.length = (s.host.inLen.toNat + 31) / 32 →
    (∀ (a : Answer) (rest : List Answer), s.env.source = a :: rest →
      a = .fail ∨ (∃ e, a = .deliver e ∧ e.length < n.toNat) →
      exec (.instantiate n) s = .next (endedInError 0x04 { s with env := { s.env with source := rest } })) ∧
    (∀ (e : BitString) (b : Answer) (rest : List Answer), s.env.source = .deliver e :: b :: rest →
      n.toNat ≤ e.length → e.length ≤ 2 ^ 35 →
      b = .fail ∨ (∃ d, b = .deliver d ∧ d.length ≤ 2 ^ 35 ∧ d.length < (Config.nonceMinBits n.toNat).toNat) →
      exec (.instantiate n) s = .next (endedInError 0x04 { s with env := { s.env with source := rest } }))

/-- RESEED (R154, R160) when the source answers with at least `strength` bits: `V` from the old `V`, the entropy input and the
additional input, `C` from the new `V`, the counter at 1, `DONE`, the working registers scrubbed, and nothing else. -/
def Obligations.ReseedCompletes : Prop :=
  ∀ (s : State) (e : BitString) (rest : List Answer),
    s.host.busy = false → Undisturbed s → s.ent.state = .idle → s.drbg.instantiated = true →
    s.host.inLen.toNat ≤ 2 ^ 35 → s.host.inWords.length = (s.host.inLen.toNat + 31) / 32 →
    s.env.source = .deliver e :: rest → s.drbg.strength.toNat ≤ e.length → e.length ≤ 2 ^ 35 →
    let a := (wordsBits s.host.inWords).take s.host.inLen.toNat
    let V : Seed := ofBits 440 (derive (toBits 0x01#8 ++ toBits s.drbg.V ++ e ++ a) 440)
    let C : Seed := ofBits 440 (derive (toBits 0x00#8 ++ toBits V) 440)
    exec .reseed s = .next (idleState { s.drbg with V := V, C := C, reseedCounter := 1 }
      doneHost { s.env with source := rest })

/-- A command that waits, and a delivery of at least `min_bits` bits that lands (R153, R154, R160; 43_entropy_sync.md R192, R194;
the turns are the model's choice, log 2, and `min_bits` is read from `ent_min`, log 16). RESEED is completed with it as the entropy
input. INSTANTIATE keeps it as the entropy input and asks for the nonce; the delivery that answers that completes it. The premise
on the two lengths together, R153's last check, holds of every INSTANTIATE that has come so far. -/
def Obligations.DeliveryResumesCommand : Prop :=
  ∀ (s : State) (k : Nat) (args : UopArgs) (rest : List Input),
    s.env.inputs = ⟨k, .uop 0xD args⟩ :: rest → Undisturbed (withInputs rest s) →
    s.ent.state = .req → s.ent.min.toNat ≤ args.bits.length → args.bits.length ≤ 2 ^ 35 →
    s.work.opnd.len.toNat ≤ 2 ^ 35 →
    (s.phase = .entE → s.work.curOp = 0x02 →
      let V : Seed := ofBits 440
        (derive (toBits 0x01#8 ++ toBits s.drbg.V ++ args.bits ++ s.work.opnd.string) 440)
      let C : Seed := ofBits 440 (derive (toBits 0x00#8 ++ toBits V) 440)
      step s = .next (idleState { s.drbg with V := V, C := C, reseedCounter := 1 }
        { s.host with done := true, busy := false } { s.env with inputs := rest })) ∧
    (s.phase = .entE → s.work.curOp = 0x01 → s.env.source = [] →
      step s = .next { s with
        phase := .entN
        work := { s.work with entE := args.bits }
        ent := { state := .req, min := Config.nonceMinBits s.work.curImm.toNat, buf := [], len := 0 }
        env := { s.env with inputs := rest } }) ∧
    (s.phase = .entN → s.work.curOp = 0x01 → s.work.entE.length ≤ 2 ^ 35 →
      s.work.curImm.toNat ≤ s.work.entE.length + args.bits.length →
      let V : Seed := ofBits 440 (derive (s.work.entE ++ args.bits ++ s.work.opnd.string) 440)
      let C : Seed := ofBits 440 (derive (toBits 0x00#8 ++ toBits V) 440)
      step s = .next (idleState
        { V := V, C := C, reseedCounter := 1, instantiated := true, strength := BitVec.ofNat 9 s.work.curImm.toNat }
        { s.host with done := true, busy := false } { s.env with inputs := rest }))

/-- The checks of RESEED in their order, and a failed or short answer (R154, R165; 60_exceptions.md R204, R205, R211, R213). -/
def Obligations.ReseedErrors : Prop :=
  ∀ s : State, s.host.busy = false → Undisturbed s →
    (s.drbg.instantiated = false → exec .reseed s = .next (endedInError 0x11 s)) ∧
    (s.drbg.instantiated = true → 2 ^ 35 < s.host.inLen.toNat →
      exec .reseed s = .next (endedInError 0x03 s)) ∧
    (s.drbg.instantiated = true → s.host.inLen.toNat ≤ 2 ^ 35 →
      s.host.inWords.length ≠ (s.host.inLen.toNat + 31) / 32 →
      exec .reseed s = .next (endedInError 0x13 s)) ∧
    (∀ (a : Answer) (rest : List Answer), s.drbg.instantiated = true → s.host.inLen.toNat ≤ 2 ^ 35 →
      s.host.inWords.length = (s.host.inLen.toNat + 31) / 32 → s.ent.state = .idle →
      s.env.source = a :: rest →
      a = .fail ∨ (∃ e, a = .deliver e ∧ e.length ≤ 2 ^ 35 ∧ e.length < s.drbg.strength.toNat) →
      exec .reseed s =
        .next (endedInError 0x04 { s with env := { s.env with source := rest } }))

/-- GENERATE (R155, R161 to R164) on an instance below the reseed threshold: the additional-input step if there is one, the
returned bits from the `V` it leaves, the update with the counter before its increment, `C` as it was, the bits in the OUT
buffer, `DONE`, the working registers scrubbed, and nothing else. -/
def Obligations.GenerateCompletes : Prop :=
  ∀ (s : State) (r : BitVec 24),
    s.host.busy = false → Undisturbed s → s.drbg.instantiated = true →
    1 ≤ r.toNat → r.toNat ≤ 2 ^ 19 → s.drbg.reseedCounter.toNat ≤ 2 ^ 48 →
    s.host.inLen.toNat ≤ 2 ^ 35 → s.host.inWords.length = (s.host.inLen.toNat + 31) / 32 →
    let a := (wordsBits s.host.inWords).take s.host.inLen.toNat
    let V := s.drbg.V
    let V₁ : Seed := if a.length = 0 then V
      else BitVec.ofNat 440 (V.toNat + (sha256 (toBits 0x02#8 ++ toBits V ++ a)).toNat)
    let h := sha256 (toBits 0x03#8 ++ toBits V₁)
    let V₂ : Seed := BitVec.ofNat 440 (V₁.toNat + h.toNat + s.drbg.C.toNat + s.drbg.reseedCounter.toNat)
    exec (.generate r) s = .next (idleState
      { s.drbg with V := V₂, reseedCounter := s.drbg.reseedCounter + 1 }
      { doneHost with outLen := BitVec.ofNat 20 r.toNat, outWords := pack32 (hashgen V₁ r.toNat) } s.env)

/-- The checks of GENERATE in their order (R155, R165; 60_exceptions.md R204, R207 to R209, R211, R213, R214). -/
def Obligations.GenerateErrors : Prop :=
  ∀ (s : State) (r : BitVec 24), s.host.busy = false → Undisturbed s →
    (s.drbg.instantiated = false → exec (.generate r) s = .next (endedInError 0x11 s)) ∧
    (s.drbg.instantiated = true →
      (r.toNat = 0 → exec (.generate r) s = .next (endedInError 0x07 s)) ∧
      (2 ^ 19 < r.toNat → exec (.generate r) s = .next (endedInError 0x06 s)) ∧
      (1 ≤ r.toNat → r.toNat ≤ 2 ^ 19 →
        (2 ^ 35 < s.host.inLen.toNat → exec (.generate r) s = .next (endedInError 0x03 s)) ∧
        (s.host.inLen.toNat ≤ 2 ^ 35 →
          (s.host.inWords.length ≠ (s.host.inLen.toNat + 31) / 32 →
            exec (.generate r) s = .next (endedInError 0x13 s)) ∧
          (s.host.inWords.length = (s.host.inLen.toNat + 31) / 32 → 2 ^ 48 < s.drbg.reseedCounter.toNat →
            exec (.generate r) s = .next (endedInError 0x05 s)))))

/-- UNINSTANTIATE in every state of the DRBG (R156): the DRBG registers to zero, `DONE`, the working registers scrubbed, the
operand consumed unchecked, and nothing else. -/
def Obligations.UninstantiateCompletes : Prop :=
  ∀ s : State, s.host.busy = false → Undisturbed s →
    exec .uninstantiate s = .next (idleState
      { V := 0, C := 0, reseedCounter := 0, instantiated := false, strength := 0 } doneHost s.env)

/-- A `CMD` word with a reserved opcode, or RESEED or UNINSTANTIATE with a non-zero immediate, is accepted and ends with
`IllegalCommand`, the buffers consumed and the DRBG registers unchanged (30_encoding.md R84; 60_exceptions.md R210). -/
def Obligations.IllegalCommandWordEndsInError : Prop :=
  ∀ (s : State) (k : Nat) (w : Word) (rest : List Input),
    s.env.inputs = ⟨k, .hostWrite 0 w⟩ :: rest → s.host.busy = false → Undisturbed (withInputs rest s) →
    (w.toNat / 2 ^ 24 = 0 ∨ 5 ≤ w.toNat / 2 ^ 24 ∨
      ((w.toNat / 2 ^ 24 = 2 ∨ w.toNat / 2 ^ 24 = 4) ∧ w.toNat % 2 ^ 24 ≠ 0)) →
    step s = .next (endedInError 0x10 (withInputs rest s))

/-- A command written while a command runs is dropped and sets `overrun`; the running command goes on undisturbed
(10_state.md R41, R50; 60_exceptions.md R218; 70_reset_and_hazards.md R235). -/
def Obligations.CommandWhileBusyIsDropped : Prop :=
  ∀ (s : State) (i : Instr) (w : Word), encode i = .command w → s.host.busy = true →
    exec i s = .next { goOn s with host := { (goOn s).host with overrun := true } }

/-- The frame of GENERATE and UNINSTANTIATE, wherever an event cuts the command (R155, R156, R161 to R163; 43_entropy_sync.md
R196): GENERATE never writes `C`, `strength`, `instantiated`; neither asks for entropy or takes any. -/
def Obligations.GenerateAndUninstantiateFrame : Prop :=
  ∀ s t : State, s.host.busy = false →
    ((∃ r, exec (.generate r) s = .next t) →
      t.drbg.C = s.drbg.C ∧ t.drbg.strength = s.drbg.strength ∧ t.drbg.instantiated = s.drbg.instantiated ∧
        t.env = s.env ∧ (t.ent = s.ent ∨ t.ent = Sync.zero) ∧ t.host.inLen = 0 ∧ t.host.inWords = []) ∧
    (exec .uninstantiate s = .next t →
      (t.drbg = s.drbg ∨ t.drbg = Drbg.zero) ∧ t.env = s.env ∧ (t.ent = s.ent ∨ t.ent = Sync.zero) ∧
        t.host.inLen = 0 ∧ t.host.inWords = [])

/-- The frame of INSTANTIATE and RESEED, wherever an event cuts the command: the OUT buffer is empty, the events to come and
the last read value stay, answers are only taken off the front of the source's script; RESEED never writes `strength` or
`instantiated`, and an INSTANTIATE of a live instance changes no DRBG register (R152 to R154). -/
def Obligations.SeedingCommandsFrame : Prop :=
  ∀ s t : State, s.host.busy = false →
    ((exec .reseed s = .next t ∨ ∃ n, exec (.instantiate n) s = .next t) →
      t.host.outLen = 0 ∧ t.host.outWords = [] ∧ t.host.outRd = 0 ∧ t.host.inLen = 0 ∧ t.host.inWords = [] ∧
        t.env.inputs = s.env.inputs ∧ t.env.readData = s.env.readData ∧
        (∃ used, s.env.source = used ++ t.env.source)) ∧
    (exec .reseed s = .next t →
      t.drbg.strength = s.drbg.strength ∧ t.drbg.instantiated = s.drbg.instantiated) ∧
    ((∃ n, exec (.instantiate n) s = .next t) → s.drbg.instantiated = true → t.drbg = s.drbg)

/-! ### The host interface -/

/-- What each read returns (10_state.md R41 to R47): a host read lands, and the value is that of the moment it lands. -/
def Obligations.HostReadValues : Prop :=
  ∀ (s : State) (k n : Nat) (rest : List Input), s.env.inputs = ⟨k, .hostRead n⟩ :: rest →
    ∃ t, step s = .next t ∧
      (n = 0 ∨ n = 4 ∨ 7 ≤ n → t.env.readData = 0) ∧
      (n = 1 → t.env.readData = statusWord s) ∧
      (n = 2 → t.env.readData.toNat = s.host.inLen.toNat % 2 ^ 32) ∧
      (n = 3 → t.env.readData.toNat = s.host.inLen.toNat / 2 ^ 32) ∧
      (n = 5 → t.env.readData.toNat = s.host.outLen.toNat) ∧
      (n = 6 → s.host.busy = false → s.host.outRd.toNat < (s.host.outLen.toNat + 31) / 32 →
        t.env.readData = s.host.outWords.getD s.host.outRd.toNat 0) ∧
      (n = 6 → s.host.busy = true ∨ (s.host.outLen.toNat + 31) / 32 ≤ s.host.outRd.toNat →
        t.env.readData = 0)

/-- What each read of an idle core changes besides the value returned: a read of `OUT_DATA` before the end of the output moves
`out_rd` on by one; no other read has an effect (10_state.md R46; 20_memory.md R69). -/
def Obligations.HostReadEffects : Prop :=
  ∀ (s : State) (k n : Nat) (rest : List Input), s.env.inputs = ⟨k, .hostRead n⟩ :: rest →
    s.phase = .idle → s.host.busy = false →
    ∃ v, step s = .next { s with
      env := { s.env with inputs := rest, readData := v }
      host := { s.host with
        outRd := if n = 6 ∧ s.host.outRd.toNat < (s.host.outLen.toNat + 31) / 32 then s.host.outRd + 1
          else s.host.outRd } }

/-- The layout of `STATUS`, bit by bit (10_state.md R42). -/
def Obligations.StatusLayout : Prop :=
  ∀ s : State,
    (statusWord s).getLsbD 0 = s.host.busy ∧
    (statusWord s).getLsbD 1 = s.host.done ∧
    (statusWord s).getLsbD 2 = s.host.error ∧
    (statusWord s).getLsbD 3 = s.drbg.instantiated ∧
    (statusWord s).getLsbD 4 = (s.drbg.instantiated && decide (2 ^ 48 < s.drbg.reseedCounter.toNat)) ∧
    (statusWord s).getLsbD 5 = decide (s.ent.state = .req) ∧
    (statusWord s).getLsbD 6 = s.host.overrun ∧
    (statusWord s).getLsbD 7 = false ∧
    (statusWord s).extractLsb' 8 8 = s.host.err ∧
    (statusWord s).extractLsb' 16 16 = 0

/-- Host writes of an idle core other than to `CMD` (10_state.md R42 to R47): each half of `in_len` replaced, a word appended,
every other number ignored, and nothing else changed. -/
def Obligations.HostWritesWhenIdle : Prop :=
  ∀ (s : State) (k n : Nat) (v : Word) (rest : List Input), s.env.inputs = ⟨k, .hostWrite n v⟩ :: rest →
    s.phase = .idle → s.host.busy = false → n ≠ 0 →
    ∃ t, step s = .next t ∧ t = { s with env := { s.env with inputs := rest }, host := t.host } ∧
      (n = 2 → t.host = { s.host with
        inLen := BitVec.ofNat 64 (s.host.inLen.toNat / 2 ^ 32 * 2 ^ 32 + v.toNat) }) ∧
      (n = 3 → t.host = { s.host with
        inLen := BitVec.ofNat 64 (v.toNat * 2 ^ 32 + s.host.inLen.toNat % 2 ^ 32) }) ∧
      (n = 4 → t.host = { s.host with inWords := s.host.inWords ++ [v] }) ∧
      (n = 1 ∨ 5 ≤ n → t.host = s.host)

/-- Host writes while a command runs (10_state.md R43, R44, R50): to 2, 3 and 4 they are ignored and set `overrun`, to the other
numbers they do nothing; the running command goes on undisturbed (70_reset_and_hazards.md R235). -/
def Obligations.HostWritesWhenBusy : Prop :=
  ∀ (s : State) (k n : Nat) (v : Word) (rest : List Input), s.env.inputs = ⟨k, .hostWrite n v⟩ :: rest →
    s.host.busy = true →
    let u := goOn (withInputs rest s)
    (n = 2 ∨ n = 3 ∨ n = 4 → step s = .next { u with host := { u.host with overrun := true } }) ∧
    (n = 1 ∨ 5 ≤ n → step s = .next u)

/-- Loading a bit string as the text syntax's transaction does leaves in the IN buffer a well-formed operand that denotes it
(30_encoding.md R85, R94; 20_memory.md R65). -/
def Obligations.LoadedOperandDenotesItsString : Prop :=
  ∀ (s : State) (p : BitString), p.length < 2 ^ 64 → s.host.busy = false → s.host.inWords = [] →
    (inOperand (writeAll (loadOperand p) s)).wellFormed = true ∧
    (inOperand (writeAll (loadOperand p) s)).string = p

/-- `pack32` (00_scope.md R14; 30_encoding.md R86): `ceil(len/32)` words that carry the string, first bit in bit 31 of the first
word, the unused low bits of the last word zero. -/
def Obligations.PackedWordsCarryTheString : Prop :=
  ∀ p : BitString, (pack32 p).length = (p.length + 31) / 32 ∧
    wordsBits (pack32 p) = p ++ List.replicate ((p.length + 31) / 32 * 32 - p.length) false

/-! ### Reset, invariants, whole-machine rules -/

/-- The values after reset (10_state.md R51; 70_reset_and_hazards.md R231): every register at zero, the empty string or the first
value of its enumeration, `STATUS` 0, the state Uninstantiated. Of the model's own registers `ret` and `env` (log 25) it says
nothing. -/
def Obligations.ResetValues : Prop :=
  (∀ i : Fin 8, State.reset.eng.H[i] = 0) ∧ (∀ i : Fin 64, State.reset.eng.W[i] = 0) ∧
  engineVars State.reset.eng = ⟨0, 0, 0, 0, 0, 0, 0, 0⟩ ∧
  State.reset.eng.t = 0 ∧ State.reset.eng.blkbuf = 0 ∧ State.reset.eng.fill = 0 ∧ State.reset.eng.mlen = 0 ∧
  State.reset.drbg = ⟨0, 0, 0, false, 0⟩ ∧ State.reset.phase = .idle ∧
  { State.reset.work with ret := [] } = ⟨0, 0, [], 0, 0, 0, 0, ⟨0, []⟩, [], [], 0, []⟩ ∧
  State.reset.ent = ⟨.idle, 0, [], 0⟩ ∧
  State.reset.host = ⟨0, [], 0, [], 0, false, false, false, 0, false⟩ ∧
  statusWord State.reset = 0 ∧ drbgState State.reset.drbg = .uninstantiated

/-- Reset at any time, also in the middle of a command or a wait, gives the core its reset values and forgets the outstanding
request (70_reset_and_hazards.md R230 to R232). That the outside world keeps its events is the model's choice, log 21. -/
def Obligations.ResetAtAnyTime : Prop :=
  ∀ (s : State) (k : Nat) (rest : List Input), s.env.inputs = ⟨k, .reset⟩ :: rest →
    step s = .next { State.reset with env := { s.env with inputs := rest } }

/-- The invariant holds after reset. -/
def Obligations.ResetMeetsInvariant : Prop :=
  Inv State.reset

/-- Every step of every state that meets the invariant gives a state that meets it: the idle invariant, the flags, the error
codes, the counter's and the strength's bounds, the sequencing of the phases, the OUT buffer (10_state.md R30 to R33, R39, R42,
R48, R50, R54; 42_drbg_commands.md R166, R168). -/
def Obligations.StepKeepsInvariant : Prop :=
  ∀ s t : State, Inv s → step s = .next t → Inv t

/-- Whatever step ends with `ERROR` reading 1 has left the DRBG registers as they were (60_exceptions.md R200, R206). The premise
`Inv` rules out states in which a command has already written `V`. -/
def Obligations.ErrorLeavesDrbgUnchanged : Prop :=
  ∀ s t : State, Inv s → step s = .next t → t.host.error = true → t.drbg = s.drbg

/-- While `BUSY` reads 1 nothing the host can see but `ENT_WAIT` and `OVERRUN` changes: the counter, `instantiated` and `strength`
are as before the step, and in a command that runs so are all flags and buffers (20_memory.md R68, R70 (c); 10_state.md
R49). -/
def Obligations.EffectsShowOnlyAtCompletion : Prop :=
  ∀ s t : State, step s = .next t → t.host.busy = true →
    t.drbg.reseedCounter = s.drbg.reseedCounter ∧ t.drbg.instantiated = s.drbg.instantiated ∧
    t.drbg.strength = s.drbg.strength ∧
    (s.host.busy = true → t.host = { s.host with overrun := t.host.overrun })

/-- From every state the core, left alone, is idle after ten turns or holds for an answer that the source's script does not
give (42_drbg_commands.md R168; 70_reset_and_hazards.md R243, R244; the turn is the model's choice, log 2). -/
def Obligations.CommandsEndOrHoldInTenTurns : Prop :=
  ∀ s : State, (turns 10 s).phase = .idle ∨ Holding (turns 10 s)

/-- ENHD's state graph (42_drbg_commands.md R150, R151): a step that changes the DRBG's state is one in which a command has
completed with `DONE`, or reset; and no step leads from Uninstantiated to NeedsReseed. -/
def Obligations.StateChangesOnlyOnSuccess : Prop :=
  ∀ s t : State, Inv s → step s = .next t → drbgState t.drbg ≠ drbgState s.drbg →
    (t.host.done = true ∨ ∃ k rest, s.env.inputs = ⟨k, .reset⟩ :: rest) ∧
    ¬ (drbgState s.drbg = .uninstantiated ∧ drbgState t.drbg = .needsReseed)

/-- No secret reaches the host but through `OUT_DATA` (10_state.md R52; 60_exceptions.md R220): two states that differ only in the
engine, `V`, `C`, what is derived from them, the bits of the entropy input and the nonce, and the returned bits, read the same at
every register but `OUT_DATA`, and after a step still differ only there. -/
def Obligations.SecretsShowOnlyInOutData : Prop :=
  ∀ s t : State, publicView s = publicView t →
    (∀ i ∈ s.env.inputs, i.event.external = true) → (∀ i ∈ t.env.inputs, i.event.external = true) →
    (∀ n, n ≠ 6 → readValue n s = readValue n t) ∧ publicOutcome (step s) = publicOutcome (step t)
end

