-- ==== Sys2Proof/Laws/Bits.lean ====
section
/-! SUPPORT. The laws of bit strings, numbers and block bits (00_scope.md R9 to R14): lengths, the bit at each position,
and the two conversions as inverses. -/

namespace Sys2Proof.Machine

@[simp] theorem toBits_length {w : Nat} (x : BitVec w) : (toBits x).length = w := by simp [toBits]

theorem toBits_getElem? {w : Nat} (x : BitVec w) (i : Nat) :
    (toBits x)[i]? = if i < w then some (x.getMsbD i) else none := by
  by_cases h : i < w <;> simp [toBits, h]

theorem toBits_getD {w : Nat} (x : BitVec w) (i : Nat) : (toBits x).getD i false = x.getMsbD i := by
  rw [List.getD_eq_getElem?_getD, toBits_getElem?]
  by_cases h : i < w
  · simp [h]
  · simp [h, BitVec.getMsbD_of_ge x i (by omega)]

theorem toInt_concat (s : BitString) (b : Bool) : toInt (s ++ [b]) = 2 * toInt s + b.toNat := by
  simp [toInt]

@[simp] theorem toInt_nil : toInt [] = 0 := rfl

theorem toInt_lt (s : BitString) : toInt s < 2 ^ s.length := by
  induction s using List.reverseRecOn with
  | nil => simp
  | append_singleton s b ih =>
    rw [toInt_concat, List.length_append, List.length_singleton, Nat.pow_succ]
    have := Bool.toNat_lt b
    omega

/-- Bit `j` from the right of the number a string denotes is the string's bit `j` from its end. -/
theorem toInt_testBit (s : BitString) (j : Nat) :
    (toInt s).testBit j = if j < s.length then s.getD (s.length - 1 - j) false else false := by
  induction s using List.reverseRecOn generalizing j with
  | nil => simp
  | append_singleton s b ih =>
    rw [toInt_concat]
    cases j with
    | zero => cases b <;> simp [Nat.testBit_zero, Nat.add_mod]
    | succ j =>
      have h2 : (2 * toInt s + b.toNat).testBit (j + 1) = (toInt s).testBit j := by
        rw [Nat.testBit_succ]; congr 1; have := Bool.toNat_lt b; omega
      rw [h2, ih]
      by_cases h : j < s.length
      · have h1 : s.length + 1 - 1 - (j + 1) = s.length - 1 - j := by omega
        simp only [h, ↓reduceIte, List.length_append, List.length_singleton, Nat.add_lt_add_iff_right, h1]
        rw [List.getD_append _ _ _ _ (by omega)]
      · simp [h]

theorem ofBits_getMsbD (w : Nat) (s : BitString) (h : s.length = w) (i : Nat) :
    (ofBits w s).getMsbD i = s.getD i false := by
  subst h
  unfold ofBits
  by_cases hi : i < s.length
  · rw [BitVec.getMsbD, BitVec.getLsbD_ofNat, toInt_testBit]
    have h1 : s.length - 1 - i < s.length := by omega
    have h2 : s.length - 1 - (s.length - 1 - i) = i := by omega
    simp [hi, h1, h2]
  · rw [BitVec.getMsbD_of_ge _ _ (by omega), List.getD_eq_default _ _ (by omega)]

/-- `bits_N` and the reading of a register are inverse (R10). -/
@[simp] theorem ofBits_toBits {w : Nat} (x : BitVec w) : ofBits w (toBits x) = x := by
  apply BitVec.eq_of_getMsbD_eq
  intro i _
  rw [ofBits_getMsbD w _ (toBits_length x), toBits_getD]

theorem toBits_ofBits (w : Nat) (s : BitString) (h : s.length = w) : toBits (ofBits w s) = s := by
  apply List.ext_getElem?
  intro i
  rw [toBits_getElem?]
  by_cases hi : i < w
  · rw [if_pos hi, ofBits_getMsbD w s h, List.getD_eq_getElem?_getD,
      List.getElem?_eq_getElem (by omega)]
    rfl
  · rw [if_neg hi, List.getElem?_eq_none (by omega)]

theorem toInt_toBits {w : Nat} (x : BitVec w) : toInt (toBits x) = x.toNat := by
  have h : (ofBits w (toBits x)).toNat = x.toNat := by rw [ofBits_toBits]
  rw [ofBits, BitVec.toNat_ofNat, Nat.mod_eq_of_lt] at h
  · exact h
  · simpa using toInt_lt (toBits x)

@[simp] theorem leftmost_length (s : BitString) (k : Nat) : (leftmost s k).length = min k s.length := by
  simp [leftmost]

theorem ceilDiv_mul_ge (n d : Nat) (h : 0 < d) : n ≤ ceilDiv n d * d := by
  have h1 := Nat.div_add_mod (n + d - 1) d
  have h2 := Nat.mod_lt (n + d - 1) h
  have h3 : ceilDiv n d * d = d * ((n + d - 1) / d) := Nat.mul_comm _ _
  omega

@[simp] theorem cutWords_length (n : Nat) (s : BitString) : (cutWords n s).length = n := by
  induction n generalizing s with
  | zero => rfl
  | succ n ih => simp [cutWords, ih]

@[simp] theorem pack32_length (s : BitString) : (pack32 s).length = ceilDiv s.length 32 := by simp [pack32]

/-! ### The bits of a block -/

theorem setBlockBit_getMsbD (B : Block) (i : Nat) (x : Bool) (hi : i < 512) (j : Nat) (hj : j < 512) :
    (setBlockBit B i x).getMsbD j = if j = i then x else B.getMsbD j := by
  have key : (1#512 <<< (511 - i)).getLsbD (511 - j) = decide (j = i) := by
    rw [BitVec.getLsbD_shiftLeft, BitVec.getLsbD_one]
    by_cases h : j = i
    · subst h; simp; omega
    · by_cases h2 : 511 - j < 511 - i
      · simp [h2, h]
      · have h3 : ¬ (511 - j - (511 - i) = 0) := by omega
        simp [h, h3]
  have e : ∀ Y : Block, Y.getMsbD j = Y.getLsbD (511 - j) := fun Y => by simp [BitVec.getMsbD, hj]
  unfold setBlockBit
  simp only [hi, ↓reduceIte]
  cases x
  · simp only [Bool.false_eq_true, ↓reduceIte, e, BitVec.getLsbD_and, BitVec.getLsbD_not, key]
    have : 511 - j < 512 := by omega
    by_cases h : j = i <;> simp [h, this]
  · simp only [↓reduceIte, e, BitVec.getLsbD_or, key]
    by_cases h : j = i <;> simp [h]

theorem clearBlockBits_getMsbD (B : Block) (i k : Nat) (hk : k < 512) (j : Nat) (hj : j < 512) :
    (clearBlockBits B i k).getMsbD j = if i ≤ j ∧ j ≤ k then false else B.getMsbD j := by
  have e : ∀ Y : Block, Y.getMsbD j = Y.getLsbD (511 - j) := fun Y => by simp [BitVec.getMsbD, hj]
  have key : (BitVec.ofNat 512 (2 ^ (k + 1 - i) - 1) <<< (511 - k)).getLsbD (511 - j) = decide (i ≤ j ∧ j ≤ k) := by
    rw [BitVec.getLsbD_shiftLeft, BitVec.getLsbD_ofNat, Nat.testBit_two_pow_sub_one]
    by_cases h1 : j ≤ k
    · by_cases h2 : i ≤ j
      · have a1 : 511 - j < 512 := by omega
        have a2 : ¬ (511 - j < 511 - k) := by omega
        have a3 : 511 - j - (511 - k) < 512 := by omega
        have a4 : 511 - j - (511 - k) < k + 1 - i := by omega
        simp only [a1, a2, a3, a4, h1, h2]; simp
      · have a4 : ¬ (511 - j - (511 - k) < k + 1 - i) := by omega
        simp only [a4, h2]; simp
    · have a2 : 511 - j < 511 - k := by omega
      simp only [a2, h1]; simp
  unfold clearBlockBits
  rw [e, BitVec.getLsbD_and, BitVec.getLsbD_not, key, e]
  have : 511 - j < 512 := by omega
  by_cases h : i ≤ j ∧ j ≤ k <;> simp [h, this]

theorem setBlockLength_getMsbD (B : Block) (n : BitVec 64) (j : Nat) (hj : j < 512) :
    (setBlockLength B n).getMsbD j = if j < 448 then B.getMsbD j else n.getMsbD (j - 448) := by
  unfold setBlockLength
  rw [BitVec.getMsbD_append]
  by_cases h : j < 448
  · have h1 : 511 - j < 512 := by omega
    simp only [h, ↓reduceIte, BitVec.getMsbD, BitVec.getLsbD_extractLsb', hj]
    have a : 448 - 1 - j < 448 := by omega
    have b : 64 + (448 - 1 - j) = 511 - j := by omega
    have c : ¬ 448 ≤ j := by omega
    simp [b, a, c]
  · have c : 448 ≤ j := by omega
    simp [h, c]

/-- The block whose bits are a string of at most 512 bits, zeros after it. -/
theorem blockOfBits_getMsbD (r : BitString) (h : r.length ≤ 512) (j : Nat) :
    (ofBits 512 (r ++ List.replicate (512 - r.length) false)).getMsbD j = r.getD j false := by
  rw [ofBits_getMsbD 512 _ (by simp; omega)]
  by_cases hj : j < r.length
  · rw [List.getD_append _ _ _ _ hj]
  · rw [List.getD_append_right _ _ _ _ (by omega), List.getD_eq_default r _ (by omega)]
    simp [List.getD_eq_getElem?_getD, List.getElem?_replicate]
    split <;> simp

theorem seedRequest_eq : seedRequest = 440 := rfl

end Sys2Proof.Machine
end

