-- ==== Sys2Proof/Laws/Engine.lean ====
section
/-! SUPPORT. The laws of the SHA-256 engine on one block: what SHA.LOAD, SHA.ROUND and SHA.FOLD leave (40_sha256_engine.md
R119 to R123), and that together they are `Compress` (R128). -/

namespace Sys2Proof.Machine

/-! ### Repetition and vectors -/

theorem repeat_zero {α : Type} (f : α → α) (a : α) : Nat.repeat f 0 a = a := rfl

theorem repeat_succ {α : Type} (f : α → α) (n : Nat) (a : α) : Nat.repeat f (n + 1) a = f (Nat.repeat f n a) := rfl

theorem vector_getD {n : Nat} (W : Vector Word n) (i : Nat) (d : Word) : W.getD i d = W[i]?.getD d := by
  simp [Vector.getD, Array.getD_eq_getD_getElem?]

theorem vector_getD_set {n : Nat} (W : Vector Word n) (i j : Nat) (x d : Word) (hi : i < n) :
    (W.setIfInBounds i x).getD j d = if j = i then x else W.getD j d := by
  rw [vector_getD, vector_getD, Vector.getElem?_setIfInBounds]
  by_cases h : i = j
  · simp [h, h ▸ hi]
  · simp [h, Ne.symm h]

/-! ### The schedule as a list (R119) -/

@[simp] theorem blockWords_length (B : Block) : (blockWords B).length = 16 := by simp [blockWords]

theorem getElem?_eq_some_getD (l : List Word) {i : Nat} (h : i < l.length) : l[i]? = some (l.getD i 0) := by
  simp [List.getD_eq_getElem?_getD, List.getElem?_eq_getElem h]

theorem blockWords_getD (B : Block) (i : Nat) (h : i < 16) : (blockWords B).getD i 0 = blockWord B i := by
  simp [blockWords, List.getD_eq_getElem?_getD, h]

@[simp] theorem extendSchedule_length (ws : List Word) : (extendSchedule ws).length = ws.length + 1 := by
  simp [extendSchedule]

@[simp] theorem repeat_extendSchedule_length (n : Nat) (ws : List Word) :
    (Nat.repeat extendSchedule n ws).length = ws.length + n := by
  induction n with
  | zero => rfl
  | succ n ih => rw [repeat_succ, extendSchedule_length, ih]; omega

theorem extendSchedule_getD (ws : List Word) (i : Nat) (h : i < ws.length) :
    (extendSchedule ws).getD i 0 = ws.getD i 0 := by
  simp only [extendSchedule]
  rw [List.getD_append _ _ _ _ h]

theorem extendSchedule_getD_last (ws : List Word) :
    (extendSchedule ws).getD ws.length 0 =
      scheduleWord (ws.getD (ws.length - 2) 0) (ws.getD (ws.length - 7) 0) (ws.getD (ws.length - 15) 0)
        (ws.getD (ws.length - 16) 0) := by
  simp only [extendSchedule]
  rw [List.getD_append_right _ _ _ _ (Nat.le_refl _)]
  simp

theorem repeat_extendSchedule_getD (m n : Nat) (ws : List Word) (i : Nat) (h : i < ws.length + n) :
    (Nat.repeat extendSchedule (n + m) ws).getD i 0 = (Nat.repeat extendSchedule n ws).getD i 0 := by
  induction m with
  | zero => rfl
  | succ m ih =>
    rw [← Nat.add_assoc, repeat_succ, extendSchedule_getD _ _ (by simp; omega), ih]

@[simp] theorem schedule_length (B : Block) : (schedule B).length = 64 := by simp [schedule]

/-- "first 16 words verbatim" (R119). -/
theorem schedule_getD_low (B : Block) (i : Nat) (h : i < 16) : (schedule B).getD i 0 = blockWord B i := by
  rw [schedule, show 48 = 0 + 48 from rfl, repeat_extendSchedule_getD 48 0 (blockWords B) i (by simpa using h)]
  exact blockWords_getD B i h

theorem schedule_prefix (B : Block) {n m : Nat} (h : n + m = 48) {i : Nat} (hi : i < 16 + n) :
    (schedule B).getD i 0 = (Nat.repeat extendSchedule n (blockWords B)).getD i 0 := by
  rw [schedule, ← h]
  exact repeat_extendSchedule_getD m n (blockWords B) i (by simpa using hi)

/-- The recurrence of R119. -/
theorem schedule_getD_high (B : Block) (t : Nat) (h1 : 16 ≤ t) (h2 : t < 64) :
    (schedule B).getD t 0 =
      scheduleWord ((schedule B).getD (t - 2) 0) ((schedule B).getD (t - 7) 0) ((schedule B).getD (t - 15) 0)
        ((schedule B).getD (t - 16) 0) := by
  obtain ⟨n, m, rfl, hm⟩ : ∃ n m, t = 16 + n ∧ n + 1 + m = 48 := ⟨t - 16, 63 - t, by omega, by omega⟩
  have hm' : n + (m + 1) = 48 := by omega
  have last := extendSchedule_getD_last (Nat.repeat extendSchedule n (blockWords B))
  rw [repeat_extendSchedule_length, blockWords_length, ← repeat_succ extendSchedule] at last
  rw [schedule_prefix B hm (by omega), last, ← schedule_prefix B hm' (by omega), ← schedule_prefix B hm' (by omega),
    ← schedule_prefix B hm' (by omega), ← schedule_prefix B hm' (by omega)]

/-! ### SHA.LOAD (R121) -/

theorem loadSchedule_getD (W : Vector Word 64) (B : Block) (i : Nat) :
    (loadSchedule W B).getD i 0 = if i < 16 then blockWord B i else W.getD i 0 := by
  have key : ∀ n, n ≤ 16 →
      ((List.range n).foldl (fun (W : Vector Word 64) i => W.setIfInBounds i (blockWord B i)) W).getD i 0 =
        if i < n then blockWord B i else W.getD i 0 := by
    intro n hn
    induction n with
    | zero => simp
    | succ n ih =>
      rw [List.range_succ, List.foldl_append, List.foldl_cons, List.foldl_nil,
        vector_getD_set _ _ _ _ _ (by omega), ih (by omega)]
      by_cases h1 : i = n
      · simp [h1]
      · by_cases h2 : i < n
        · simp [h1, h2, Nat.lt_succ_of_lt h2]
        · have h3 : ¬ i < n + 1 := by omega
          simp [h1, h2, h3]
  exact key 16 (Nat.le_refl _)

@[simp] theorem engineLoad_vars (B : Block) (e : Engine) : engineVars (engineLoad B e) = varsOf e.H := rfl
@[simp] theorem engineLoad_H (B : Block) (e : Engine) : (engineLoad B e).H = e.H := rfl
@[simp] theorem engineLoad_W (B : Block) (e : Engine) : (engineLoad B e).W = loadSchedule e.W B := rfl
@[simp] theorem engineLoad_t (B : Block) (e : Engine) : (engineLoad B e).t = 0 := rfl
@[simp] theorem engineLoad_blkbuf (B : Block) (e : Engine) : (engineLoad B e).blkbuf = e.blkbuf := rfl
@[simp] theorem engineLoad_fill (B : Block) (e : Engine) : (engineLoad B e).fill = e.fill := rfl
@[simp] theorem engineLoad_mlen (B : Block) (e : Engine) : (engineLoad B e).mlen = e.mlen := rfl

/-! ### SHA.ROUND (R122) and SHA.FOLD (R123) -/

@[simp] theorem engineRound_H (e : Engine) : (engineRound e).H = e.H := rfl
@[simp] theorem engineRound_W (e : Engine) : (engineRound e).W = roundSchedule e.W e.t.toNat := rfl
@[simp] theorem engineRound_t (e : Engine) : (engineRound e).t = e.t + 1 := rfl
@[simp] theorem engineRound_blkbuf (e : Engine) : (engineRound e).blkbuf = e.blkbuf := rfl
@[simp] theorem engineRound_fill (e : Engine) : (engineRound e).fill = e.fill := rfl
@[simp] theorem engineRound_mlen (e : Engine) : (engineRound e).mlen = e.mlen := rfl

theorem engineRound_vars (e : Engine) :
    engineVars (engineRound e) =
      roundVars (engineVars e) (roundConst e.t.toNat) ((roundSchedule e.W e.t.toNat).getD e.t.toNat 0) := rfl

@[simp] theorem engineFold_H (e : Engine) : (engineFold e).H = addVars e.H (engineVars e) := rfl
@[simp] theorem engineFold_t (e : Engine) : (engineFold e).t = e.t := rfl
@[simp] theorem engineFold_blkbuf (e : Engine) : (engineFold e).blkbuf = e.blkbuf := rfl
@[simp] theorem engineFold_fill (e : Engine) : (engineFold e).fill = e.fill := rfl
@[simp] theorem engineFold_mlen (e : Engine) : (engineFold e).mlen = e.mlen := rfl

theorem roundSchedule_getD (W : Vector Word 64) (t i : Nat) (ht : t < 64) :
    (roundSchedule W t).getD i 0 =
      if i = t ∧ 16 ≤ t then
        scheduleWord (W.getD (t - 2) 0) (W.getD (t - 7) 0) (W.getD (t - 15) 0) (W.getD (t - 16) 0)
      else W.getD i 0 := by
  unfold roundSchedule
  by_cases h : 16 ≤ t
  · rw [if_pos h, vector_getD_set _ _ _ _ _ ht]
    by_cases hi : i = t <;> simp [h, hi]
  · rw [if_neg h, if_neg (by omega)]

/-! ### 64 rounds (R128) -/

@[simp] theorem tableK_length : tableK.length = 64 := rfl

theorem zip_getElem?_of {l₁ l₂ : List Word} {n : Nat} {a b : Word} (h₁ : l₁[n]? = some a) (h₂ : l₂[n]? = some b) :
    (l₁.zip l₂)[n]? = some (a, b) := List.getElem?_zip_eq_some.mpr ⟨h₁, h₂⟩

/-- The working values after the first `n` rounds, by the pure function. -/
def varsAfter (S : Vector Word 8) (B : Block) (n : Nat) : Vars :=
  ((tableK.zip (schedule B)).take n).foldl (fun r kw => roundVars r kw.1 kw.2) (varsOf S)

theorem varsAfter_succ (S : Vector Word 8) (B : Block) (n : Nat) (h : n < 64) :
    varsAfter S B (n + 1) = roundVars (varsAfter S B n) (roundConst n) ((schedule B).getD n 0) := by
  have hk : tableK[n]? = some (roundConst n) := by
    simp [tableK, h]
  have hs : (schedule B)[n]? = some ((schedule B).getD n 0) :=
    getElem?_eq_some_getD (schedule B) (by rw [schedule_length]; exact h)
  have hn : (tableK.zip (schedule B))[n]? = some (roundConst n, (schedule B).getD n 0) :=
    zip_getElem?_of hk hs
  rw [varsAfter, List.take_add_one, hn, List.foldl_append]
  simp only [Option.toList_some, List.foldl_cons, List.foldl_nil, varsAfter]

/-- What the engine holds after the first `n` rounds on the block `B` from `e`. -/
structure RoundsDone (B : Block) (e r : Engine) (n : Nat) : Prop where
  t : r.t.toNat = n
  vars : engineVars r = varsAfter e.H B n
  sched : ∀ i, i < 64 → i < max 16 n → r.W.getD i 0 = (schedule B).getD i 0
  H : r.H = e.H
  blkbuf : r.blkbuf = e.blkbuf
  fill : r.fill = e.fill
  mlen : r.mlen = e.mlen

theorem roundsDone_load (B : Block) (e : Engine) : RoundsDone B e (engineLoad B e) 0 where
  t := rfl
  vars := rfl
  sched := by
    intro i _ h2
    have h3 : i < 16 := by omega
    rw [engineLoad_W, loadSchedule_getD, if_pos h3, schedule_getD_low B i h3]
  H := rfl
  blkbuf := rfl
  fill := rfl
  mlen := rfl

theorem roundsDone_round {B : Block} {e r : Engine} {n : Nat} (hn : n < 64) (d : RoundsDone B e r n) :
    RoundsDone B e (engineRound r) (n + 1) := by
  have sched : ∀ i, i < 64 → i < max 16 (n + 1) →
      (roundSchedule r.W n).getD i 0 = (schedule B).getD i 0 := by
    intro i h1 h2
    rw [roundSchedule_getD _ _ _ hn]
    by_cases h : i = n ∧ 16 ≤ n
    · rw [if_pos h, h.1, schedule_getD_high B n h.2 hn, d.sched _ (by omega) (by omega),
        d.sched _ (by omega) (by omega), d.sched _ (by omega) (by omega), d.sched _ (by omega) (by omega)]
    · rw [if_neg h, d.sched i h1 (by omega)]
  refine ⟨?_, ?_, ?_, d.H, d.blkbuf, d.fill, d.mlen⟩
  · rw [engineRound_t, BitVec.toNat_add, d.t]
    show (n + 1) % 128 = n + 1
    omega
  · rw [engineRound_vars, d.t, d.vars, varsAfter_succ _ _ _ hn, sched n hn (by omega)]
  · rw [engineRound_W, d.t]; exact sched

theorem roundsDone_rounds (B : Block) (e : Engine) (n : Nat) (hn : n ≤ 64) :
    RoundsDone B e (Nat.repeat engineRound n (engineLoad B e)) n := by
  induction n with
  | zero => exact roundsDone_load B e
  | succ n ih => rw [repeat_succ]; exact roundsDone_round (by omega) (ih (by omega))

/-! ### `process(B)` is `Compress` (R128) -/

theorem engineProcess_H (B : Block) (e : Engine) : (engineProcess B e).H = compress e.H B := by
  have d := roundsDone_rounds B e 64 (Nat.le_refl _)
  rw [engineProcess, engineFold_H, d.H, d.vars, compress, varsAfter, List.take_of_length_le (by simp)]

theorem engineProcess_t (B : Block) (e : Engine) : (engineProcess B e).t = 64 := by
  have d := roundsDone_rounds B e 64 (Nat.le_refl _)
  rw [engineProcess, engineFold_t]
  exact BitVec.eq_of_toNat_eq d.t

@[simp] theorem engineProcess_blkbuf (B : Block) (e : Engine) : (engineProcess B e).blkbuf = e.blkbuf := by
  rw [engineProcess, engineFold_blkbuf, (roundsDone_rounds B e 64 (Nat.le_refl _)).blkbuf]

@[simp] theorem engineProcess_fill (B : Block) (e : Engine) : (engineProcess B e).fill = e.fill := by
  rw [engineProcess, engineFold_fill, (roundsDone_rounds B e 64 (Nat.le_refl _)).fill]

@[simp] theorem engineProcess_mlen (B : Block) (e : Engine) : (engineProcess B e).mlen = e.mlen := by
  rw [engineProcess, engineFold_mlen, (roundsDone_rounds B e 64 (Nat.le_refl _)).mlen]

end Sys2Proof.Machine
end

