-- ==== Sys2Proof/Laws/Hash.lean ====
section
/-! SUPPORT. The laws of the SHA-256 engine on a message: what an engine that has absorbed a message holds, kept by every
bit absorbed (40_sha256_engine.md R124), and that SHA.FINAL then leaves `Sha256` of it (R125 to R128). -/

namespace Sys2Proof.Machine

/-! ### Cutting into blocks (R127) -/

theorem cutBlocks_succ (n : Nat) (s : BitString) :
    cutBlocks (n + 1) s = ofBits 512 (s.take 512) :: cutBlocks n (s.drop 512) := rfl

theorem cutBlocks_add (m n : Nat) (s : BitString) :
    cutBlocks (m + n) s = cutBlocks m s ++ cutBlocks n (s.drop (512 * m)) := by
  induction m generalizing s with
  | zero => simp [cutBlocks]
  | succ m ih =>
    rw [Nat.succ_add, cutBlocks_succ, cutBlocks_succ, ih, List.drop_drop, List.cons_append]
    congr 4
    omega

theorem cutBlocks_append (n : Nat) (s u : BitString) (h : 512 * n ≤ s.length) :
    cutBlocks n (s ++ u) = cutBlocks n s := by
  induction n generalizing s with
  | zero => rfl
  | succ n ih =>
    rw [cutBlocks_succ, cutBlocks_succ, List.take_append_of_le_length (by omega), List.drop_append_of_le_length (by omega),
      ih _ (by rw [List.length_drop]; omega)]

/-- The bits after the last whole block. -/
def restBits (M : BitString) : BitString := M.drop (512 * (M.length / 512))

theorem restBits_length (M : BitString) : (restBits M).length = M.length % 512 := by
  rw [restBits, List.length_drop]; omega

/-- A message with bits after it, `n` more whole blocks in all. -/
theorem blocks_append (M u : BitString) (n : Nat) (h : (M ++ u).length / 512 = M.length / 512 + n) :
    blocks (M ++ u) = blocks M ++ cutBlocks n (restBits M ++ u) := by
  rw [blocks, h, cutBlocks_add, cutBlocks_append _ _ _ (by omega), List.drop_append_of_le_length (by omega)]
  rfl

theorem cutBlocks_one (s : BitString) : cutBlocks 1 s = [ofBits 512 (s.take 512)] := rfl

theorem cutBlocks_two (s : BitString) :
    cutBlocks 2 s = [ofBits 512 (s.take 512), ofBits 512 ((s.drop 512).take 512)] := rfl

/-- A block is known by its bits. -/
theorem block_eq_ofBits (B : Block) (s : BitString) (h : s.length = 512)
    (hb : ∀ j, j < 512 → B.getMsbD j = s.getD j false) : B = ofBits 512 s := by
  apply BitVec.eq_of_getMsbD_eq
  intro j hj
  rw [hb j hj, ofBits_getMsbD 512 s h]

/-! ### Absorbing (R124) -/

/-- The engine `e` has absorbed the message `M` since SHA.INIT. -/
structure Absorbed (M : BitString) (e : Engine) : Prop where
  mlen : e.mlen.toNat = M.length
  fill : e.fill.toNat = M.length % 512
  H : e.H = foldBlocks initialDigest (blocks M)
  buf : ∀ j, j < 512 → e.blkbuf.getMsbD j = (restBits M).getD j false

theorem absorbed_init (e : Engine) : Absorbed [] (engineInit e) where
  mlen := rfl
  fill := rfl
  H := rfl
  buf := by intro j _; simp [engineInit, restBits]

@[simp] theorem engineFlush_H (e : Engine) : (engineFlush e).H = compress e.H e.blkbuf := by
  simp only [engineFlush, engineProcess_H]
@[simp] theorem engineFlush_fill (e : Engine) : (engineFlush e).fill = 0 := rfl
@[simp] theorem engineFlush_blkbuf (e : Engine) : (engineFlush e).blkbuf = 0 := rfl
@[simp] theorem engineFlush_mlen (e : Engine) : (engineFlush e).mlen = e.mlen := by
  simp only [engineFlush, engineProcess_mlen]

@[simp] theorem engineFlush_t (e : Engine) : (engineFlush e).t = 64 := by
  simp only [engineFlush, engineProcess_t]

@[simp] theorem enginePut_H (b : Bool) (e : Engine) : (enginePut b e).H = e.H := rfl
@[simp] theorem enginePut_mlen (b : Bool) (e : Engine) : (enginePut b e).mlen = e.mlen := rfl
@[simp] theorem enginePut_fill (b : Bool) (e : Engine) : (enginePut b e).fill = e.fill + 1 := rfl
@[simp] theorem enginePut_blkbuf (b : Bool) (e : Engine) :
    (enginePut b e).blkbuf = setBlockBit e.blkbuf e.fill.toNat b := rfl

theorem fill_succ_toNat (e : Engine) (h : e.fill.toNat < 512) : (e.fill + 1).toNat = e.fill.toNat + 1 := by
  rw [BitVec.toNat_add]
  show (e.fill.toNat + 1) % 1024 = _
  omega

theorem fill_succ_eq (e : Engine) (h : e.fill.toNat < 512) : e.fill + 1 = 512 ↔ e.fill.toNat = 511 := by
  rw [← BitVec.toNat_inj, fill_succ_toNat e h]
  show e.fill.toNat + 1 = 512 ↔ _
  omega

theorem enginePut_bit (b : Bool) (e : Engine) (M : BitString) (a : Absorbed M e) (j : Nat) (hj : j < 512) :
    (enginePut b e).blkbuf.getMsbD j = (restBits M ++ [b]).getD j false := by
  have hr := restBits_length M
  have hf : e.fill.toNat < 512 := by rw [a.fill]; omega
  rw [enginePut_blkbuf, setBlockBit_getMsbD _ _ _ hf _ hj, a.buf j hj, a.fill]
  by_cases h1 : j < M.length % 512
  · rw [if_neg (by omega), List.getD_append _ _ _ _ (by omega)]
  · rw [List.getD_append_right _ _ _ _ (by omega), hr]
    by_cases h2 : j = M.length % 512
    · simp [h2]
    · obtain ⟨k, hk⟩ : ∃ k, j - M.length % 512 = k + 1 := ⟨j - M.length % 512 - 1, by omega⟩
      rw [if_neg h2, hk, List.getD_eq_default _ _ (by omega)]
      simp

theorem absorbed_bit {M : BitString} {e : Engine} (a : Absorbed M e) (b : Bool) (h : M.length + 1 < 2 ^ 64) :
    Absorbed (M ++ [b]) (engineAbsorbBit e b) := by
  have hf : e.fill.toNat < 512 := by rw [a.fill]; omega
  have hr := restBits_length M
  have hl : (M ++ [b]).length = M.length + 1 := by simp
  have hm : (e.mlen + 1).toNat = M.length + 1 := by
    rw [BitVec.toNat_add, a.mlen]
    show (M.length + 1) % 2 ^ 64 = _
    omega
  by_cases hq : e.fill.toNat = 511
  · have full : engineAbsorbBit e b = engineFlush { enginePut b e with mlen := e.mlen + 1 } :=
      if_pos ((fill_succ_eq e hf).mpr hq)
    have hB : (enginePut b e).blkbuf = ofBits 512 (restBits M ++ [b]) :=
      block_eq_ofBits _ _ (by rw [List.length_append, hr]; simp; rw [a.fill] at hq; omega) (enginePut_bit b e M a)
    rw [a.fill] at hq
    rw [full]
    refine ⟨by rw [engineFlush_mlen, hl]; exact hm, ?_, ?_, ?_⟩
    · rw [engineFlush_fill, hl]; show 0 = _; omega
    · rw [engineFlush_H, blocks_append M [b] 1 (by rw [hl]; omega), cutBlocks_one,
        List.take_of_length_le (by rw [List.length_append, hr]; simp; omega), ← hB, foldBlocks, List.foldl_append]
      show compress e.H _ = _
      rw [a.H]
      rfl
    · intro j _
      have h0 : restBits (M ++ [b]) = [] :=
        List.eq_nil_of_length_eq_zero (by rw [restBits_length, hl]; omega)
      rw [engineFlush_blkbuf, h0]
      simp
  · have notFull : engineAbsorbBit e b = { enginePut b e with mlen := e.mlen + 1 } :=
      if_neg (fun c => hq ((fill_succ_eq e hf).mp c))
    rw [a.fill] at hq
    rw [notFull]
    refine ⟨by rw [hl]; exact hm, ?_, ?_, ?_⟩
    · show (e.fill + 1).toNat = _
      rw [fill_succ_toNat e hf, a.fill, hl]
      omega
    · show e.H = _
      rw [a.H, blocks_append M [b] 0 (by rw [hl]; omega)]
      simp [cutBlocks]
    · intro j hj
      have h1 : restBits (M ++ [b]) = restBits M ++ [b] := by
        rw [restBits, hl, show (M.length + 1) / 512 = M.length / 512 by omega, List.drop_append_of_le_length (by omega)]
        rfl
      rw [h1]
      exact enginePut_bit b e M a j hj

theorem absorbed_append {M : BitString} {e : Engine} (a : Absorbed M e) (s : BitString)
    (h : M.length + s.length < 2 ^ 64) : Absorbed (M ++ s) (engineAbsorb s e) := by
  induction s generalizing M e with
  | nil => simpa [engineAbsorb] using a
  | cons b s ih =>
    rw [List.length_cons] at h
    have := ih (absorbed_bit a b (by omega)) (by rw [List.length_append, List.length_singleton]; omega)
    rwa [List.append_assoc] at this

/-! ### SHA.FINAL (R125) -/

/-- The bits of a padded last part (R127). -/
theorem padded_getD (r : BitString) (k : Nat) (L : BitVec 64) (j : Nat) :
    (r ++ [true] ++ List.replicate k false ++ toBits L).getD j false =
      if j < r.length then r.getD j false else if j = r.length then true
      else if j < r.length + 1 + k then false else L.getMsbD (j - (r.length + 1 + k)) := by
  by_cases h1 : j < r.length
  · rw [if_pos h1, List.append_assoc, List.append_assoc, List.getD_append _ _ _ _ h1]
  · rw [if_neg h1]
    by_cases h2 : j = r.length
    · rw [if_pos h2, List.append_assoc, List.append_assoc, List.getD_append_right _ _ _ _ (by omega)]
      simp [h2]
    · rw [if_neg h2]
      by_cases h3 : j < r.length + 1 + k
      · rw [if_pos h3, List.getD_append _ _ _ _ (by simp; omega), List.getD_append_right _ _ _ _ (by simp; omega)]
        simp [List.getD_eq_getElem?_getD, List.getElem?_replicate]
        split <;> simp
      · rw [if_neg h3, List.getD_append_right _ _ _ _ (by simp; omega), toBits_getD]
        congr 1
        simp
        omega

theorem getD_take {s : BitString} {n j : Nat} (h : j < n) : (s.take n).getD j false = s.getD j false := by
  simp [List.getD_eq_getElem?_getD, h]

theorem getD_drop (s : BitString) (n j : Nat) : (s.drop n).getD j false = s.getD (n + j) false := by
  simp [List.getD_eq_getElem?_getD]

/-- The padding of R127, seen from the bits after the last whole block. -/
theorem pad_eq (M : BitString) :
    pad M = M ++ ([true] ++ List.replicate ((447 + 512 - M.length % 512) % 512) false ++
      toBits (BitVec.ofNat 64 M.length)) := by
  simp [pad, Config.blockBits, Config.lenFieldBits]

theorem enginePut_true_bit (e : Engine) (M : BitString) (a : Absorbed M e) (j : Nat) (hj : j < 512) :
    (enginePut true e).blkbuf.getMsbD j =
      if j < M.length % 512 then (restBits M).getD j false else decide (j = M.length % 512) := by
  rw [enginePut_bit true e M a j hj]
  have hr := restBits_length M
  by_cases h1 : j < M.length % 512
  · rw [if_pos h1, List.getD_append _ _ _ _ (by omega)]
  · rw [if_neg h1, List.getD_append_right _ _ _ _ (by omega), hr]
    by_cases h2 : j = M.length % 512
    · simp [h2]
    · obtain ⟨k, hk⟩ : ∃ k, j - M.length % 512 = k + 1 := ⟨j - M.length % 512 - 1, by omega⟩
      simp [hk, h2]

/-- The engine's H after SHA.FINAL, from the engine that stands before the length block. -/
theorem engineFinal_H (e e2 : Engine) (h : engineCloseBlock (engineFlushFull (enginePut true e)) = e2) :
    (engineFinal e).H =
      compress e2.H (setBlockLength (clearBlockBits e2.blkbuf e2.fill.toNat 447) e.mlen) := by
  subst h
  rw [engineFinal]
  exact engineProcess_H _ _

/-- SHA.FINAL after absorbing `M` leaves `fold_blocks(IV, blocks(Pad(M)))` (R125, R128). -/
theorem engineFinal_absorbed {M : BitString} {e : Engine} (a : Absorbed M e) :
    (engineFinal e).H = foldBlocks initialDigest (blocks (pad M)) := by
  have hr := restBits_length M
  have hf : e.fill.toNat < 512 := by rw [a.fill]; omega
  have hL : e.mlen = BitVec.ofNat 64 M.length := by rw [← a.mlen]; simp
  have hbit := enginePut_true_bit e M a
  have hfill : (enginePut true e).fill.toNat = M.length % 512 + 1 := by
    rw [enginePut_fill, fill_succ_toNat e hf, a.fill]
  by_cases c1 : M.length % 512 < 448
  · -- one block more
    have e2 : engineCloseBlock (engineFlushFull (enginePut true e)) = enginePut true e := by
      have n1 : ¬ (enginePut true e).fill = 512 := by
        intro c; have := congrArg BitVec.toNat c; rw [hfill] at this; change _ = 512 at this; omega
      rw [engineFlushFull, if_neg n1, engineCloseBlock, if_neg (by rw [hfill]; omega)]
    rw [engineFinal_H e _ e2, enginePut_H, a.H, pad_eq,
      blocks_append M _ 1 (by simp; omega), cutBlocks_one, foldBlocks, foldBlocks, List.foldl_append]
    refine congrArg₂ compress rfl ?_
    have hk : (447 + 512 - M.length % 512) % 512 = 447 - M.length % 512 := by omega
    rw [hk, List.take_of_length_le (by simp [hr]; omega)]
    apply block_eq_ofBits _ _ (by simp [hr]; omega)
    intro j hj
    rw [← List.append_assoc, ← List.append_assoc, padded_getD, setBlockLength_getMsbD _ _ _ hj,
      clearBlockBits_getMsbD _ _ _ (by omega) _ hj, hbit j hj, hfill, hr, hL]
    by_cases j1 : j < M.length % 512
    · rw [if_pos (by omega), if_neg (by omega), if_pos j1, if_pos j1]
    · by_cases j2 : j = M.length % 512
      · rw [if_pos (by omega), if_neg (by omega), if_neg j1, if_neg j1, if_pos j2]; simp [j2]
      · by_cases j3 : j < 448
        · rw [if_pos j3, if_pos (by omega), if_neg j1, if_neg j2, if_pos (by omega)]
        · rw [if_neg j3, if_neg j1, if_neg j2, if_neg (by omega)]
          exact congrArg _ (by omega)
  · -- two blocks more: the one that the 1 bit closes, and the one with the length
    have hk : (447 + 512 - M.length % 512) % 512 = 959 - M.length % 512 := by omega
    have first : ∃ B, (∀ j, j < 512 → B.getMsbD j =
          if j < M.length % 512 then (restBits M).getD j false else decide (j = M.length % 512)) ∧
        (engineCloseBlock (engineFlushFull (enginePut true e))).H = compress e.H B ∧
        (engineCloseBlock (engineFlushFull (enginePut true e))).fill = 0 ∧
        (engineCloseBlock (engineFlushFull (enginePut true e))).blkbuf = 0 := by
      by_cases c2 : M.length % 512 = 511
      · have n1 : (enginePut true e).fill = 512 := by
          apply BitVec.eq_of_toNat_eq; rw [hfill]; show _ = 512; omega
        refine ⟨(enginePut true e).blkbuf, hbit, ?_⟩
        rw [engineFlushFull, if_pos n1, engineCloseBlock, if_neg (by simp)]
        exact ⟨engineFlush_H _, rfl, rfl⟩
      · have n1 : ¬ (enginePut true e).fill = 512 := by
          intro c; have := congrArg BitVec.toNat c; rw [hfill] at this; change _ = 512 at this; omega
        refine ⟨clearBlockBits (enginePut true e).blkbuf (enginePut true e).fill.toNat 511, ?_, ?_⟩
        · intro j hj
          rw [clearBlockBits_getMsbD _ _ _ (by omega) _ hj, hbit j hj, hfill]
          by_cases j1 : M.length % 512 + 1 ≤ j ∧ j ≤ 511
          · rw [if_pos j1, if_neg (by omega)]
            have : ¬ j = M.length % 512 := by omega
            simp [this]
          · rw [if_neg j1]
        · rw [engineFlushFull, if_neg n1, engineCloseBlock, if_pos (by rw [hfill]; omega)]
          exact ⟨engineFlush_H _, rfl, rfl⟩
    obtain ⟨B, hB, fH, ff, fb⟩ := first
    rw [engineFinal_H e _ rfl, fH, ff, fb, a.H, pad_eq,
      blocks_append M _ 2 (by simp; omega), cutBlocks_two, foldBlocks, foldBlocks, List.foldl_append]
    show compress (compress _ _) _ = compress (compress _ _) _
    rw [hk]
    refine congrArg₂ compress (congrArg₂ compress rfl ?_) ?_
    · apply block_eq_ofBits _ _ (by simp [hr]; omega)
      intro j hj
      rw [getD_take hj, ← List.append_assoc, ← List.append_assoc, padded_getD, hB j hj, hr]
      by_cases j1 : j < M.length % 512
      · rw [if_pos j1, if_pos j1]
      · rw [if_neg j1, if_neg j1]
        by_cases j2 : j = M.length % 512
        · simp [j2]
        · rw [if_neg j2, if_pos (by omega)]; simp [j2]
    · apply block_eq_ofBits _ _ (by simp [hr]; omega)
      intro j hj
      rw [getD_take hj, getD_drop, ← List.append_assoc, ← List.append_assoc, padded_getD,
        setBlockLength_getMsbD _ _ _ hj, clearBlockBits_getMsbD _ _ _ (by omega) _ hj, hr, hL,
        if_neg (show ¬ 512 + j < M.length % 512 by omega), if_neg (show ¬ 512 + j = M.length % 512 by omega)]
      by_cases j3 : j < 448
      · rw [if_pos j3, if_pos (by simp; omega), if_pos (by omega)]
      · rw [if_neg j3, if_neg (by omega)]
        exact congrArg _ (by omega)

/-! ### One hash, in parts (R124, R126, R128) -/

theorem absorbed_parts (parts : List BitString) {M : BitString} {e : Engine} (a : Absorbed M e)
    (h : M.length + parts.flatten.length < 2 ^ 64) :
    Absorbed (M ++ parts.flatten) (parts.foldl (fun e s => engineAbsorb s e) e) := by
  induction parts generalizing M e with
  | nil => simpa using a
  | cons s parts ih =>
    rw [List.flatten_cons, List.length_append] at h
    have := ih (absorbed_append a s (by omega)) (by rw [List.length_append]; omega)
    rwa [List.append_assoc] at this

/-- The engine computes `Sha256` of the parts put together, whatever it held before (R110, R126, R128). -/
theorem engineHash_digest (parts : List BitString) (e : Engine) (h : parts.flatten.length < 2 ^ 64) :
    engineDigest (engineHash parts e) = sha256 parts.flatten := by
  have a := absorbed_parts parts (absorbed_init e) (by simpa using h)
  rw [engineDigest, engineHash, engineFinal_absorbed a, sha256, List.nil_append]

end Sys2Proof.Machine
end

