-- ==== Sys2Proof/Laws/Derive.lean ====
section
/-! SUPPORT. What the derivation unit and Hashgen leave (41_hash_df.md R141; 42_drbg_commands.md R163): their results are the
pure functions `derive` and `hashgen`, and every register they do not name keeps its value. -/

namespace Sys2Proof.Machine

/-- The digests of the first `n` passes of DF.DERIVE, put together. -/
def deriveDigests (input : BitString) (bits : BitVec 32) (n : Nat) : BitString :=
  (List.range n).flatMap fun i => toBits (sha256 (deriveMessage (BitVec.ofNat 8 (i + 1)) bits input))

theorem deriveDigests_succ (input : BitString) (bits : BitVec 32) (n : Nat) :
    deriveDigests input bits (n + 1) =
      deriveDigests input bits n ++ toBits (sha256 (deriveMessage (BitVec.ofNat 8 (n + 1)) bits input)) := by
  simp [deriveDigests, List.range_succ, List.flatMap_append]

@[simp] theorem deriveDigests_length (input : BitString) (bits : BitVec 32) (n : Nat) :
    (deriveDigests input bits n).length = n * 256 := by
  induction n with
  | zero => rfl
  | succ n ih => rw [deriveDigests_succ, List.length_append, ih, toBits_length, Nat.add_mul]

theorem derive_eq (input : BitString) (bits : BitVec 32) :
    derive input bits = leftmost (deriveDigests input bits (ceilDiv bits.toNat 256)) bits.toNat := rfl

/-- One pass of the loop (R141). -/
theorem deriveBlock_spec (input : BitString) (s : State) (h : 40 + input.length < 2 ^ 64) :
    ∃ E, deriveBlock input s =
      { s with
        eng := E
        work := { s.work with
          dfCtr := s.work.dfCtr + 1
          dfAcc := s.work.dfAcc ++ toBits (sha256 (deriveMessage (s.work.dfCtr + 1) s.work.dfReq input)) } } := by
  have hd := engineHash_digest [toBits (s.work.dfCtr + 1), toBits s.work.dfReq, input] s.eng
    (by simp [Config.dfCtrBits, Config.dfLenBits]; omega)
  refine ⟨engineHash [toBits (s.work.dfCtr + 1), toBits s.work.dfReq, input] s.eng, ?_⟩
  have hm : [toBits (s.work.dfCtr + 1), toBits s.work.dfReq, input].flatten =
      deriveMessage (s.work.dfCtr + 1) s.work.dfReq input := by simp [deriveMessage]
  rw [hm] at hd
  rw [deriveBlock, hd]

theorem repeat_deriveBlock (input : BitString) (s : State) (h : 40 + input.length < 2 ^ 64)
    (h0 : s.work.dfCtr = 0) (ha : s.work.dfAcc = []) (n : Nat) :
    ∃ E, Nat.repeat (deriveBlock input) n s =
      { s with
        eng := E
        work := { s.work with
          dfCtr := BitVec.ofNat 8 n, dfAcc := deriveDigests input s.work.dfReq n } } := by
  induction n with
  | zero =>
    obtain ⟨eng, drbg, phase, work, ent, host, env⟩ := s
    refine ⟨eng, ?_⟩
    cases work
    simp_all [deriveDigests, repeat_zero]
  | succ n ih =>
    obtain ⟨E, hE⟩ := ih
    rw [repeat_succ, hE]
    obtain ⟨F, hF⟩ := deriveBlock_spec input
      { s with
        eng := E
        work := { s.work with dfCtr := BitVec.ofNat 8 n, dfAcc := deriveDigests input s.work.dfReq n } } h
    refine ⟨F, ?_⟩
    rw [hF]
    have hc : BitVec.ofNat 8 n + 1 = BitVec.ofNat 8 (n + 1) := BitVec.ofNat_add_ofNat n 1
    simp only [hc, deriveDigests_succ]

/-- DF.DERIVE (R141): the counter ends at `n`, `ret` is `derive`, and nothing but the engine and the derivation unit's
registers is written. -/
theorem runDerive_spec (input : BitString) (bits : BitVec 32) (s : State) (h : 40 + input.length < 2 ^ 64) :
    ∃ E, runDerive input bits s =
      { s with
        eng := E
        work := { s.work with
          dfReq := bits
          dfCtr := BitVec.ofNat 8 (ceilDiv bits.toNat 256)
          dfAcc := deriveDigests input bits (ceilDiv bits.toNat 256)
          ret := derive input bits } } := by
  obtain ⟨E, hE⟩ := repeat_deriveBlock input
    { s with work := { s.work with dfReq := bits, dfAcc := [], dfCtr := 0 } } h rfl rfl (ceilDiv bits.toNat 256)
  refine ⟨E, ?_⟩
  rw [runDerive, hE, derive_eq]

/-- The digests of the first `n` Hashgen blocks, put together. -/
def hashgenDigests (V : Seed) (n : Nat) : BitString :=
  (List.range n).flatMap fun i => toBits (sha256 (toBits (V + BitVec.ofNat 440 i)))

theorem hashgenDigests_succ (V : Seed) (n : Nat) :
    hashgenDigests V (n + 1) = hashgenDigests V n ++ toBits (sha256 (toBits (V + BitVec.ofNat 440 n))) := by
  simp [hashgenDigests, List.range_succ, List.flatMap_append]

@[simp] theorem hashgenDigests_length (V : Seed) (n : Nat) : (hashgenDigests V n).length = n * 256 := by
  induction n with
  | zero => rfl
  | succ n ih => rw [hashgenDigests_succ, List.length_append, ih, toBits_length, Nat.add_mul]

theorem hashgen_eq (V : Seed) (r : Nat) : hashgen V r = leftmost (hashgenDigests V (ceilDiv r 256)) r := rfl

theorem hashgen_length (V : Seed) (r : Nat) : (hashgen V r).length = r := by
  rw [hashgen_eq, leftmost_length, hashgenDigests_length]
  have := ceilDiv_mul_ge r 256 (by omega)
  omega

/-- One pass of the loop (R163). -/
theorem hashgenBlock_spec (s : State) :
    ∃ E, hashgenBlock s =
      { s with
        eng := E
        work := { s.work with
          ret := s.work.ret ++ toBits (sha256 (toBits s.work.data))
          data := s.work.data + 1
          hgI := s.work.hgI + 1 } } := by
  have hd := engineHash_digest [toBits s.work.data] s.eng (by simp [Config.seedLen])
  refine ⟨engineHash [toBits s.work.data] s.eng, ?_⟩
  rw [List.flatten_singleton] at hd
  rw [hashgenBlock, hd]

theorem repeat_hashgenBlock (s : State) (h0 : s.work.hgI = 0) (ha : s.work.ret = []) (n : Nat) :
    ∃ E, Nat.repeat hashgenBlock n s =
      { s with
        eng := E
        work := { s.work with
          ret := hashgenDigests s.work.data n
          data := s.work.data + BitVec.ofNat 440 n
          hgI := BitVec.ofNat 12 n } } := by
  induction n with
  | zero =>
    obtain ⟨eng, drbg, phase, work, ent, host, env⟩ := s
    refine ⟨eng, ?_⟩
    cases work
    simp_all [hashgenDigests, repeat_zero]
  | succ n ih =>
    obtain ⟨E, hE⟩ := ih
    rw [repeat_succ, hE]
    obtain ⟨F, hF⟩ := hashgenBlock_spec
      { s with
        eng := E
        work := { s.work with
          ret := hashgenDigests s.work.data n
          data := s.work.data + BitVec.ofNat 440 n
          hgI := BitVec.ofNat 12 n } }
    refine ⟨F, ?_⟩
    rw [hF]
    have hc : BitVec.ofNat 12 n + 1 = BitVec.ofNat 12 (n + 1) := BitVec.ofNat_add_ofNat n 1
    have hd : s.work.data + BitVec.ofNat 440 n + 1 = s.work.data + BitVec.ofNat 440 (n + 1) := by
      rw [BitVec.add_assoc]; exact congrArg _ (BitVec.ofNat_add_ofNat n 1)
    simp only [hc, hd, hashgenDigests_succ]

/-- HG.HASHGEN (R163): `V` is read only, `data` ends at `V + m`, `hg_i` at `m`, `ret` is `hashgen`, and nothing but the
engine and the Hashgen registers is written. -/
theorem runHashgen_spec (bits : Nat) (s : State) :
    ∃ E, runHashgen bits s =
      { s with
        eng := E
        work := { s.work with
          data := s.drbg.V + BitVec.ofNat 440 (ceilDiv bits 256)
          hgI := BitVec.ofNat 12 (ceilDiv bits 256)
          ret := hashgen s.drbg.V bits } } := by
  obtain ⟨E, hE⟩ := repeat_hashgenBlock
    { s with work := { s.work with data := s.drbg.V, hgI := 0, ret := [] } } rfl rfl (ceilDiv bits 256)
  refine ⟨E, ?_⟩
  rw [runHashgen, hE, hashgen_eq]

/-- HG.HASHGEN beyond its operand range (log 10): as `runHashgen` but for the free values, and one draw more. -/
theorem runHashgenBeyond_spec (bits : Nat) (s : State) :
    ∃ E, runHashgenBeyond bits s =
      { s with
        eng := E
        work := { s.work with
          data := s.drbg.V + BitVec.ofNat 440 (ceilDiv bits 256)
          hgI := if ceilDiv bits 256 < 2 ^ 12 then BitVec.ofNat 12 (ceilDiv bits 256)
            else Config.freeCount s.env.draws
          ret := (List.range bits).map (Config.freeBit s.env.draws) }
        env := { s.env with draws := s.env.draws + 1 } } := by
  obtain ⟨E, hE⟩ := runHashgen_spec bits s
  refine ⟨E, ?_⟩
  rw [runHashgenBeyond, hE]

end Sys2Proof.Machine
end

