-- ==== Sys2Proof/Laws/State.lean ====
section
/-! SUPPORT. One lemma for each field of State and each update of it, true by definition, so that no proof unfolds a record
update. -/

namespace Sys2Proof.Machine

@[simp] theorem withInputs_eng (l : List Input) (s : State) : (withInputs l s).eng = s.eng := rfl
@[simp] theorem withInputs_drbg (l : List Input) (s : State) : (withInputs l s).drbg = s.drbg := rfl
@[simp] theorem withInputs_phase (l : List Input) (s : State) : (withInputs l s).phase = s.phase := rfl
@[simp] theorem withInputs_work (l : List Input) (s : State) : (withInputs l s).work = s.work := rfl
@[simp] theorem withInputs_ent (l : List Input) (s : State) : (withInputs l s).ent = s.ent := rfl
@[simp] theorem withInputs_host (l : List Input) (s : State) : (withInputs l s).host = s.host := rfl
@[simp] theorem withInputs_env (l : List Input) (s : State) : (withInputs l s).env = { s.env with inputs := l } := rfl

@[simp] theorem setOverrun_eng (s : State) : (setOverrun s).eng = s.eng := rfl
@[simp] theorem setOverrun_drbg (s : State) : (setOverrun s).drbg = s.drbg := rfl
@[simp] theorem setOverrun_phase (s : State) : (setOverrun s).phase = s.phase := rfl
@[simp] theorem setOverrun_work (s : State) : (setOverrun s).work = s.work := rfl
@[simp] theorem setOverrun_ent (s : State) : (setOverrun s).ent = s.ent := rfl
@[simp] theorem setOverrun_host (s : State) : (setOverrun s).host = { s.host with overrun := true } := rfl
@[simp] theorem setOverrun_env (s : State) : (setOverrun s).env = s.env := rfl

@[simp] theorem writeInLenLo_eng (v : Word) (s : State) : (writeInLenLo v s).eng = s.eng := rfl
@[simp] theorem writeInLenLo_drbg (v : Word) (s : State) : (writeInLenLo v s).drbg = s.drbg := rfl
@[simp] theorem writeInLenLo_phase (v : Word) (s : State) : (writeInLenLo v s).phase = s.phase := rfl
@[simp] theorem writeInLenLo_work (v : Word) (s : State) : (writeInLenLo v s).work = s.work := rfl
@[simp] theorem writeInLenLo_ent (v : Word) (s : State) : (writeInLenLo v s).ent = s.ent := rfl
@[simp] theorem writeInLenLo_host (v : Word) (s : State) :
    (writeInLenLo v s).host = { s.host with inLen := s.host.inLen.extractLsb' 32 32 ++ v } := rfl
@[simp] theorem writeInLenLo_env (v : Word) (s : State) : (writeInLenLo v s).env = s.env := rfl

@[simp] theorem writeInLenHi_eng (v : Word) (s : State) : (writeInLenHi v s).eng = s.eng := rfl
@[simp] theorem writeInLenHi_drbg (v : Word) (s : State) : (writeInLenHi v s).drbg = s.drbg := rfl
@[simp] theorem writeInLenHi_phase (v : Word) (s : State) : (writeInLenHi v s).phase = s.phase := rfl
@[simp] theorem writeInLenHi_work (v : Word) (s : State) : (writeInLenHi v s).work = s.work := rfl
@[simp] theorem writeInLenHi_ent (v : Word) (s : State) : (writeInLenHi v s).ent = s.ent := rfl
@[simp] theorem writeInLenHi_host (v : Word) (s : State) :
    (writeInLenHi v s).host = { s.host with inLen := v ++ s.host.inLen.extractLsb' 0 32 } := rfl
@[simp] theorem writeInLenHi_env (v : Word) (s : State) : (writeInLenHi v s).env = s.env := rfl

@[simp] theorem pushInData_eng (v : Word) (s : State) : (pushInData v s).eng = s.eng := rfl
@[simp] theorem pushInData_drbg (v : Word) (s : State) : (pushInData v s).drbg = s.drbg := rfl
@[simp] theorem pushInData_phase (v : Word) (s : State) : (pushInData v s).phase = s.phase := rfl
@[simp] theorem pushInData_work (v : Word) (s : State) : (pushInData v s).work = s.work := rfl
@[simp] theorem pushInData_ent (v : Word) (s : State) : (pushInData v s).ent = s.ent := rfl
@[simp] theorem pushInData_host (v : Word) (s : State) :
    (pushInData v s).host = { s.host with inWords := s.host.inWords ++ [v] } := rfl
@[simp] theorem pushInData_env (v : Word) (s : State) : (pushInData v s).env = s.env := rfl

@[simp] theorem scrub_eng (s : State) : (scrub s).eng = Engine.zero := rfl
@[simp] theorem scrub_drbg (s : State) : (scrub s).drbg = s.drbg := rfl
@[simp] theorem scrub_phase (s : State) : (scrub s).phase = .idle := rfl
@[simp] theorem scrub_work (s : State) : (scrub s).work = Work.zero := rfl
@[simp] theorem scrub_ent (s : State) : (scrub s).ent = Sync.zero := rfl
@[simp] theorem scrub_host (s : State) : (scrub s).host = s.host := rfl
@[simp] theorem scrub_env (s : State) : (scrub s).env = s.env := rfl

@[simp] theorem accept_eng (w : Word) (s : State) : (accept w s).eng = s.eng := rfl
@[simp] theorem accept_drbg (w : Word) (s : State) : (accept w s).drbg = s.drbg := rfl
@[simp] theorem accept_phase (w : Word) (s : State) : (accept w s).phase = .check := rfl
@[simp] theorem accept_work (w : Word) (s : State) :
    (accept w s).work = { s.work with
      curOp := w.extractLsb' 24 8, curImm := w.extractLsb' 0 24
      opnd := { len := s.host.inLen, words := s.host.inWords } } := rfl
@[simp] theorem accept_ent (w : Word) (s : State) : (accept w s).ent = s.ent := rfl
@[simp] theorem accept_host (w : Word) (s : State) : (accept w s).host = { HostIf.zero with busy := true } := rfl
@[simp] theorem accept_env (w : Word) (s : State) : (accept w s).env = s.env := rfl

@[simp] theorem raiseError_eng (k : ErrorKind) (s : State) : (raiseError k s).eng = Engine.zero := rfl
@[simp] theorem raiseError_drbg (k : ErrorKind) (s : State) : (raiseError k s).drbg = s.drbg := rfl
@[simp] theorem raiseError_phase (k : ErrorKind) (s : State) : (raiseError k s).phase = .idle := rfl
@[simp] theorem raiseError_work (k : ErrorKind) (s : State) : (raiseError k s).work = Work.zero := rfl
@[simp] theorem raiseError_ent (k : ErrorKind) (s : State) : (raiseError k s).ent = Sync.zero := rfl
@[simp] theorem raiseError_host (k : ErrorKind) (s : State) :
    (raiseError k s).host = { s.host with err := errorCode k, error := true, done := false, busy := false } := rfl
@[simp] theorem raiseError_env (k : ErrorKind) (s : State) : (raiseError k s).env = s.env := rfl

@[simp] theorem finishCommand_eng (s : State) : (finishCommand s).eng = Engine.zero := rfl
@[simp] theorem finishCommand_drbg (s : State) : (finishCommand s).drbg = s.drbg := rfl
@[simp] theorem finishCommand_phase (s : State) : (finishCommand s).phase = .idle := rfl
@[simp] theorem finishCommand_work (s : State) : (finishCommand s).work = Work.zero := rfl
@[simp] theorem finishCommand_ent (s : State) : (finishCommand s).ent = Sync.zero := rfl
@[simp] theorem finishCommand_host (s : State) : (finishCommand s).host = { s.host with done := true, busy := false } := rfl
@[simp] theorem finishCommand_env (s : State) : (finishCommand s).env = s.env := rfl

@[simp] theorem resetCore_eng (s : State) : (resetCore s).eng = Engine.zero := rfl
@[simp] theorem resetCore_drbg (s : State) : (resetCore s).drbg = Drbg.zero := rfl
@[simp] theorem resetCore_phase (s : State) : (resetCore s).phase = .idle := rfl
@[simp] theorem resetCore_work (s : State) : (resetCore s).work = Work.zero := rfl
@[simp] theorem resetCore_ent (s : State) : (resetCore s).ent = Sync.zero := rfl
@[simp] theorem resetCore_host (s : State) : (resetCore s).host = HostIf.zero := rfl
@[simp] theorem resetCore_env (s : State) : (resetCore s).env = s.env := rfl

@[simp] theorem idleState_eng (d : Drbg) (h : HostIf) (v : Env) : (idleState d h v).eng = Engine.zero := rfl
@[simp] theorem idleState_drbg (d : Drbg) (h : HostIf) (v : Env) : (idleState d h v).drbg = d := rfl
@[simp] theorem idleState_phase (d : Drbg) (h : HostIf) (v : Env) : (idleState d h v).phase = .idle := rfl
@[simp] theorem idleState_work (d : Drbg) (h : HostIf) (v : Env) : (idleState d h v).work = Work.zero := rfl
@[simp] theorem idleState_ent (d : Drbg) (h : HostIf) (v : Env) : (idleState d h v).ent = Sync.zero := rfl
@[simp] theorem idleState_host (d : Drbg) (h : HostIf) (v : Env) : (idleState d h v).host = h := rfl
@[simp] theorem idleState_env (d : Drbg) (h : HostIf) (v : Env) : (idleState d h v).env = v := rfl

@[simp] theorem takeEntropy_eng (d : BitString) (s : State) : (takeEntropy d s).eng = s.eng := rfl
@[simp] theorem takeEntropy_drbg (d : BitString) (s : State) : (takeEntropy d s).drbg = s.drbg := rfl
@[simp] theorem takeEntropy_phase (d : BitString) (s : State) :
    (takeEntropy d s).phase = if s.work.curOp = 0x01#8 then .entN else .seedV := rfl
@[simp] theorem takeEntropy_work (d : BitString) (s : State) : (takeEntropy d s).work = { s.work with entE := d } := rfl
@[simp] theorem takeEntropy_ent (d : BitString) (s : State) : (takeEntropy d s).ent = s.ent := rfl
@[simp] theorem takeEntropy_host (d : BitString) (s : State) : (takeEntropy d s).host = s.host := rfl
@[simp] theorem takeEntropy_env (d : BitString) (s : State) : (takeEntropy d s).env = s.env := rfl

@[simp] theorem commitInstantiate_eng (s : State) : (commitInstantiate s).eng = s.eng := rfl
@[simp] theorem commitInstantiate_drbg (s : State) :
    (commitInstantiate s).drbg = { s.drbg with reseedCounter := 1, strength := s.work.curImm.setWidth 9, instantiated := true } := rfl
@[simp] theorem commitInstantiate_phase (s : State) : (commitInstantiate s).phase = s.phase := rfl
@[simp] theorem commitInstantiate_work (s : State) : (commitInstantiate s).work = s.work := rfl
@[simp] theorem commitInstantiate_ent (s : State) : (commitInstantiate s).ent = s.ent := rfl
@[simp] theorem commitInstantiate_host (s : State) : (commitInstantiate s).host = s.host := rfl
@[simp] theorem commitInstantiate_env (s : State) : (commitInstantiate s).env = s.env := rfl

@[simp] theorem commitReseed_eng (s : State) : (commitReseed s).eng = s.eng := rfl
@[simp] theorem commitReseed_drbg (s : State) : (commitReseed s).drbg = { s.drbg with reseedCounter := 1 } := rfl
@[simp] theorem commitReseed_phase (s : State) : (commitReseed s).phase = s.phase := rfl
@[simp] theorem commitReseed_work (s : State) : (commitReseed s).work = s.work := rfl
@[simp] theorem commitReseed_ent (s : State) : (commitReseed s).ent = s.ent := rfl
@[simp] theorem commitReseed_host (s : State) : (commitReseed s).host = s.host := rfl
@[simp] theorem commitReseed_env (s : State) : (commitReseed s).env = s.env := rfl

@[simp] theorem commitGenerate_eng (s : State) : (commitGenerate s).eng = s.eng := rfl
@[simp] theorem commitGenerate_drbg (s : State) :
    (commitGenerate s).drbg = { s.drbg with reseedCounter := s.drbg.reseedCounter + 1 } := rfl
@[simp] theorem commitGenerate_phase (s : State) : (commitGenerate s).phase = s.phase := rfl
@[simp] theorem commitGenerate_work (s : State) : (commitGenerate s).work = s.work := rfl
@[simp] theorem commitGenerate_ent (s : State) : (commitGenerate s).ent = s.ent := rfl
@[simp] theorem commitGenerate_host (s : State) :
    (commitGenerate s).host = { s.host with outLen := s.work.curImm.setWidth 20, outWords := pack32 s.work.ret, outRd := 0 } := rfl
@[simp] theorem commitGenerate_env (s : State) : (commitGenerate s).env = s.env := rfl

@[simp] theorem commitUninstantiate_eng (s : State) : (commitUninstantiate s).eng = s.eng := rfl
@[simp] theorem commitUninstantiate_drbg (s : State) : (commitUninstantiate s).drbg = Drbg.zero := rfl
@[simp] theorem commitUninstantiate_phase (s : State) : (commitUninstantiate s).phase = s.phase := rfl
@[simp] theorem commitUninstantiate_work (s : State) : (commitUninstantiate s).work = s.work := rfl
@[simp] theorem commitUninstantiate_ent (s : State) : (commitUninstantiate s).ent = s.ent := rfl
@[simp] theorem commitUninstantiate_host (s : State) : (commitUninstantiate s).host = s.host := rfl
@[simp] theorem commitUninstantiate_env (s : State) : (commitUninstantiate s).env = s.env := rfl

/-! ### An idle core -/

theorem scrub_eq (s : State) : scrub s = idleState s.drbg s.host s.env := rfl

theorem raiseError_eq (k : ErrorKind) (s : State) :
    raiseError k s =
      idleState s.drbg { s.host with err := errorCode k, error := true, done := false, busy := false } s.env := rfl

theorem finishCommand_eq (s : State) :
    finishCommand s = idleState s.drbg { s.host with done := true, busy := false } s.env := rfl

end Sys2Proof.Machine
end

