-- ==== Sys2Proof/Laws/Sequencer.lean ====
section
/-! SUPPORT. What one turn of the sequencer can do, said once (42_drbg_commands.md R168), and the turns one after another. -/

namespace Sys2Proof.Machine

/-! ### Turns -/

@[simp] theorem turns_zero (s : State) : turns 0 s = s := rfl
theorem turns_succ (n : Nat) (s : State) : turns (n + 1) s = turns n (seqStep s) := rfl

theorem turns_add (m n : Nat) (s : State) : turns (m + n) s = turns n (turns m s) := by
  induction m generalizing s with
  | zero => rw [Nat.zero_add]; rfl
  | succ m ih => rw [Nat.succ_add, turns_succ, turns_succ, ih]

theorem seqStep_idle {s : State} (h : s.phase = .idle) : seqStep s = s := by rw [seqStep, h]
theorem seqStep_check {s : State} (h : s.phase = .check) : seqStep s = phaseCheck s := by rw [seqStep, h]
theorem seqStep_entE {s : State} (h : s.phase = .entE) : seqStep s = phaseEntE s := by rw [seqStep, h]
theorem seqStep_entN {s : State} (h : s.phase = .entN) : seqStep s = phaseEntN s := by rw [seqStep, h]
theorem seqStep_seedV {s : State} (h : s.phase = .seedV) : seqStep s = phaseSeedV s := by rw [seqStep, h]
theorem seqStep_seedC {s : State} (h : s.phase = .seedC) : seqStep s = phaseSeedC s := by rw [seqStep, h]
theorem seqStep_addin {s : State} (h : s.phase = .addin) : seqStep s = phaseAddin s := by rw [seqStep, h]
theorem seqStep_hashgen {s : State} (h : s.phase = .hashgen) : seqStep s = phaseHashgen s := by rw [seqStep, h]
theorem seqStep_update {s : State} (h : s.phase = .update) : seqStep s = phaseUpdate s := by rw [seqStep, h]
theorem seqStep_complete {s : State} (h : s.phase = .complete) : seqStep s = phaseComplete s := by rw [seqStep, h]

/-- A state that a turn leaves as it is stays so. -/
theorem turns_fixed {s : State} (h : seqStep s = s) (n : Nat) : turns n s = s := by
  induction n with
  | zero => rfl
  | succ n ih => rw [turns_succ, h, ih]

theorem turns_idle {s : State} (h : s.phase = .idle) (n : Nat) : turns n s = s := turns_fixed (seqStep_idle h) n

theorem goOn_idle {s : State} (h : s.phase = .idle) : goOn s = s := turns_idle h _

/-- Whatever one turn keeps, the turns keep. -/
theorem turns_keep {P : State → Prop} (h : ∀ s, P s → P (seqStep s)) (n : Nat) {s : State} (hs : P s) :
    P (turns n s) := by
  induction n generalizing s with
  | zero => exact hs
  | succ n ih => exact ih (h s hs)

theorem goOn_keep {P : State → Prop} (h : ∀ s, P s → P (seqStep s)) {s : State} (hs : P s) : P (goOn s) :=
  turns_keep h _ hs

theorem budget_le (s : State) : budget s ≤ maxTurns := by
  rw [budget]; split
  · exact Nat.le_refl _
  · exact Nat.min_le_right _ _

/-! ### The operations whose results are not needed: what they leave alone -/

/-- DF.DERIVE writes the engine and the derivation unit's registers only, whatever its input; `df_ctr` ends at `n` (R141). -/
theorem runDerive_frame (input : BitString) (bits : BitVec 32) (s : State) :
    ∃ E a r, runDerive input bits s =
      { s with
        eng := E
        work := { s.work with dfReq := bits, dfCtr := BitVec.ofNat 8 (ceilDiv bits.toNat 256), dfAcc := a, ret := r } } := by
  have key : ∀ n, ∃ E a, Nat.repeat (deriveBlock input) n
      { s with work := { s.work with dfReq := bits, dfAcc := [], dfCtr := 0 } } =
      { s with eng := E, work := { s.work with dfReq := bits, dfCtr := BitVec.ofNat 8 n, dfAcc := a } } := by
    intro n
    induction n with
    | zero => exact ⟨s.eng, [], rfl⟩
    | succ n ih =>
      obtain ⟨E, a, h⟩ := ih
      rw [repeat_succ, h, ← BitVec.ofNat_add_ofNat n 1]
      exact ⟨_, _, rfl⟩
  obtain ⟨E, a, h⟩ := key (ceilDiv bits.toNat 256)
  rw [runDerive, h]
  exact ⟨_, _, _, rfl⟩

theorem derive_length (input : BitString) (bits : BitVec 32) : (derive input bits).length = bits.toNat := by
  rw [derive_eq, leftmost_length, deriveDigests_length]
  have := ceilDiv_mul_ge bits.toNat 256 (by omega)
  omega

/-! ### One turn -/

/-- What one turn can do: one constructor for each way a phase can go, with what the checks have established. -/
inductive Turn (s : State) : State → Prop
  /-- An idle core. -/
  | idle : s.phase = .idle → Turn s s
  /-- An error, in CHECK or of an entropy request. -/
  | error (k : ErrorKind) : s.phase = .check ∨ s.phase = .entE ∨ s.phase = .entN → Turn s (raiseError k s)
  /-- INSTANTIATE has passed its checks. -/
  | instantiate : s.phase = .check → s.work.curOp = 0x01#8 → s.drbg.instantiated = false →
      1 ≤ s.work.curImm.toNat → s.work.curImm.toNat ≤ Config.maxStrength →
      s.work.opnd.len.toNat ≤ Config.maxPersBits → s.work.opnd.wellFormed = true → Turn s { s with phase := .entE }
  /-- RESEED has passed its checks. -/
  | reseed : s.phase = .check → s.work.curOp = 0x02#8 → s.drbg.instantiated = true → s.work.curImm = 0 →
      s.work.opnd.len.toNat ≤ Config.maxAddinBits → s.work.opnd.wellFormed = true → Turn s { s with phase := .entE }
  /-- GENERATE has passed its checks. -/
  | generate (p : Phase) : s.phase = .check → s.work.curOp = 0x03#8 → s.drbg.instantiated = true →
      1 ≤ s.work.curImm.toNat → s.work.curImm.toNat ≤ Config.maxRequestBits →
      s.work.opnd.len.toNat ≤ Config.maxAddinBits → s.work.opnd.wellFormed = true →
      s.drbg.reseedCounter.toNat ≤ Config.reseedInterval →
      p = (if s.work.opnd.string.length = 0 then .hashgen else .addin) → Turn s { s with phase := p }
  /-- UNINSTANTIATE has passed its check. -/
  | uninstantiate : s.phase = .check → s.work.curOp = 0x04#8 → s.work.curImm = 0 → Turn s { s with phase := .complete }
  /-- A request. -/
  | request (m : BitVec 32) : s.phase = .entE ∨ s.phase = .entN → s.ent.state = .idle →
      Turn s { s with ent := entRequest m s.ent }
  /-- A request outstanding: the source's turn. -/
  | source : s.phase = .entE ∨ s.phase = .entN → s.ent.state = .req → Turn s (sourceTurn s)
  /-- A delivery taken as the entropy input. -/
  | entropy : s.phase = .entE → s.ent.state = .ready → s.ent.min.toNat ≤ s.ent.buf.length →
      Turn s (takeEntropy s.ent.buf { s with ent := entTake s.ent })
  /-- A delivery taken as the nonce. -/
  | nonce : s.phase = .entN → s.ent.state = .ready → s.ent.min.toNat ≤ s.ent.buf.length →
      s.work.curImm.toNat ≤ s.work.entE.length + s.ent.buf.length →
      Turn s { s with ent := entTake s.ent, work := { s.work with entN := s.ent.buf }, phase := .seedV }
  /-- SEED_V. -/
  | seedV (E : Engine) (c : BitVec 8) (a r : BitString) : s.phase = .seedV →
      Turn s { s with
        eng := E
        work := { s.work with dfReq := seedRequest, dfCtr := c, dfAcc := a, ret := r, seedTmpV := ofBits 440 r }
        drbg := { s.drbg with V := ofBits 440 r }
        phase := .seedC }
  /-- SEED_C. -/
  | seedC (E : Engine) (c : BitVec 8) (a r : BitString) : s.phase = .seedC →
      Turn s { s with
        eng := E
        work := { s.work with dfReq := seedRequest, dfCtr := c, dfAcc := a, ret := r }
        drbg := { s.drbg with C := ofBits 440 r }
        phase := .complete }
  /-- ADDIN. -/
  | addin (E : Engine) (v : Seed) : s.phase = .addin →
      Turn s { s with eng := E, drbg := { s.drbg with V := v }, phase := .hashgen }
  /-- HASHGEN. -/
  | hashgen (E : Engine) (d : Seed) (i : BitVec 12) : s.phase = .hashgen →
      Turn s { s with
        eng := E
        work := { s.work with data := d, hgI := i, ret := Machine.hashgen s.drbg.V s.work.curImm.toNat }
        phase := .update }
  /-- UPDATE. -/
  | update (E : Engine) (v : Seed) : s.phase = .update →
      Turn s { s with eng := E, drbg := { s.drbg with V := v }, phase := .complete }
  /-- COMPLETE. -/
  | complete : s.phase = .complete → Turn s (finishCommand (commit s))

theorem checkInstantiate_turn {s : State} (h : s.phase = .check) (ho : s.work.curOp = 0x01#8) :
    Turn s (checkInstantiate s) := by
  rw [checkInstantiate]
  split
  · exact .error _ (.inl h)
  · split
    · exact .error _ (.inl h)
    · split
      · exact .error _ (.inl h)
      · split
        · exact .error _ (.inl h)
        · exact .instantiate h ho (by simp_all) (by simp_all; omega) (by simp_all) (by simp_all) (by simp_all)

theorem checkReseed_turn {s : State} (h : s.phase = .check) (ho : s.work.curOp = 0x02#8) :
    Turn s (checkReseed s) := by
  rw [checkReseed]
  split
  · exact .error _ (.inl h)
  · split
    · exact .error _ (.inl h)
    · split
      · exact .error _ (.inl h)
      · split
        · exact .error _ (.inl h)
        · exact .reseed h ho (by simp_all) (by simp_all) (by simp_all) (by simp_all)

theorem checkGenerate_turn {s : State} (h : s.phase = .check) (ho : s.work.curOp = 0x03#8) :
    Turn s (checkGenerate s) := by
  rw [checkGenerate]
  split
  · exact .error _ (.inl h)
  · split
    · exact .error _ (.inl h)
    · split
      · exact .error _ (.inl h)
      · split
        · exact .error _ (.inl h)
        · split
          · exact .error _ (.inl h)
          · split
            · exact .error _ (.inl h)
            · rename_i c1 c2 c3 c4 c5 c6
              have hz : s.work.curImm.toNat ≠ 0 := fun c => c2 (BitVec.eq_of_toNat_eq c)
              exact .generate _ h ho (by simpa using c1) (by omega) (by omega) (by omega) (by simpa using c5)
                (by simpa [counterExhausted] using c6) rfl

theorem checkUninstantiate_turn {s : State} (h : s.phase = .check) (ho : s.work.curOp = 0x04#8) :
    Turn s (checkUninstantiate s) := by
  rw [checkUninstantiate]
  split
  · exact .error _ (.inl h)
  · exact .uninstantiate h ho (by simp_all)

theorem phaseCheck_turn {s : State} (h : s.phase = .check) : Turn s (phaseCheck s) := by
  rw [phaseCheck]
  split
  · exact checkInstantiate_turn h ‹_›
  · split
    · exact checkReseed_turn h ‹_›
    · split
      · exact checkGenerate_turn h ‹_›
      · split
        · exact checkUninstantiate_turn h ‹_›
        · exact .error _ (.inl h)

theorem phaseEntE_turn {s : State} (h : s.phase = .entE) : Turn s (phaseEntE s) := by
  rw [phaseEntE, entropyGet]
  split
  · exact .request _ (.inl h) ‹_›
  · exact .source (.inl h) ‹_›
  · exact .error .insufficientEntropy (.inr (.inl h))
  · split
    · exact .error .insufficientEntropy (.inr (.inl h))
    · exact .entropy h ‹_› (by omega)

theorem phaseEntN_turn {s : State} (h : s.phase = .entN) : Turn s (phaseEntN s) := by
  rw [phaseEntN, entropyGet]
  split
  · exact .request _ (.inr h) ‹_›
  · exact .source (.inr h) ‹_›
  · exact .error .insufficientEntropy (.inr (.inr h))
  · split
    · exact .error .insufficientEntropy (.inr (.inr h))
    · rw [takeNonce]
      split
      · exact .error .insufficientEntropy (.inr (.inr h))
      · rename_i c
        exact .nonce h ‹_› (by omega) (Nat.le_of_not_lt c)

theorem phaseSeedV_turn {s : State} (h : s.phase = .seedV) : Turn s (phaseSeedV s) := by
  obtain ⟨E, a, r, e⟩ := runDerive_frame (seedMaterial s) seedRequest s
  rw [phaseSeedV, e]
  exact .seedV E _ a r h

theorem phaseSeedC_turn {s : State} (h : s.phase = .seedC) : Turn s (phaseSeedC s) := by
  obtain ⟨E, a, r, e⟩ := runDerive_frame (cMaterial s.drbg.V) seedRequest s
  rw [phaseSeedC, e]
  exact .seedC E _ a r h

theorem phaseHashgen_turn {s : State} (h : s.phase = .hashgen) : Turn s (phaseHashgen s) := by
  obtain ⟨E, e⟩ := runHashgen_spec s.work.curImm.toNat s
  rw [phaseHashgen, e]
  exact .hashgen E _ _ h

/-- One turn is one of these. -/
theorem seqStep_turn (s : State) : Turn s (seqStep s) := by
  cases h : s.phase with
  | idle => rw [seqStep_idle h]; exact .idle h
  | check => rw [seqStep_check h]; exact phaseCheck_turn h
  | entE => rw [seqStep_entE h]; exact phaseEntE_turn h
  | entN => rw [seqStep_entN h]; exact phaseEntN_turn h
  | seedV => rw [seqStep_seedV h]; exact phaseSeedV_turn h
  | seedC => rw [seqStep_seedC h]; exact phaseSeedC_turn h
  | addin => rw [seqStep_addin h]; exact .addin _ _ h
  | hashgen => rw [seqStep_hashgen h]; exact phaseHashgen_turn h
  | update => rw [seqStep_update h]; exact .update _ _ h
  | complete => rw [seqStep_complete h]; exact .complete h

/-- What the EntropySource's turn can do. -/
theorem sourceTurn_cases (s : State) :
    (sourceTurn s = s) ∨
    (∃ d rest, s.env.source = .deliver d :: rest ∧ d.length ≤ Config.entMaxBits ∧
      sourceTurn s = { s with ent := entDeliver d s.ent, env := { s.env with source := rest } }) ∨
    (∃ rest, s.env.source = .fail :: rest ∧
      sourceTurn s = { s with ent := entFail s.ent, env := { s.env with source := rest } }) := by
  rw [sourceTurn]
  split
  · exact .inl rfl
  · split
    · exact .inr (.inl ⟨_, _, ‹_›, ‹_›, rfl⟩)
    · exact .inl rfl
  · exact .inr (.inr ⟨_, ‹_›, rfl⟩)

/-- What the writes at completion can do. -/
theorem commit_cases (s : State) :
    (s.work.curOp = 0x01#8 ∧ commit s = commitInstantiate s) ∨
    (s.work.curOp = 0x02#8 ∧ commit s = commitReseed s) ∨
    (s.work.curOp = 0x03#8 ∧ commit s = commitGenerate s) ∨
    (s.work.curOp = 0x04#8 ∧ commit s = commitUninstantiate s) ∨
    (s.work.curOp ≠ 0x01#8 ∧ s.work.curOp ≠ 0x02#8 ∧ s.work.curOp ≠ 0x03#8 ∧ s.work.curOp ≠ 0x04#8 ∧
      commit s = s) := by
  rw [commit]
  split
  · exact .inl ⟨‹_›, rfl⟩
  · split
    · exact .inr (.inl ⟨‹_›, rfl⟩)
    · split
      · exact .inr (.inr (.inl ⟨‹_›, rfl⟩))
      · split
        · exact .inr (.inr (.inr (.inl ⟨‹_›, rfl⟩)))
        · exact .inr (.inr (.inr (.inr ⟨‹_›, ‹_›, ‹_›, ‹_›, rfl⟩)))

/-! ### What every turn leaves alone -/

/-- No turn touches the events to come, the last read value or the IN buffer, nor sets `overrun` (10_state.md R50). -/
theorem seqStep_outside (s : State) :
    (seqStep s).env.inputs = s.env.inputs ∧ (seqStep s).env.readData = s.env.readData ∧
      (seqStep s).host.inLen = s.host.inLen ∧ (seqStep s).host.inWords = s.host.inWords ∧
      (seqStep s).host.overrun = s.host.overrun := by
  have h := seqStep_turn s
  generalize seqStep s = t at h
  cases h with
  | source =>
    rcases sourceTurn_cases s with c | ⟨d, rest, -, -, c⟩ | ⟨rest, -, c⟩ <;> rw [c] <;> exact ⟨rfl, rfl, rfl, rfl, rfl⟩
  | complete =>
    rcases commit_cases s with ⟨-, c⟩ | ⟨-, c⟩ | ⟨-, c⟩ | ⟨-, c⟩ | ⟨-, -, -, -, c⟩ <;> rw [c] <;>
      exact ⟨rfl, rfl, rfl, rfl, rfl⟩
  | _ => exact ⟨rfl, rfl, rfl, rfl, rfl⟩

theorem goOn_outside (s : State) :
    (goOn s).env.inputs = s.env.inputs ∧ (goOn s).env.readData = s.env.readData ∧
      (goOn s).host.inLen = s.host.inLen ∧ (goOn s).host.inWords = s.host.inWords ∧
      (goOn s).host.overrun = s.host.overrun :=
  goOn_keep (P := fun t => t.env.inputs = s.env.inputs ∧ t.env.readData = s.env.readData ∧
      t.host.inLen = s.host.inLen ∧ t.host.inWords = s.host.inWords ∧ t.host.overrun = s.host.overrun)
    (fun t h => by
      obtain ⟨a, b, c, d, e⟩ := seqStep_outside t
      rw [a, b, c, d, e]; exact h) ⟨rfl, rfl, rfl, rfl, rfl⟩

/-! ### The turns do not see `overrun` (10_state.md R50; 70_reset_and_hazards.md R235) -/

theorem repeat_comm {α : Type} {f g : α → α} (h : ∀ x, f (g x) = g (f x)) (n : Nat) (x : α) :
    Nat.repeat f n (g x) = g (Nat.repeat f n x) := by
  induction n with
  | zero => rfl
  | succ n ih => rw [repeat_succ, repeat_succ, ih, h]

theorem loop_comm {α : Type} {f g a b : α → α} (ha : ∀ x, a (g x) = g (a x)) (hf : ∀ x, f (g x) = g (f x))
    (hb : ∀ x, b (g x) = g (b x)) (n : Nat) (x : α) : b (Nat.repeat f n (a (g x))) = g (b (Nat.repeat f n (a x))) := by
  rw [ha, repeat_comm hf, hb]

theorem deriveBlock_setOverrun (input : BitString) (s : State) :
    deriveBlock input (setOverrun s) = setOverrun (deriveBlock input s) := by
  rw [deriveBlock, deriveBlock, setOverrun_work, setOverrun_eng]
  generalize engineHash _ _ = E
  rfl

theorem hashgenBlock_setOverrun (s : State) : hashgenBlock (setOverrun s) = setOverrun (hashgenBlock s) := by
  rw [hashgenBlock, hashgenBlock, setOverrun_work, setOverrun_eng]
  generalize engineHash _ _ = E
  rfl

theorem runDerive_setOverrun (input : BitString) (bits : BitVec 32) (s : State) :
    runDerive input bits (setOverrun s) = setOverrun (runDerive input bits s) :=
  loop_comm (f := deriveBlock input) (g := setOverrun)
    (a := fun s => { s with work := { s.work with dfReq := bits, dfAcc := [], dfCtr := 0 } })
    (b := fun s => { s with work := { s.work with ret := leftmost s.work.dfAcc bits.toNat } })
    (fun _ => rfl) (deriveBlock_setOverrun input) (fun _ => rfl) (ceilDiv bits.toNat 256) s

theorem runHashgen_setOverrun (bits : Nat) (s : State) :
    runHashgen bits (setOverrun s) = setOverrun (runHashgen bits s) :=
  loop_comm (f := hashgenBlock) (g := setOverrun)
    (a := fun s => { s with work := { s.work with data := s.drbg.V, hgI := 0, ret := [] } })
    (b := fun s => { s with work := { s.work with ret := leftmost s.work.ret bits } })
    (fun _ => rfl) hashgenBlock_setOverrun (fun _ => rfl) (ceilDiv bits 256) s

theorem ite_setOverrun {p : Prop} [Decidable p] {a b c d : State} (h1 : a = setOverrun c) (h2 : b = setOverrun d) :
    (if p then a else b) = setOverrun (if p then c else d) := by
  split <;> assumption

theorem phaseCheck_setOverrun (s : State) : phaseCheck (setOverrun s) = setOverrun (phaseCheck s) := by
  refine ite_setOverrun ?_ (ite_setOverrun ?_ (ite_setOverrun ?_ (ite_setOverrun ?_ rfl)))
  · exact ite_setOverrun rfl (ite_setOverrun rfl (ite_setOverrun rfl (ite_setOverrun rfl rfl)))
  · exact ite_setOverrun rfl (ite_setOverrun rfl (ite_setOverrun rfl (ite_setOverrun rfl rfl)))
  · exact ite_setOverrun rfl (ite_setOverrun rfl (ite_setOverrun rfl
      (ite_setOverrun rfl (ite_setOverrun rfl (ite_setOverrun rfl rfl)))))
  · exact ite_setOverrun rfl rfl

theorem sourceTurn_setOverrun (s : State) : sourceTurn (setOverrun s) = setOverrun (sourceTurn s) := by
  rw [sourceTurn, sourceTurn, setOverrun_env]
  split
  · rfl
  · exact ite_setOverrun rfl rfl
  · rfl

theorem entropyGet_setOverrun (m : BitVec 32) (take : BitString → State → State)
    (ht : ∀ d s, take d (setOverrun s) = setOverrun (take d s)) (s : State) :
    entropyGet m take (setOverrun s) = setOverrun (entropyGet m take s) := by
  rw [entropyGet, entropyGet, setOverrun_ent]
  split
  · rfl
  · exact sourceTurn_setOverrun s
  · rfl
  · exact ite_setOverrun rfl (ht _ { s with ent := entTake s.ent })

theorem takeNonce_setOverrun (d : BitString) (s : State) : takeNonce d (setOverrun s) = setOverrun (takeNonce d s) :=
  ite_setOverrun rfl rfl

theorem commit_setOverrun (s : State) : commit (setOverrun s) = setOverrun (commit s) :=
  ite_setOverrun rfl (ite_setOverrun rfl (ite_setOverrun rfl (ite_setOverrun rfl rfl)))

theorem phaseSeedV_setOverrun (s : State) : phaseSeedV (setOverrun s) = setOverrun (phaseSeedV s) := by
  have h : seedMaterial (setOverrun s) = seedMaterial s := rfl
  rw [phaseSeedV, phaseSeedV, h, runDerive_setOverrun]
  generalize runDerive _ _ s = x
  rw [setOverrun_work, setOverrun_drbg]
  generalize ofBits Config.seedLen x.work.ret = v
  rfl

theorem phaseSeedC_setOverrun (s : State) : phaseSeedC (setOverrun s) = setOverrun (phaseSeedC s) := by
  rw [phaseSeedC, phaseSeedC, setOverrun_drbg, runDerive_setOverrun]
  generalize runDerive _ _ s = x
  rw [setOverrun_work, setOverrun_drbg]
  generalize ofBits Config.seedLen x.work.ret = v
  rfl

theorem phaseAddin_setOverrun (s : State) : phaseAddin (setOverrun s) = setOverrun (phaseAddin s) := by
  rw [phaseAddin, phaseAddin, setOverrun_drbg, setOverrun_work, setOverrun_eng]
  generalize engineHash _ _ = E
  generalize s.drbg.V + _ = v
  rfl

theorem phaseHashgen_setOverrun (s : State) : phaseHashgen (setOverrun s) = setOverrun (phaseHashgen s) := by
  rw [phaseHashgen, phaseHashgen, setOverrun_work, runHashgen_setOverrun]
  generalize runHashgen _ s = x
  rfl

theorem phaseUpdate_setOverrun (s : State) : phaseUpdate (setOverrun s) = setOverrun (phaseUpdate s) := by
  rw [phaseUpdate, phaseUpdate, setOverrun_drbg, setOverrun_eng]
  generalize engineHash _ _ = E
  generalize s.drbg.V + _ + _ + _ = v
  rfl

theorem seqStep_setOverrun (s : State) : seqStep (setOverrun s) = setOverrun (seqStep s) := by
  rw [seqStep, seqStep, setOverrun_phase]
  split
  · rfl
  · exact phaseCheck_setOverrun s
  · exact entropyGet_setOverrun (entropyMin s) takeEntropy (fun _ _ => rfl) s
  · exact entropyGet_setOverrun _ takeNonce takeNonce_setOverrun s
  · exact phaseSeedV_setOverrun s
  · exact phaseSeedC_setOverrun s
  · exact phaseAddin_setOverrun s
  · exact phaseHashgen_setOverrun s
  · exact phaseUpdate_setOverrun s
  · rw [phaseComplete, phaseComplete, commit_setOverrun]
    generalize commit s = x
    rfl

theorem goOn_setOverrun (s : State) : goOn (setOverrun s) = setOverrun (goOn s) := by
  have h : ∀ n s, turns n (setOverrun s) = setOverrun (turns n s) := by
    intro n
    induction n with
    | zero => exact fun _ => rfl
    | succ n ih => intro s; rw [turns_succ, turns_succ, seqStep_setOverrun, ih]
  exact h (budget s) s

end Sys2Proof.Machine
end

