-- ==== Sys2Proof/Laws/Step.lean ====
section
/-! SUPPORT. What one step can do, said once: an event lands, then the core goes on (log 1, 2). -/

namespace Sys2Proof.Machine

@[simp] theorem withInputs_withInputs (l m : List Input) (s : State) :
    withInputs l (withInputs m s) = withInputs l s := rfl

theorem opcodeField_commandWord (op : BitVec 8) (imm : BitVec 24) : opcodeField (commandWord op imm) = op := by
  unfold opcodeField commandWord
  apply BitVec.eq_of_getLsbD_eq
  intro i hi
  simp only [BitVec.getLsbD_extractLsb', hi, decide_true, Bool.true_and, BitVec.getLsbD_append]
  rw [if_neg (by omega)]
  congr 1
  omega

theorem immField_commandWord (op : BitVec 8) (imm : BitVec 24) : immField (commandWord op imm) = imm := by
  unfold immField commandWord
  apply BitVec.eq_of_getLsbD_eq
  intro i hi
  simp only [BitVec.getLsbD_extractLsb', hi, decide_true, Bool.true_and, BitVec.getLsbD_append]
  rw [if_pos (by omega), Nat.zero_add]

theorem commandWord_fields (w : Word) : commandWord (opcodeField w) (immField w) = w := by
  unfold opcodeField immField commandWord
  apply BitVec.eq_of_getLsbD_eq
  intro i hi
  simp only [BitVec.getLsbD_append, BitVec.getLsbD_extractLsb']
  by_cases h : i < 24
  · simp [h]
  · rw [if_neg h]
    have : i - 24 < 8 := by omega
    simp only [this, decide_true, Bool.true_and]
    congr 1
    omega

/-- Acceptance latches the two fields of the word (42_drbg_commands.md R152). -/
theorem accept_commandWord (op : BitVec 8) (imm : BitVec 24) (s : State) :
    accept (commandWord op imm) s =
      { s with
        phase := .check
        work := { s.work with
          curOp := op, curImm := imm, opnd := { len := s.host.inLen, words := s.host.inWords } }
        host := { HostIf.zero with busy := true } } := by
  have h1 := opcodeField_commandWord op imm
  have h2 := immField_commandWord op imm
  unfold opcodeField at h1
  unfold immField at h2
  rw [accept, h1, h2]

/-- A command issued while none runs (10_state.md R41). -/
theorem issueCommand_accept (w : Word) {s : State} (h : s.host.busy = false) :
    issueCommand w s = goOn (accept w s) := by
  rw [issueCommand, h]; rfl

/-- A command issued while one runs (R41). -/
theorem issueCommand_drop (w : Word) {s : State} (h : s.host.busy = true) :
    issueCommand w s = goOn (setOverrun s) := by
  rw [issueCommand, h]; rfl

theorem budget_eq_of_inputs {s t : State} (h : s.env.inputs = t.env.inputs) : budget s = budget t := by
  rw [budget, budget, h]

/-- With no event landing meanwhile, a command issued to an idle core has all its turns. -/
theorem issueCommand_undisturbed (w : Word) {s : State} (h : s.host.busy = false) (hu : Undisturbed s) :
    issueCommand w s = turns maxTurns (accept w s) := by
  rw [issueCommand_accept w h, goOn, budget_eq_of_inputs (s := accept w s) (t := s) rfl, hu]

/-- The state that an event from outside the core leaves at once, before the core goes on. -/
inductive Landed (s : State) : State → Prop
  /-- No event to come. -/
  | none : s.env.inputs = [] → Landed s s
  /-- A host write of `CMD` while `busy = 0`. -/
  | command (k : Nat) (w : Word) (rest : List Input) : s.env.inputs = ⟨k, .hostWrite 0 w⟩ :: rest →
      s.host.busy = false → Landed s (accept w (withInputs rest s))
  /-- A host write of `CMD` while `busy = 1`. -/
  | dropped (k : Nat) (w : Word) (rest : List Input) : s.env.inputs = ⟨k, .hostWrite 0 w⟩ :: rest →
      s.host.busy = true → Landed s (setOverrun (withInputs rest s))
  /-- A host write of another register. -/
  | hostWrite (k n : Nat) (v : Word) (rest : List Input) : s.env.inputs = ⟨k, .hostWrite (n + 1) v⟩ :: rest →
      Landed s (Machine.hostWrite (n + 1) v (withInputs rest s))
  /-- A host read. -/
  | hostRead (k n : Nat) (rest : List Input) : s.env.inputs = ⟨k, .hostRead n⟩ :: rest →
      Landed s (Machine.hostRead n (withInputs rest s))
  /-- A micro-operation. -/
  | uop (k : Nat) (code : BitVec 4) (args : UopArgs) (rest : List Input) (i : Instr) (u : State) :
      s.env.inputs = ⟨k, .uop code args⟩ :: rest → decodeUop code args = .ok i →
      exec i (withInputs rest s) = .next u → Landed s u
  /-- Reset. -/
  | reset (k : Nat) (rest : List Input) : s.env.inputs = ⟨k, .reset⟩ :: rest →
      Landed s (resetCore (withInputs rest s))

theorem isCommand_of_decodeUop {code : BitVec 4} {args : UopArgs} {i : Instr} (h : decodeUop code args = .ok i) :
    isCommand i = false := by
  rw [decodeUop] at h
  by_cases c0 : code = 0x0#4
  · rw [if_pos c0] at h; cases h; rfl
  rw [if_neg c0] at h
  by_cases c1 : code = 0x1#4
  · rw [if_pos c1] at h; cases h; rfl
  rw [if_neg c1] at h
  by_cases c2 : code = 0x2#4
  · rw [if_pos c2] at h; cases h; rfl
  rw [if_neg c2] at h
  by_cases c3 : code = 0x3#4
  · rw [if_pos c3] at h; cases h; rfl
  rw [if_neg c3] at h
  by_cases c4 : code = 0x4#4
  · rw [if_pos c4] at h; cases h; rfl
  rw [if_neg c4] at h
  by_cases c5 : code = 0x5#4
  · rw [if_pos c5] at h; cases h; rfl
  rw [if_neg c5] at h
  by_cases c6 : code = 0x6#4
  · rw [if_pos c6] at h; cases h; rfl
  rw [if_neg c6] at h
  by_cases c8 : code = 0x8#4
  · rw [if_pos c8] at h; cases h; rfl
  rw [if_neg c8] at h
  by_cases c9 : code = 0x9#4
  · rw [if_pos c9] at h; cases h; rfl
  rw [if_neg c9] at h
  by_cases cC : code = 0xC#4
  · rw [if_pos cC] at h; cases h; rfl
  rw [if_neg cC] at h
  by_cases cD : code = 0xD#4
  · rw [if_pos cD] at h; cases h; rfl
  rw [if_neg cD] at h
  by_cases cE : code = 0xE#4
  · rw [if_pos cE] at h; cases h; rfl
  rw [if_neg cE] at h
  cases h

/-- A `CMD` word that decodes runs as the write of that word (30_encoding.md R82). -/
theorem exec_of_decodeCommand {w : Word} {i : Instr} (h : decodeCommand w = .ok i) (s : State) :
    isCommand i = true ∧ exec i s = .next (issueCommand w s) := by
  have hw := commandWord_fields w
  simp only [decodeCommand] at h
  split at h
  · rename_i c; injection h with h; subst h; rw [c] at hw
    exact ⟨rfl, congrArg (fun x => Host.Outcome.next (issueCommand x s)) hw⟩
  · split at h
    · rename_i c
      split at h
      · rename_i c2; injection h with h; subst h; rw [c, c2] at hw
        exact ⟨rfl, congrArg (fun x => Host.Outcome.next (issueCommand x s)) hw⟩
      · exact absurd h (by simp)
    · split at h
      · rename_i c; injection h with h; subst h; rw [c] at hw
        exact ⟨rfl, congrArg (fun x => Host.Outcome.next (issueCommand x s)) hw⟩
      · split at h
        · rename_i c
          split at h
          · rename_i c2; injection h with h; subst h; rw [c, c2] at hw
            exact ⟨rfl, congrArg (fun x => Host.Outcome.next (issueCommand x s)) hw⟩
          · exact absurd h (by simp)
        · exact absurd h (by simp)

/-! ### The step, event by event -/

theorem step_none {s : State} (h : s.env.inputs = []) : step s = .next (goOn s) := by
  simp only [step, fetch, h]

/-- A write of `CMD`, whatever the word (30_encoding.md R84). -/
theorem step_command {s : State} {k : Nat} {w : Word} {rest : List Input}
    (h : s.env.inputs = ⟨k, .hostWrite 0 w⟩ :: rest) : step s = .next (issueCommand w (withInputs rest s)) := by
  simp only [step, fetch, h, landEvent]
  cases hd : decodeCommand w with
  | error e => rfl
  | ok i =>
    obtain ⟨h1, h2⟩ := exec_of_decodeCommand hd (withInputs rest s)
    simp only [h2, afterInstr, h1, ↓reduceIte]

theorem step_hostWrite {s : State} {k n : Nat} {v : Word} {rest : List Input}
    (h : s.env.inputs = ⟨k, .hostWrite (n + 1) v⟩ :: rest) :
    step s = .next (goOn (hostWrite (n + 1) v (withInputs rest s))) := by
  simp only [step, fetch, h, landEvent]

theorem step_hostRead {s : State} {k n : Nat} {rest : List Input} (h : s.env.inputs = ⟨k, .hostRead n⟩ :: rest) :
    step s = .next (goOn (hostRead n (withInputs rest s))) := by
  simp only [step, fetch, h, landEvent]

theorem step_reset {s : State} {k : Nat} {rest : List Input} (h : s.env.inputs = ⟨k, .reset⟩ :: rest) :
    step s = .next (resetCore (withInputs rest s)) := by
  simp only [step, fetch, h, landEvent, goOn_idle (s := resetCore (withInputs rest s)) rfl]

theorem step_uop {s : State} {k : Nat} {code : BitVec 4} {args : UopArgs} {rest : List Input} {i : Instr}
    (h : s.env.inputs = ⟨k, .uop code args⟩ :: rest) (hd : decodeUop code args = .ok i) :
    step s = match exec i (withInputs rest s) with
      | .next u => .next (goOn u)
      | .fault r => .fault r
      | .refused r => .refused r := by
  simp only [step, fetch, h, landEvent, hd, afterInstr, isCommand_of_decodeUop hd]
  rfl

/-- A step that answers a next state is an event that lands, and the core going on. -/
theorem step_landed {s t : State} (h : step s = .next t) : ∃ u, Landed s u ∧ t = goOn u := by
  cases hi : s.env.inputs with
  | nil =>
    rw [step_none hi] at h
    injection h with h
    exact ⟨s, .none hi, h.symm⟩
  | cons i rest =>
    obtain ⟨k, ev⟩ := i
    cases ev with
    | hostWrite n v =>
      cases n with
      | zero =>
        rw [step_command hi] at h
        injection h with h
        cases hb : s.host.busy with
        | false => exact ⟨_, .command k v rest hi hb, by rw [← h, issueCommand_accept v (s := withInputs rest s) hb]⟩
        | true => exact ⟨_, .dropped k v rest hi hb, by rw [← h, issueCommand_drop v (s := withInputs rest s) hb]⟩
      | succ n =>
        rw [step_hostWrite hi] at h
        injection h with h
        exact ⟨_, .hostWrite k n v rest hi, h.symm⟩
    | hostRead n =>
      rw [step_hostRead hi] at h
      injection h with h
      exact ⟨_, .hostRead k n rest hi, h.symm⟩
    | reset =>
      rw [step_reset hi] at h
      injection h with h
      exact ⟨_, .reset k rest hi, by rw [← h, goOn_idle rfl]⟩
    | uop code args =>
      cases hd : decodeUop code args with
      | error e => simp only [step, fetch, hi, landEvent, hd] at h; exact absurd h (by simp)
      | ok i =>
        rw [step_uop hi hd] at h
        cases he : exec i (withInputs rest s) with
        | next u =>
          rw [he] at h
          injection h with h
          exact ⟨u, .uop k code args rest i u hi hd he, h.symm⟩
        | fault r => rw [he] at h; exact absurd h (by simp)
        | refused r => rw [he] at h; exact absurd h (by simp)

/-- The two micro-operations that an outside agent can cause (30_encoding.md R95; 43_entropy_sync.md R193, R195). -/
theorem external_uop {code : BitVec 4} {args : UopArgs} {i : Instr} {s u : State}
    (hx : (Event.uop code args).external = true) (hd : decodeUop code args = .ok i) (he : exec i s = .next u) :
    u = { s with ent := entDeliver args.bits s.ent } ∨ u = { s with ent := entFail s.ent } := by
  simp only [Event.external, Bool.or_eq_true, decide_eq_true_eq] at hx
  rcases hx with rfl | rfl
  · have : i = .entDeliver args.bits := by simpa [decodeUop] using hd.symm
    subst this
    simp only [exec, execEntDeliver] at he
    split at he
    · injection he with he; exact .inl he.symm
    · exact absurd he (by simp)
  · have : i = .entFail := by simpa [decodeUop] using hd.symm
    subst this
    simp only [exec, execEntFail] at he
    injection he with he
    exact .inr he.symm

end Sys2Proof.Machine
end

