-- ==== Sys2Proof/Laws/Commands.lean ====
section
/-! SUPPORT. A command, phase by phase (42_drbg_commands.md R152 to R168): its acceptance, each outcome of its checks, an
entropy request from the request to the taking, the seeding with the completion. -/

namespace Sys2Proof.Machine

/-! ### Acceptance -/

/-- The state in which a command has been accepted and nothing else done (R152). -/
def accepted (op : BitVec 8) (imm : BitVec 24) (s : State) : State :=
  { s with
    phase := .check
    work := { s.work with curOp := op, curImm := imm, opnd := inOperand s }
    host := { HostIf.zero with busy := true } }

@[simp] theorem accepted_eng (op : BitVec 8) (imm : BitVec 24) (s : State) : (accepted op imm s).eng = s.eng := rfl
@[simp] theorem accepted_drbg (op : BitVec 8) (imm : BitVec 24) (s : State) : (accepted op imm s).drbg = s.drbg := rfl
@[simp] theorem accepted_phase (op : BitVec 8) (imm : BitVec 24) (s : State) : (accepted op imm s).phase = .check := rfl
@[simp] theorem accepted_ent (op : BitVec 8) (imm : BitVec 24) (s : State) : (accepted op imm s).ent = s.ent := rfl
@[simp] theorem accepted_env (op : BitVec 8) (imm : BitVec 24) (s : State) : (accepted op imm s).env = s.env := rfl
@[simp] theorem accepted_host (op : BitVec 8) (imm : BitVec 24) (s : State) :
    (accepted op imm s).host = { HostIf.zero with busy := true } := rfl
@[simp] theorem accepted_curOp (op : BitVec 8) (imm : BitVec 24) (s : State) : (accepted op imm s).work.curOp = op := rfl
@[simp] theorem accepted_curImm (op : BitVec 8) (imm : BitVec 24) (s : State) :
    (accepted op imm s).work.curImm = imm := rfl
@[simp] theorem accepted_opnd (op : BitVec 8) (imm : BitVec 24) (s : State) :
    (accepted op imm s).work.opnd = inOperand s := rfl

/-- A command issued to an idle core with no event landing meanwhile. -/
theorem issueCommand_accepted {op : BitVec 8} {imm : BitVec 24} {s : State} (hb : s.host.busy = false)
    (hu : Undisturbed s) : issueCommand (commandWord op imm) s = turns maxTurns (accepted op imm s) := by
  rw [issueCommand_undisturbed _ hb hu, accept_commandWord]; rfl

/-- A command whose check raises an error leaves nothing but the error (60_exceptions.md R206). -/
theorem turns_of_error {op : BitVec 8} {imm : BitVec 24} {s : State} {k : ErrorKind}
    (h : seqStep (accepted op imm s) = raiseError k (accepted op imm s)) (n : Nat) :
    turns (n + 1) (accepted op imm s) = endedInError (errorCode k) s := by
  rw [turns_succ, h, turns_idle rfl]; rfl

theorem operand_wellFormed_iff (o : Operand) : o.wellFormed = true ↔ o.words.length = ceilDiv o.len.toNat 32 := by
  rw [Operand.wellFormed, beq_iff_eq]

theorem operand_string_length_le (o : Operand) : o.string.length ≤ o.len.toNat := by
  rw [Operand.string, leftmost_length]; exact Nat.min_le_left _ _

/-! ### The opcode map -/

theorem seqStep_check_instantiate {s : State} (h : s.phase = .check) (ho : s.work.curOp = 0x01#8) :
    seqStep s = checkInstantiate s := by
  rw [seqStep_check h, phaseCheck, if_pos ho]

theorem seqStep_check_reseed {s : State} (h : s.phase = .check) (ho : s.work.curOp = 0x02#8) :
    seqStep s = checkReseed s := by
  rw [seqStep_check h, phaseCheck, if_neg (by rw [ho]; decide), if_pos ho]

theorem seqStep_check_generate {s : State} (h : s.phase = .check) (ho : s.work.curOp = 0x03#8) :
    seqStep s = checkGenerate s := by
  rw [seqStep_check h, phaseCheck, if_neg (by rw [ho]; decide), if_neg (by rw [ho]; decide), if_pos ho]

theorem seqStep_check_uninstantiate {s : State} (h : s.phase = .check) (ho : s.work.curOp = 0x04#8) :
    seqStep s = checkUninstantiate s := by
  rw [seqStep_check h, phaseCheck, if_neg (by rw [ho]; decide), if_neg (by rw [ho]; decide),
    if_neg (by rw [ho]; decide), if_pos ho]

/-! ### The checks, outcome by outcome -/

theorem checkInstantiate_live {s : State} (h : s.drbg.instantiated = true) :
    checkInstantiate s = raiseError .alreadyInstantiated s := by
  rw [checkInstantiate, if_pos h]

theorem checkInstantiate_strength {s : State} (h : s.drbg.instantiated = false)
    (h1 : s.work.curImm.toNat < Config.minStrength ∨ Config.maxStrength < s.work.curImm.toNat) :
    checkInstantiate s = raiseError .invalidSecurityStrength s := by
  rw [checkInstantiate, if_neg (by simp [h]), if_pos h1]

theorem checkInstantiate_long {s : State} (h : s.drbg.instantiated = false)
    (h1 : ¬ (s.work.curImm.toNat < Config.minStrength ∨ Config.maxStrength < s.work.curImm.toNat))
    (h2 : Config.maxPersBits < s.work.opnd.len.toNat) :
    checkInstantiate s = raiseError .personalizationTooLong s := by
  rw [checkInstantiate, if_neg (by simp [h]), if_neg h1, if_pos h2]

theorem checkInstantiate_malformed {s : State} (h : s.drbg.instantiated = false)
    (h1 : ¬ (s.work.curImm.toNat < Config.minStrength ∨ Config.maxStrength < s.work.curImm.toNat))
    (h2 : s.work.opnd.len.toNat ≤ Config.maxPersBits) (h3 : s.work.opnd.wellFormed = false) :
    checkInstantiate s = raiseError .operandMalformed s := by
  rw [checkInstantiate, if_neg (by simp [h]), if_neg h1, if_neg (Nat.not_lt.mpr h2), if_pos (by simp [h3])]

theorem checkInstantiate_passes {s : State} (h : s.drbg.instantiated = false)
    (h1 : ¬ (s.work.curImm.toNat < Config.minStrength ∨ Config.maxStrength < s.work.curImm.toNat))
    (h2 : s.work.opnd.len.toNat ≤ Config.maxPersBits) (h3 : s.work.opnd.wellFormed = true) :
    checkInstantiate s = { s with phase := .entE } := by
  rw [checkInstantiate, if_neg (by simp [h]), if_neg h1, if_neg (Nat.not_lt.mpr h2), if_neg (by simp [h3])]

theorem checkReseed_none {s : State} (h0 : s.work.curImm = 0) (h : s.drbg.instantiated = false) :
    checkReseed s = raiseError .notInstantiated s := by
  rw [checkReseed, if_neg (by simp [h0]), if_pos (by simp [h])]

theorem checkReseed_long {s : State} (h0 : s.work.curImm = 0) (h : s.drbg.instantiated = true)
    (h2 : Config.maxAddinBits < s.work.opnd.len.toNat) : checkReseed s = raiseError .additionalInputTooLong s := by
  rw [checkReseed, if_neg (by simp [h0]), if_neg (by simp [h]), if_pos h2]

theorem checkReseed_malformed {s : State} (h0 : s.work.curImm = 0) (h : s.drbg.instantiated = true)
    (h2 : s.work.opnd.len.toNat ≤ Config.maxAddinBits) (h3 : s.work.opnd.wellFormed = false) :
    checkReseed s = raiseError .operandMalformed s := by
  rw [checkReseed, if_neg (by simp [h0]), if_neg (by simp [h]), if_neg (Nat.not_lt.mpr h2), if_pos (by simp [h3])]

theorem checkReseed_passes {s : State} (h0 : s.work.curImm = 0) (h : s.drbg.instantiated = true)
    (h2 : s.work.opnd.len.toNat ≤ Config.maxAddinBits) (h3 : s.work.opnd.wellFormed = true) :
    checkReseed s = { s with phase := .entE } := by
  rw [checkReseed, if_neg (by simp [h0]), if_neg (by simp [h]), if_neg (Nat.not_lt.mpr h2), if_neg (by simp [h3])]

theorem curImm_ne_zero {s : State} (h : 1 ≤ s.work.curImm.toNat) : ¬ s.work.curImm = 0 :=
  fun c => by rw [c] at h; exact absurd h (by decide)

theorem checkGenerate_none {s : State} (h : s.drbg.instantiated = false) :
    checkGenerate s = raiseError .notInstantiated s := by
  rw [checkGenerate, if_pos (by simp [h])]

theorem checkGenerate_zero {s : State} (h : s.drbg.instantiated = true) (h0 : s.work.curImm = 0) :
    checkGenerate s = raiseError .invalidLength s := by
  rw [checkGenerate, if_neg (by simp [h]), if_pos h0]

theorem checkGenerate_many {s : State} (h : s.drbg.instantiated = true)
    (h1 : Config.maxRequestBits < s.work.curImm.toNat) : checkGenerate s = raiseError .requestedBitsExceedsMax s := by
  rw [checkGenerate, if_neg (by simp [h]), if_neg (curImm_ne_zero (Nat.zero_lt_of_lt h1)), if_pos h1]

theorem checkGenerate_long {s : State} (h : s.drbg.instantiated = true) (h0 : 1 ≤ s.work.curImm.toNat)
    (h1 : s.work.curImm.toNat ≤ Config.maxRequestBits) (h2 : Config.maxAddinBits < s.work.opnd.len.toNat) :
    checkGenerate s = raiseError .additionalInputTooLong s := by
  rw [checkGenerate, if_neg (by simp [h]), if_neg (curImm_ne_zero h0), if_neg (Nat.not_lt.mpr h1), if_pos h2]

theorem checkGenerate_malformed {s : State} (h : s.drbg.instantiated = true) (h0 : 1 ≤ s.work.curImm.toNat)
    (h1 : s.work.curImm.toNat ≤ Config.maxRequestBits) (h2 : s.work.opnd.len.toNat ≤ Config.maxAddinBits)
    (h3 : s.work.opnd.wellFormed = false) : checkGenerate s = raiseError .operandMalformed s := by
  rw [checkGenerate, if_neg (by simp [h]), if_neg (curImm_ne_zero h0), if_neg (Nat.not_lt.mpr h1),
    if_neg (Nat.not_lt.mpr h2), if_pos (by simp [h3])]

theorem checkGenerate_exhausted {s : State} (h : s.drbg.instantiated = true) (h0 : 1 ≤ s.work.curImm.toNat)
    (h1 : s.work.curImm.toNat ≤ Config.maxRequestBits) (h2 : s.work.opnd.len.toNat ≤ Config.maxAddinBits)
    (h3 : s.work.opnd.wellFormed = true) (h4 : Config.reseedInterval < s.drbg.reseedCounter.toNat) :
    checkGenerate s = raiseError .reseedRequired s := by
  rw [checkGenerate, if_neg (by simp [h]), if_neg (curImm_ne_zero h0), if_neg (Nat.not_lt.mpr h1),
    if_neg (Nat.not_lt.mpr h2), if_neg (by simp [h3]), if_pos (by rw [counterExhausted]; exact decide_eq_true h4)]

theorem checkGenerate_passes {s : State} (h : s.drbg.instantiated = true) (h0 : 1 ≤ s.work.curImm.toNat)
    (h1 : s.work.curImm.toNat ≤ Config.maxRequestBits) (h2 : s.work.opnd.len.toNat ≤ Config.maxAddinBits)
    (h3 : s.work.opnd.wellFormed = true) (h4 : s.drbg.reseedCounter.toNat ≤ Config.reseedInterval) :
    checkGenerate s = { s with phase := if s.work.opnd.string.length = 0 then .hashgen else .addin } := by
  rw [checkGenerate, if_neg (by simp [h]), if_neg (curImm_ne_zero h0), if_neg (Nat.not_lt.mpr h1),
    if_neg (Nat.not_lt.mpr h2), if_neg (by simp [h3]),
    if_neg (by rw [counterExhausted, decide_eq_true_eq]; exact Nat.not_lt.mpr h4)]

/-! ### `EntropyGet`, turn by turn (43_entropy_sync.md R194) -/

section
variable (m : BitVec 32) (take : BitString → State → State) {s : State}

theorem entropyGet_idle (h : s.ent.state = .idle) : entropyGet m take s = { s with ent := entRequest m s.ent } := by
  rw [entropyGet, h]

theorem entropyGet_req (h : s.ent.state = .req) : entropyGet m take s = sourceTurn s := by
  rw [entropyGet, h]

theorem entropyGet_fail (h : s.ent.state = .fail) : entropyGet m take s = raiseError .insufficientEntropy s := by
  rw [entropyGet, h]; rfl

theorem entropyGet_short (h : s.ent.state = .ready) (hl : s.ent.buf.length < s.ent.min.toNat) :
    entropyGet m take s = raiseError .insufficientEntropy s := by
  rw [entropyGet, h]; simp only [if_pos hl]; rfl

theorem entropyGet_ready (h : s.ent.state = .ready) (hl : s.ent.min.toNat ≤ s.ent.buf.length) :
    entropyGet m take s = take s.ent.buf { s with ent := entTake s.ent } := by
  rw [entropyGet, h]; simp only [if_neg (Nat.not_lt.mpr hl)]

end

theorem sourceTurn_deliver {s : State} {d : BitString} {rest : List Answer} (h : s.env.source = .deliver d :: rest)
    (hl : d.length ≤ Config.entMaxBits) (he : s.ent.state = .req) :
    sourceTurn s =
      { s with
        ent := { s.ent with buf := d, len := BitVec.ofNat 64 d.length, state := .ready }
        env := { s.env with source := rest } } := by
  rw [sourceTurn, h]; simp only; rw [if_pos hl, entDeliver, if_pos he]

theorem sourceTurn_fail {s : State} {rest : List Answer} (h : s.env.source = .fail :: rest)
    (he : s.ent.state = .req) :
    sourceTurn s = { s with ent := { s.ent with state := .fail }, env := { s.env with source := rest } } := by
  rw [sourceTurn, h]; simp only; rw [entFail, if_pos he]

section
variable {m : BitVec 32} {take : BitString → State → State} {p : Phase} {s : State}

/-- The three turns of a request that the source answers with enough bits: the request, the answer, the taking. The phase
`p` is one whose turn is `EntropyGet` of `m` in every state with the sequencer and DRBG registers of `s`. -/
theorem turns_entropy {d : BitString} {rest : List Answer}
    (hseq : ∀ u : State, u.phase = p → u.work = s.work → u.drbg = s.drbg → seqStep u = entropyGet m take u)
    (hp : s.phase = p) (hs : s.ent.state = .idle) (h : s.env.source = .deliver d :: rest)
    (hl : d.length ≤ Config.entMaxBits) (hm : m.toNat ≤ d.length) (n : Nat) :
    turns (n + 3) s =
      turns n (take d { s with ent := { Sync.zero with min := m }, env := { s.env with source := rest } }) := by
  rw [Nat.add_comm n 3, turns_add]
  refine congrArg (turns n) ?_
  rw [turns_succ, hseq s hp rfl rfl, entropyGet_idle _ _ hs, turns_succ,
    hseq { s with ent := entRequest m s.ent } hp rfl rfl, entropyGet_req _ _ rfl,
    sourceTurn_deliver (s := { s with ent := entRequest m s.ent }) h hl rfl, turns_succ,
    hseq { s with
      ent := { entRequest m s.ent with buf := d, len := BitVec.ofNat 64 d.length, state := .ready }
      env := { s.env with source := rest } } hp rfl rfl,
    entropyGet_ready _ _ rfl hm]
  rfl

/-- The three turns of a request that fails or is answered with too few bits. -/
theorem turns_entropy_error {a : Answer} {rest : List Answer}
    (hseq : ∀ u : State, u.phase = p → u.work = s.work → u.drbg = s.drbg → seqStep u = entropyGet m take u)
    (hp : s.phase = p) (hs : s.ent.state = .idle) (h : s.env.source = a :: rest)
    (ha : a = .fail ∨ ∃ d, a = .deliver d ∧ d.length ≤ Config.entMaxBits ∧ d.length < m.toNat) (n : Nat) :
    turns (n + 3) s = raiseError .insufficientEntropy { s with env := { s.env with source := rest } } := by
  rw [Nat.add_comm n 3, turns_add]
  rcases ha with rfl | ⟨d, rfl, hl, hm⟩
  · rw [turns_succ, hseq s hp rfl rfl, entropyGet_idle _ _ hs, turns_succ,
      hseq { s with ent := entRequest m s.ent } hp rfl rfl, entropyGet_req _ _ rfl,
      sourceTurn_fail (s := { s with ent := entRequest m s.ent }) h rfl, turns_succ,
      hseq { s with
        ent := { entRequest m s.ent with state := .fail }, env := { s.env with source := rest } } hp rfl rfl,
      entropyGet_fail _ _ rfl, turns_zero, turns_idle rfl]
    rfl
  · rw [turns_succ, hseq s hp rfl rfl, entropyGet_idle _ _ hs, turns_succ,
      hseq { s with ent := entRequest m s.ent } hp rfl rfl, entropyGet_req _ _ rfl,
      sourceTurn_deliver (s := { s with ent := entRequest m s.ent }) h hl rfl, turns_succ,
      hseq { s with
        ent := { entRequest m s.ent with buf := d, len := BitVec.ofNat 64 d.length, state := .ready }
        env := { s.env with source := rest } } hp rfl rfl,
      entropyGet_short _ _ rfl hm, turns_zero, turns_idle rfl]
    rfl

end

/-! ### SEED_V, SEED_C and COMPLETE of INSTANTIATE and RESEED (R160, R168) -/

/-- SEED_V: `V` is derived from the seed material. -/
theorem phaseSeedV_spec {s : State} (hl : 40 + (seedMaterial s).length < 2 ^ 64) :
    ∃ E w, phaseSeedV s =
        { s with eng := E, work := w, drbg := { s.drbg with V := deriveSeed (seedMaterial s) }, phase := .seedC } ∧
      w.curOp = s.work.curOp ∧ w.curImm = s.work.curImm := by
  obtain ⟨E, e⟩ := runDerive_spec (seedMaterial s) seedRequest s hl
  rw [phaseSeedV, e, deriveSeed]
  generalize deriveDigests _ _ _ = a
  generalize derive _ _ = r
  generalize BitVec.ofNat 8 _ = c
  exact ⟨_, _, rfl, rfl, rfl⟩

/-- SEED_C: `C` is derived from the new `V`. -/
theorem phaseSeedC_spec (s : State) :
    ∃ E w, phaseSeedC s =
        { s with eng := E, work := w, drbg := { s.drbg with C := deriveSeed (cMaterial s.drbg.V) }, phase := .complete } ∧
      w.curOp = s.work.curOp ∧ w.curImm = s.work.curImm := by
  obtain ⟨E, e⟩ := runDerive_spec (cMaterial s.drbg.V) seedRequest s (by unfold cMaterial byte; simp [Config.seedLen])
  rw [phaseSeedC, e, deriveSeed]
  generalize deriveDigests _ _ _ = a
  generalize derive _ _ = r
  generalize BitVec.ofNat 8 _ = c
  exact ⟨_, _, rfl, rfl, rfl⟩

theorem commit_instantiate {s : State} (h : s.work.curOp = 0x01#8) : commit s = commitInstantiate s := by
  rw [commit, if_pos h]

theorem commit_reseed {s : State} (h : s.work.curOp = 0x02#8) : commit s = commitReseed s := by
  rw [commit, if_neg (by rw [h]; decide), if_pos h]

theorem commit_generate {s : State} (h : s.work.curOp = 0x03#8) : commit s = commitGenerate s := by
  rw [commit, if_neg (by rw [h]; decide), if_neg (by rw [h]; decide), if_pos h]

theorem commit_uninstantiate {s : State} (h : s.work.curOp = 0x04#8) : commit s = commitUninstantiate s := by
  rw [commit, if_neg (by rw [h]; decide), if_neg (by rw [h]; decide), if_neg (by rw [h]; decide), if_pos h]

/-- COMPLETE, and the idle core after it. -/
theorem turns_complete {s : State} (h : s.phase = .complete) (n : Nat) :
    turns (n + 1) s =
      idleState (commit s).drbg { (commit s).host with done := true, busy := false } (commit s).env := by
  rw [turns_succ, seqStep_complete h, phaseComplete, finishCommand_eq, turns_idle rfl]

/-- The three last turns of INSTANTIATE and of RESEED, up to the writes at completion. -/
theorem turns_seed {s : State} (h : s.phase = .seedV) (hl : 40 + (seedMaterial s).length < 2 ^ 64) (n : Nat) :
    ∃ E w, turns (n + 3) s = turns (n + 1)
        { s with
          eng := E
          work := w
          drbg := { s.drbg with
            V := deriveSeed (seedMaterial s), C := deriveSeed (cMaterial (deriveSeed (seedMaterial s))) }
          phase := .complete } ∧
      w.curOp = s.work.curOp ∧ w.curImm = s.work.curImm := by
  obtain ⟨E, w, e, w1, w2⟩ := phaseSeedV_spec hl
  obtain ⟨F, x, f, x1, x2⟩ := phaseSeedC_spec
    { s with eng := E, work := w, drbg := { s.drbg with V := deriveSeed (seedMaterial s) }, phase := .seedC }
  refine ⟨F, x, ?_, x1.trans w1, x2.trans w2⟩
  rw [turns_succ, seqStep_seedV h, e, turns_succ, seqStep_seedC rfl, f]

/-- The last turns of INSTANTIATE. -/
theorem turns_seed_instantiate {s : State} (h : s.phase = .seedV) (hl : 40 + (seedMaterial s).length < 2 ^ 64)
    (ho : s.work.curOp = 0x01#8) (n : Nat) :
    turns (n + 3) s =
      idleState
        { seeded (seedMaterial s) s.drbg with instantiated := true, strength := s.work.curImm.setWidth 9 }
        { s.host with done := true, busy := false } s.env := by
  obtain ⟨E, w, e, w1, w2⟩ := turns_seed h hl n
  rw [e, turns_complete rfl, commit_instantiate (w1.trans ho)]
  simp only [commitInstantiate_drbg, commitInstantiate_host, commitInstantiate_env, seeded, w2]

/-- The last turns of RESEED. -/
theorem turns_seed_reseed {s : State} (h : s.phase = .seedV) (hl : 40 + (seedMaterial s).length < 2 ^ 64)
    (ho : s.work.curOp = 0x02#8) (n : Nat) :
    turns (n + 3) s =
      idleState (seeded (seedMaterial s) s.drbg) { s.host with done := true, busy := false } s.env := by
  obtain ⟨E, w, e, w1, w2⟩ := turns_seed h hl n
  rw [e, turns_complete rfl, commit_reseed (w1.trans ho)]
  simp only [commitReseed_drbg, commitReseed_host, commitReseed_env, seeded]

/-! ### ADDIN, HASHGEN, UPDATE and COMPLETE of GENERATE (R161 to R164, R168) -/

theorem phaseAddin_spec {s : State} (hl : 448 + s.work.opnd.string.length < 2 ^ 64) :
    ∃ E, phaseAddin s =
      { s with
        eng := E
        drbg := { s.drbg with
          V := s.drbg.V + (sha256 (byte 0x02 ++ toBits s.drbg.V ++ s.work.opnd.string)).setWidth Config.seedLen }
        phase := .hashgen } := by
  have hd := engineHash_digest [byte 0x02, toBits s.drbg.V, s.work.opnd.string] s.eng 
    (by simp [byte, Config.seedLen]; omega)
  have hm : [byte 0x02, toBits s.drbg.V, s.work.opnd.string].flatten =
      byte 0x02 ++ toBits s.drbg.V ++ s.work.opnd.string := by simp
  rw [hm] at hd
  refine ⟨engineHash [byte 0x02, toBits s.drbg.V, s.work.opnd.string] s.eng, ?_⟩
  rw [phaseAddin, hd]

theorem phaseUpdate_spec (s : State) :
    ∃ E, phaseUpdate s =
      { s with
        eng := E
        drbg := { s.drbg with V := updateV s.drbg.V s.drbg.C s.drbg.reseedCounter }
        phase := .complete } := by
  have hd := engineHash_digest [byte 0x03, toBits s.drbg.V] s.eng (by simp [byte, Config.seedLen])
  have hm : [byte 0x03, toBits s.drbg.V].flatten = byte 0x03 ++ toBits s.drbg.V := by simp
  rw [hm] at hd
  refine ⟨engineHash [byte 0x03, toBits s.drbg.V] s.eng, ?_⟩
  rw [phaseUpdate, hd, updateV]

theorem phaseHashgen_spec (s : State) :
    ∃ E w, phaseHashgen s = { s with eng := E, work := w, phase := .update } ∧
      w.curOp = s.work.curOp ∧ w.curImm = s.work.curImm ∧ w.ret = hashgen s.drbg.V s.work.curImm.toNat := by
  obtain ⟨E, e⟩ := runHashgen_spec s.work.curImm.toNat s
  rw [phaseHashgen, e]
  generalize hashgen _ _ = r
  generalize s.drbg.V + _ = d
  generalize BitVec.ofNat 12 _ = c
  exact ⟨_, _, rfl, rfl, rfl, rfl⟩

/-- COMPLETE of GENERATE (R162, R164). -/
theorem turns_complete_generate {s : State} (h : s.phase = .complete) (ho : s.work.curOp = 0x03#8) (n : Nat) :
    turns (n + 1) s =
      idleState { s.drbg with reseedCounter := s.drbg.reseedCounter + 1 }
        { s.host with
          outLen := s.work.curImm.setWidth 20, outWords := pack32 s.work.ret, outRd := 0, done := true, busy := false }
        s.env := by
  rw [turns_complete h, commit_generate ho]
  rfl

/-- The same, with the registers that HASHGEN and UPDATE have written given one by one. -/
theorem turns_complete_updated (s : State) (E : Engine) (w : Work) (v : Seed) (ho : w.curOp = 0x03#8) (n : Nat) :
    turns (n + 1) { s with eng := E, work := w, drbg := { s.drbg with V := v }, phase := .complete } =
      idleState { s.drbg with V := v, reseedCounter := s.drbg.reseedCounter + 1 }
        { s.host with
          outLen := w.curImm.setWidth 20, outWords := pack32 w.ret, outRd := 0, done := true, busy := false } s.env :=
  turns_complete_generate rfl ho n

/-- The last three turns of GENERATE. -/
theorem turns_hashgen {s : State} (h : s.phase = .hashgen) (ho : s.work.curOp = 0x03#8) (n : Nat) :
    turns (n + 3) s =
      idleState
        { s.drbg with
          V := updateV s.drbg.V s.drbg.C s.drbg.reseedCounter, reseedCounter := s.drbg.reseedCounter + 1 }
        { s.host with
          outLen := s.work.curImm.setWidth 20
          outWords := pack32 (hashgen s.drbg.V s.work.curImm.toNat)
          outRd := 0, done := true, busy := false } s.env := by
  obtain ⟨E, w, e, w1, w2, w3⟩ := phaseHashgen_spec s
  obtain ⟨F, f⟩ := phaseUpdate_spec { s with eng := E, work := w, phase := .update }
  have y := turns_complete_updated s F w (updateV s.drbg.V s.drbg.C s.drbg.reseedCounter) (w1.trans ho) n
  rw [w2, w3] at y
  rw [← y, turns_succ, seqStep_hashgen h, e, turns_succ, seqStep_update rfl, f]

end Sys2Proof.Machine
end

