-- ==== Sys2Proof/Laws/Host.lean ====
section
/-! SUPPORT. Host writes of an idle core, and what a sequence of them leaves in the IN buffer. -/

namespace Sys2Proof.Machine

/-- The words cut off a string carry it, zeros after it (00_scope.md R14). -/
theorem wordsBits_cutWords (n : Nat) : ∀ p : BitString, p.length ≤ 32 * n → n ≤ (p.length + 31) / 32 → 
    wordsBits (cutWords n p) = p ++ List.replicate (n * 32 - p.length) false := by
  induction n with
  | zero => intro p h _; have : p = [] := List.eq_nil_of_length_eq_zero (by omega); subst this; rfl
  | succ n ih =>
    intro p h h2
    have hw : wordsBits (cutWords (n + 1) p) = toBits (headWord p) ++ wordsBits (cutWords n (p.drop 32)) := by
      simp [wordsBits, cutWords]
    rw [hw, headWord, toBits_ofBits 32 _ (by simp; omega), ih _ (by simp; omega) (by simp; omega)]
    by_cases c : 32 ≤ p.length
    · have : 32 - p.length = 0 := by omega
      rw [this, List.replicate_zero, List.append_nil, ← List.append_assoc, List.take_append_drop]
      congr 2; simp; omega
    · have hd : p.drop 32 = [] := List.drop_eq_nil_of_le (by omega)
      have ht : p.take 32 = p := List.take_of_length_le (by omega)
      rw [hd, ht, List.nil_append, List.append_assoc, List.replicate_append_replicate]
      congr 2; simp; omega

theorem hostWrite_lenLo (v : Word) {s : State} (h : s.host.busy = false) : hostWrite 2 v s = writeInLenLo v s := by
  unfold hostWrite; exact if_neg (by simp [h])

theorem hostWrite_lenHi (v : Word) {s : State} (h : s.host.busy = false) : hostWrite 3 v s = writeInLenHi v s := by
  unfold hostWrite; exact if_neg (by simp [h])

theorem hostWrite_data (v : Word) {s : State} (h : s.host.busy = false) : hostWrite 4 v s = pushInData v s := by
  unfold hostWrite; exact if_neg (by simp [h])

/-- Pushing words while the core is idle appends them in order (10_state.md R44). -/
theorem writeAll_words (ws : List Word) : ∀ {s : State}, s.host.busy = false → 
   writeAll (ws.map (writeNow 4)) s = { s with host := { s.host with inWords := s.host.inWords ++ ws } } := by
  induction ws with
  | nil => intro s h; simp [writeAll]
  | cons w ws ih =>
    intro s h
    have : writeAll ((w :: ws).map (writeNow 4)) s = writeAll (ws.map (writeNow 4)) (hostWrite 4 w s) := rfl
    rw [this, hostWrite_data w h, ih (by exact h)]
    simp

end Sys2Proof.Machine
end

