-- ==== Sys2Proof/Laws/Message.lean ====
section
/-! SUPPORT. What SHA.ABSORB and SHA.FINAL do to `fill` and `mlen`, and the words of a block bit by bit. -/

namespace Sys2Proof.Machine

/-- The words of a block, bit by bit (00_scope.md R14). -/
theorem blockWord_getMsbD (B : Block) (i j : Nat) (hi : i < 16) (hj : j < 32) : (blockWord B i).getMsbD j = B.getMsbD (32 * i + j) := by
  unfold blockWord
  have h1 : 32 - 1 - j < 32 := by omega
  have h2 : 32 * i + j < 512 := by omega
  simp only [BitVec.getMsbD, BitVec.getLsbD_extractLsb', Config.word, Config.blockBits, h1, h2, hj, decide_true,
    Bool.true_and]
  congr 1; omega

theorem engineAbsorbBit_mlen (e : Engine) (b : Bool) : (engineAbsorbBit e b).mlen = e.mlen + 1 := by
  unfold engineAbsorbBit engineFlushFull
  split
  · rw [engineFlush_mlen]
  · rfl

theorem engineAbsorbBit_fill (e : Engine) (b : Bool) (h : e.fill.toNat < 512) : (engineAbsorbBit e b).fill.toNat = (e.fill.toNat + 1) % 512 := by
  unfold engineAbsorbBit engineFlushFull
  have := fill_succ_eq e h
  have h2 := fill_succ_toNat e h
  split
  · rename_i c
    rw [engineFlush_fill]
    have : e.fill.toNat = 511 := this.mp c
    rw [this]; rfl
  · rename_i c
    have : ¬ e.fill.toNat = 511 := fun x => c (this.mpr x)
    show (e.fill + 1).toNat = _
    omega

/-- What absorbing a string does to the two counters (40_sha256_engine.md R124). -/
theorem engineAbsorb_counts (p : BitString) : ∀ e : Engine, e.fill.toNat < 512 → e.mlen.toNat + p.length < 2 ^ 64 → 
   (engineAbsorb p e).mlen.toNat = e.mlen.toNat + p.length ∧ (engineAbsorb p e).fill.toNat = (e.fill.toNat + p.length) % 512 := by
  induction p with
  | nil => intro e h1 h2; exact ⟨rfl, (Nat.mod_eq_of_lt h1).symm⟩
  | cons b p ih =>
    intro e h1 h2
    rw [List.length_cons] at h2 ⊢
    have f := engineAbsorbBit_fill e b h1
    have m : (engineAbsorbBit e b).mlen.toNat = e.mlen.toNat + 1 := by
      rw [engineAbsorbBit_mlen, BitVec.toNat_add]
      show (_ + 1) % 2 ^ 64 = _; omega
    obtain ⟨a, c⟩ := ih (engineAbsorbBit e b) (by omega) (by omega)
    exact ⟨a.trans (by omega), c.trans (by omega)⟩

/-- The padding bits do not count in `mlen` (40_sha256_engine.md R125). -/
theorem engineFinal_mlen (e : Engine) : (engineFinal e).mlen = e.mlen := by
  unfold engineFinal engineCloseBlock engineFlushFull
  simp only [engineProcess_mlen]
  split <;> split <;> simp

theorem toBits_append {m n : Nat} (x : BitVec m) (y : BitVec n) : toBits (x ++ y) = toBits x ++ toBits y := by
  apply List.ext_getElem?
  intro i
  rw [toBits_getElem?]
  by_cases h : i < m
  · rw [List.getElem?_append_left (by simpa using h), toBits_getElem?, if_pos h, if_pos (by omega), BitVec.getMsbD_append]; simp [h]
  · rw [List.getElem?_append_right (by simp; omega), toBits_getElem?, toBits_length]
    by_cases h2 : i < m + n
    · rw [if_pos h2, if_pos (by omega), BitVec.getMsbD_append]; simp [h]
    · rw [if_neg h2, if_neg (by omega)]

end Sys2Proof.Machine
end

