-- ==== Sys2Proof/Laws/PerInstr.lean ====
section
/-! SUPPORT. The laws stated for every instruction, one lemma a constructor. -/

namespace Sys2Proof.Laws.LegalCode

/-- The encoder writes no reserved opcode, no illegal immediate and no unused micro-operation code (30_encoding.md R82, R84,
R95): what it writes is a word with an opcode of the map, or a code of the micro-operation table. -/
def Statement (i : Instr) : Prop :=
  match encode i with
  | .command w => opcodeField w = 1 ∨ opcodeField w = 3 ∨ ((opcodeField w = 2 ∨ opcodeField w = 4) ∧ immField w = 0)
  | .uop code _ => code ≠ 0x7 ∧ code ≠ 0xA ∧ code ≠ 0xB ∧ code ≠ 0xF

theorem instantiate (strength : BitVec 24) : Statement (.instantiate strength) := by
  simp [Statement, encode, Machine.opcodeField_commandWord]

theorem reseed : Statement .reseed := by
  simp [Statement, encode, Machine.opcodeField_commandWord, Machine.immField_commandWord]

theorem generate (bits : BitVec 24) : Statement (.generate bits) := by
  simp [Statement, encode, Machine.opcodeField_commandWord]

theorem uninstantiate : Statement .uninstantiate := by
  simp [Statement, encode, Machine.opcodeField_commandWord, Machine.immField_commandWord]

theorem uNop : Statement .uNop := by simp [Statement, encode]

theorem shaInit : Statement .shaInit := by simp [Statement, encode]

theorem shaAbsorb (s : BitString) : Statement (.shaAbsorb s) := by simp [Statement, encode]

theorem shaFinal : Statement .shaFinal := by simp [Statement, encode]

theorem shaLoad (block : Block) : Statement (.shaLoad block) := by simp [Statement, encode]

theorem shaRound : Statement .shaRound := by simp [Statement, encode]

theorem shaFold : Statement .shaFold := by simp [Statement, encode]

theorem dfDerive (input : BitString) (bits : BitVec 32) : Statement (.dfDerive input bits) := by simp [Statement, encode]

theorem hgHashgen (bits : BitVec 32) : Statement (.hgHashgen bits) := by simp [Statement, encode]

theorem entRequest (minBits : BitVec 32) : Statement (.entRequest minBits) := by simp [Statement, encode]

theorem entDeliver (s : BitString) : Statement (.entDeliver s) := by simp [Statement, encode]

theorem entFail : Statement .entFail := by simp [Statement, encode]

end Sys2Proof.Laws.LegalCode
end

