-- ==== Sys2Proof/WellFormed.lean ====
section
/-! DEFINITION. What the spec asks of an instruction's own fields. A command's immediate may be any 24-bit
number: an illegal one is an error outcome of the command (30_encoding.md R83), not an ill-formed command. -/

namespace Sys2Proof

/-- The operand conditions of the micro-operations: SHA.ABSORB's precondition at `mlen = 0` (R124),
the message bound on what DF.DERIVE hashes, 40 header bits and the input (R89, R110), HG.HASHGEN's
operand range (R163), and the bound on a delivery (R193, R197). -/
def Instr.wellFormed : Instr → Bool
  | .instantiate _ => true
  | .reseed => true
  | .generate _ => true
  | .uninstantiate => true
  | .uNop => true
  | .shaInit => true
  | .shaAbsorb s => decide (s.length < Config.messageBound)
  | .shaFinal => true
  | .shaLoad _ => true
  | .shaRound => true
  | .shaFold => true
  | .dfDerive input _ => decide (40 + input.length < Config.messageBound)
  | .hgHashgen bits => decide (1 ≤ bits.toNat ∧ bits.toNat ≤ Config.maxRequestBits)
  | .entRequest _ => true
  | .entDeliver s => decide (s.length ≤ Config.entMaxBits)
  | .entFail => true

end Sys2Proof
end

