-- ==== Sys2Proof/Tests/Slice0.lean ====
section
/-! SUPPORT. The tests: ill-formed terms refused, words written out from the encodings, one step at a time with the results that
spec/ prints, and for every statement with hypotheses a witness that meets them. -/

namespace Sys2Proof.Tests

open Sys2Proof.Machine

/-! ### Ill-formed terms -/

theorem test_illformed_absorb (n : Nat) (h : n = 2 ^ 64) :
    (Instr.shaAbsorb (List.replicate n true)).wellFormed = false := by
  simp [Instr.wellFormed, Config.messageBound, Config.lenFieldBits]; omega

theorem test_illformed_derive (n : Nat) (h : n = 2 ^ 64 - 40) :
    (Instr.dfDerive (List.replicate n true) 440).wellFormed = false := by
  simp [Instr.wellFormed, Config.messageBound, Config.lenFieldBits]; omega

theorem test_illformed_hashgen_zero : (Instr.hgHashgen 0).wellFormed = false := by decide

theorem test_illformed_hashgen_long : (Instr.hgHashgen 0x080001).wellFormed = false := by decide

theorem test_illformed_deliver (n : Nat) (h : n = 2 ^ 35 + 1) :
    (Instr.entDeliver (List.replicate n true)).wellFormed = false := by
  simp [Instr.wellFormed, Config.entMaxBits]; omega

/-! ### Decoding, from words written out from 30_encoding.md R81, R82, R95 -/

/-- OPCODE 0000_0001, IMM24 = 256. -/
theorem test_decode_instantiate :
    decodeCommand 0b00000001_000000000000000100000000#32 = .ok (.instantiate 256) := rfl

/-- OPCODE 0000_0010, IMM24 = 0. -/
theorem test_decode_reseed : decodeCommand 0b00000010_000000000000000000000000#32 = .ok .reseed := rfl

/-- OPCODE 0000_0011, IMM24 = 2^24 - 1, the largest. -/
theorem test_decode_generate :
    decodeCommand 0b00000011_111111111111111111111111#32 = .ok (.generate 16777215) := rfl

/-- OPCODE 0000_0100, IMM24 = 0. -/
theorem test_decode_uninstantiate :
    decodeCommand 0b00000100_000000000000000000000000#32 = .ok .uninstantiate := rfl

theorem test_decode_reserved :
    decodeCommand 0x00000000 = .error .reservedOpcode ∧ decodeCommand 0x05000000 = .error .reservedOpcode ∧
    decodeCommand 0xFF123456 = .error .reservedOpcode ∧ decodeCommand 0x02000001 = .error .reseedImmediate ∧
    decodeCommand 0x04800000 = .error .uninstantiateImmediate := ⟨rfl, rfl, rfl, rfl, rfl⟩

theorem test_decode_micro_ops :
    decodeUop 0b0000 .none = .ok .uNop ∧ decodeUop 0b0001 .none = .ok .shaInit ∧
    decodeUop 0b0010 { UopArgs.none with bits := [true] } = .ok (.shaAbsorb [true]) ∧
    decodeUop 0b0011 .none = .ok .shaFinal ∧
    decodeUop 0b0100 { UopArgs.none with block := 5 } = .ok (.shaLoad 5) ∧
    decodeUop 0b0101 .none = .ok .shaRound ∧ decodeUop 0b0110 .none = .ok .shaFold ∧
    decodeUop 0b1000 { bits := [true], block := 0, num := 440 } = .ok (.dfDerive [true] 440) ∧
    decodeUop 0b1001 { UopArgs.none with num := 100 } = .ok (.hgHashgen 100) ∧
    decodeUop 0b1100 { UopArgs.none with num := 128 } = .ok (.entRequest 128) ∧
    decodeUop 0b1101 { UopArgs.none with bits := [false] } = .ok (.entDeliver [false]) ∧
    decodeUop 0b1110 .none = .ok .entFail :=
  ⟨rfl, rfl, rfl, rfl, rfl, rfl, rfl, rfl, rfl, rfl, rfl, rfl⟩

/-- The rows of spec/opcode_table.json: 32-bit words and 4-bit codes. -/
theorem test_decode_table_rows :
    decodeTableWord 32 0x01000000 = some (.instantiate 0) ∧ decodeTableWord 32 0x02000000 = some .reseed ∧
    decodeTableWord 8 0x1 = some .shaInit ∧ decodeTableWord 4 0xE = some .entFail ∧ decodeTableWord 8 0x7 = none :=
  ⟨rfl, rfl, rfl, rfl, rfl⟩

/-! ### Small states -/

/-- The next state of an outcome that has one. -/
def nextOf : Host.Outcome State Fault Refusal → Option State
  | .next s => some s
  | .fault _ => none
  | .refused _ => none

/-- The `STATUS` word after an outcome. -/
def statusOf (o : Host.Outcome State Fault Refusal) : Option Word := (nextOf o).map statusWord

/-- The core after reset with events to come. -/
def fresh (l : List Input) : State := withInputs l State.reset

/-- An idle core with an instance. -/
def live (ctr : BitVec 64) : State :=
  { State.reset with drbg := { V := 5, C := 9, reseedCounter := ctr, instantiated := true, strength := 256 } }

/-- A core in which a RESEED waits for 256 bits. -/
def waiting (l : List Input) : State :=
  withInputs l { live 1 with
    phase := .entE, work := { Work.zero with curOp := 0x02 }
    ent := { Sync.zero with state := .req, min := 256 }, host := { HostIf.zero with busy := true } }

/-- A core with a declared operand length and operand words. -/
def withOperand (len : BitVec 64) (ws : List Word) (s : State) : State :=
  { s with host := { s.host with inLen := len, inWords := ws } }

/-- A core whose EntropySource has a script. -/
def withSource (l : List Answer) (s : State) : State := { s with env := { s.env with source := l } }

/-- The block of "abc" (40_sha256_engine.md R125). -/
def blockAbc : Block := 0x61626380#512 <<< 480 ||| 0x18#512

/-- The engine before round 0 of "abc". -/
def loadedAbc : State := { State.reset with eng := engineLoad blockAbc (engineInit Engine.zero) }

/-- `V` after the INSTANTIATE of program 1 (95_test_vectors.md). -/
def programV : Seed :=
  0xb7fe6938cbd5059811c50580780123d49b7cfe58f879cd8cd68875216dd833ea9e8b20e2ff5522f89e7d9e9ef8cdeafc1116081be9dc77

/-! ### One step at a time -/

/-- The examples of R111 to R116. -/
theorem test_word_functions :
    sigma0 1 = 0x02004000 ∧ sigma1 1 = 0x0000A000 ∧ bigSigma0 1 = 0x40080400 ∧ bigSigma1 1 = 0x04200080 ∧
    sigma0 0xFFFFFFFF = 0x1FFFFFFF ∧ sigma1 0xFFFFFFFF = 0x003FFFFF ∧
    ch 0xF0F0F0F0 0xAAAAAAAA 0x55555555 = 0xA5A5A5A5 ∧ maj 0xF0F0F0F0 0xCCCCCCCC 0xAAAAAAAA = 0xE8E8E8E8 := by decide

theorem test_uNop_keeps_pending_request : statusOf (exec .uNop (waiting [])) = some 0x00000029 := by decide

/-- The example of R120. -/
theorem test_shaInit : (nextOf (exec .shaInit State.reset)).map (fun t => t.eng.H[0]) = some 0x6A09E667 := by decide

/-- The example of R124. -/
theorem test_shaAbsorb_abc :
    (nextOf (exec (.shaAbsorb (toBits 0x616263#24)) { State.reset with eng := engineInit Engine.zero })).map
      (fun t => (t.eng.fill, t.eng.mlen, t.eng.blkbuf)) = some (24, 24, (0x616263 : Block) <<< (488 : Nat)) := by decide +kernel

/-- The example of R125. -/
theorem test_shaFinal_abc :
    (nextOf (exec .shaFinal { State.reset with
        eng := { engineInit Engine.zero with fill := 24, mlen := 24, blkbuf := (0x616263 : Block) <<< (488 : Nat) } })).map
      (fun t => (ofBits 256 t.work.ret : Digest)) =
      some 0xba7816bf8f01cfea414140de5dae2223b00361a396177a9cb410ff61f20015ad := by decide +kernel

/-- The example of R121. -/
theorem test_shaLoad_abc :
    (nextOf (exec (.shaLoad blockAbc) { State.reset with eng := engineInit Engine.zero })).map
      (fun t => (t.eng.a, t.eng.e, t.eng.W[0], t.eng.W[15], t.eng.t)) =
      some (0x6A09E667, 0x510E527F, 0x61626380, 0x00000018, 0) := by decide +kernel

/-- The example of R122. -/
theorem test_shaRound_abc :
    (nextOf (exec .shaRound loadedAbc)).map
      (fun t => [t.eng.a, t.eng.b, t.eng.c, t.eng.d, t.eng.e, t.eng.f, t.eng.g, t.eng.h]) =
      some [0x5D6AEBCD, 0x6A09E667, 0xBB67AE85, 0x3C6EF372, 0xFA2A4622, 0x510E527F, 0x9B05688C, 0x1F83D9AB] := by
  decide +kernel

/-- The schedule word of a round past 15 (R119: `W[17] = 0x000F0000`, `W[18] = 0x7DA86405` for "abc"). -/
theorem test_shaRound_schedule :
    (nextOf (exec .shaRound { loadedAbc with
        eng := { loadedAbc.eng with t := 18, W := (loadedAbc.eng.W.set 16 0x61626380).set 17 0x000F0000 } })).map
      (fun t => (t.eng.W[18], t.eng.W[17], t.eng.t)) = some (0x7DA86405, 0x000F0000, 19) := by decide +kernel

/-- The example of R123. -/
theorem test_shaFold_abc :
    (nextOf (exec .shaFold { State.reset with
        eng := { engineInit Engine.zero with a := 0x506E3058, t := 64 } })).map
      (fun t => (t.eng.H[0], t.eng.a)) = some (0xBA7816BF, 0x506E3058) := by decide +kernel

/-- The example of R141: the 440 bits of `derive("abc", 440)`. -/
theorem test_dfDerive_abc :
    (nextOf (exec (.dfDerive (toBits 0x616263#24) 440) State.reset)).map
      (fun t => (ofBits 440 t.work.ret : Seed)) =
      some 0xe56162a04a237b49970758bfbc2a4205fa9d710086a2c69e1c3e0ae2ef099681b65dbddf676e82368c7eb5e8b8b390711653e987e3855f := by
  decide +kernel

/-- One bit above the ceiling: `InvalidLength` (R142). -/
theorem test_dfDerive_too_long : statusOf (exec (.dfDerive [] 65281) State.reset) = some 0x00000704 := by decide

/-- The example of R163. -/
theorem test_hgHashgen_256 :
    (nextOf (exec (.hgHashgen 256) { live 1 with drbg := { (live 1).drbg with V := programV } })).map
      (fun t => ((ofBits 256 t.work.ret : Digest), t.drbg.V, t.work.hgI)) =
      some (0x48f1bd755b6b0625155a440483340d86901795fb5f804e0e5e2720d8c1692912, programV, 1) := by decide +kernel

/-- `V = 2^440 - 1`: the copy wraps to zero (R163). -/
theorem test_hgHashgen_wraps :
    (nextOf (exec (.hgHashgen 1) { live 1 with drbg := { (live 1).drbg with V := BitVec.allOnes 440 } })).map
      (fun t => (t.work.data, t.work.ret.length)) = some (0, 1) := by decide +kernel

/-- Every length beyond the operand range runs, `V` is kept and as many bits come back (log 10). -/
theorem test_hgHashgen_beyond (bits : BitVec 32) (h : 2 ^ 19 < bits.toNat) (s : State) :
    ∃ t, exec (.hgHashgen bits) s = .next t ∧ t.drbg = s.drbg ∧ t.work.ret.length = bits.toNat := by
  obtain ⟨E, hE⟩ := runHashgenBeyond_spec bits.toNat s
  refine ⟨runHashgenBeyond bits.toNat s, if_neg (Nat.not_le.mpr h), ?_⟩
  rw [hE]
  exact ⟨rfl, by simp⟩

theorem test_entRequest : statusOf (exec (.entRequest 256) State.reset) = some 0x00000020 := by decide

/-- A delivery is held whole, however long (R193, R194). -/
theorem test_entDeliver_held :
    (nextOf (exec (.entDeliver [true, false]) (waiting []))).map (fun t => (t.ent.state, t.ent.buf, t.ent.len)) =
      some (.ready, [true, false], 2) := by decide

/-- I4: an unsolicited delivery changes nothing. -/
theorem test_entDeliver_dropped : nextOf (exec (.entDeliver [true]) State.reset) = some State.reset := rfl

theorem test_entFail : (nextOf (exec .entFail (waiting []))).map (fun t => t.ent.state) = some .fail := by decide

/-- I3: INSTANTIATE without an answer. -/
theorem test_instantiate_waits : statusOf (step (fresh [⟨0, .hostWrite 0 0x01000080⟩])) = some 0x00000021 := by decide

/-- E5: 2^35 is within the ceiling, so the operand is malformed. -/
theorem test_instantiate_E5 :
    statusOf (step (withOperand 0x800000000 [] (fresh [⟨0, .hostWrite 0 0x01000080⟩]))) = some 0x00001304 := by decide

/-- E18: a failed RESEED of an exhausted instance. -/
theorem test_reseed_E18 :
    statusOf (exec .reseed (withSource [.fail] (live 0x1000000000001))) = some 0x0000041c := by decide

/-- E10: the encoding is checked before the state. -/
theorem test_reseed_E10 : statusOf (step (fresh [⟨0, .hostWrite 0 0x02000001⟩])) = some 0x00001004 := by decide

/-- E15: one generate more than 2^48. -/
theorem test_generate_E15 : statusOf (exec (.generate 32) (live 0x1000000000001)) = some 0x0000051c := by decide

/-- Program 1's first `generate 256`: `OUT_DATA`, the new `V`, the counter. -/
theorem test_generate_program1 :
    (nextOf (exec (.generate 256) { live 1 with drbg := { (live 1).drbg with
        V := programV
        C := 0x78722e72ef495f78da9b4a26efe7300cafe72e71fda5b3e5eef10bddc795fe2d817cda329c7cd733bd07e5fcf4f36c120033bcee8ae1d9 } })).map
      (fun t => (t.host.outWords, t.drbg.V, t.drbg.reseedCounter, statusWord t)) =
      some ([0x48f1bd75, 0x5b6b0625, 0x155a4404, 0x83340d86, 0x901795fb, 0x5f804e0e, 0x5e2720d8, 0xc1692912],
        0x307097abbb1e6510ec604fa767e853e14b642ccaf61f826f5827fe7e022905805e1a779337adeaca4122fea86cb39b8254f5366309b1ed,
        2, 0x0000000a) := by decide +kernel

theorem test_uninstantiate : (nextOf (exec .uninstantiate (live 7))).map (fun t => (t.drbg, statusWord t)) =
    some (Drbg.zero, 0x00000002) := by decide +kernel

/-- I3: a command written while another waits is dropped. -/
theorem test_overrun : statusOf (step (waiting [⟨0, .hostWrite 0 0x04000000⟩])) = some 0x00000069 := by decide

/-- I6: reset in the middle of a wait. -/
theorem test_reset_mid_command : statusOf (step (waiting [⟨0, .reset⟩])) = some 0 := by decide

/-- I2: the second word of 36 returned bits, and the end of the output. -/
theorem test_pop :
    (nextOf (step { fresh [⟨0, .hostRead 6⟩] with
        host := { HostIf.zero with outLen := 36, outWords := [0x8f2f35b2, 0x50000000], outRd := 1 } })).map
      (fun t => (t.env.readData, t.host.outRd)) = some (0x50000000, 2) := by decide

/-- Program 2: the words of the operands `h"ABCDE"` and `h"5A5"`. -/
theorem test_pack32 : pack32 (toBits 0xABCDE#20) = [0xabcde000] ∧ pack32 (toBits 0x5A5#12) = [0x5a500000] := by decide

/-! ### Witnesses: for every statement with hypotheses, states and operands that meet them, each clause at a boundary value -/

theorem witness_EncodeOfDecodedCommandIsWord : ∃ w i, decodeCommand w = .ok i := ⟨0x03FFFFFF, _, rfl⟩

theorem witness_StepRunsDecodedCommand :
    ∃ (s : State) (k : Nat) (w : Word) (rest : List Input) (i : Instr),
      s.env.inputs = ⟨k, .hostWrite 0 w⟩ :: rest ∧ decodeCommand w = .ok i :=
  ⟨fresh [⟨0, .hostWrite 0 0x02000000⟩], 0, 0x02000000, [], .reseed, rfl, rfl⟩

theorem witness_StepRunsDecodedMicroOp :
    ∃ (s : State) (k : Nat) (code : BitVec 4) (args : UopArgs) (rest : List Input) (i : Instr),
      s.env.inputs = ⟨k, .uop code args⟩ :: rest ∧ decodeUop code args = .ok i :=
  ⟨fresh [⟨0, .uop 0x1 .none⟩], 0, 0x1, .none, [], .shaInit, rfl, rfl⟩

theorem witness_UnusedCodesAreRefused (code : BitVec 4) (_ : code ∈ [0x7#4, 0xA#4, 0xB#4, 0xF#4]) :
    ∃ (s : State), s.env.inputs = [⟨0, .uop code .none⟩] := ⟨fresh [⟨0, .uop code .none⟩], rfl⟩

/-- The last round, and the one past it. -/
theorem witness_ShaRoundEffect :
    (∃ s : State, s.eng.t.toNat ≤ 63 ∧ s.eng.t = 63) ∧ (∃ s : State, 64 ≤ s.eng.t.toNat) :=
  ⟨⟨{ State.reset with eng := { Engine.zero with t := 63 } }, by decide⟩,
   ⟨{ State.reset with eng := { Engine.zero with t := 64 } }, by decide⟩⟩

theorem witness_ShaFoldEffect : (∃ s : State, s.eng.t.toNat = 64) ∧ (∃ s : State, s.eng.t.toNat ≠ 64) :=
  ⟨⟨{ State.reset with eng := { Engine.zero with t := 64 } }, by decide⟩,
   ⟨{ State.reset with eng := { Engine.zero with t := 63 } }, by decide⟩⟩

/-- A full block and the longest message. -/
theorem witness_ShaAbsorbEffect :
    ∃ (s : State) (p u : BitString), s.eng.fill.toNat < 512 ∧ s.eng.mlen.toNat + (p ++ u).length < 2 ^ 64 ∧
      s.eng.fill = 511 ∧ s.eng.mlen.toNat + (p ++ u).length = 2 ^ 64 - 1 :=
  ⟨{ State.reset with eng := { Engine.zero with fill := 511, mlen := 0xFFFFFFFFFFFFFFFD } }, [true], [false], by decide⟩

/-- The first bit of a block and the bit that fills one. -/
theorem witness_ShaAbsorbOneBitEffect :
    (∃ s : State, s.eng.fill.toNat < 512 ∧ s.eng.mlen.toNat + 1 < 2 ^ 64 ∧ s.eng.fill.toNat < 511) ∧
    (∃ s : State, s.eng.fill.toNat < 512 ∧ s.eng.mlen.toNat + 1 < 2 ^ 64 ∧ s.eng.fill.toNat = 511) :=
  ⟨⟨State.reset, by decide⟩, ⟨{ State.reset with eng := { Engine.zero with fill := 511 } }, by decide⟩⟩

theorem witness_ShaAbsorbRefusesLongMessage :
    ∃ (s : State) (p : BitString), 2 ^ 64 ≤ s.eng.mlen.toNat + p.length :=
  ⟨{ State.reset with eng := { Engine.zero with mlen := 0xFFFFFFFFFFFFFFFF } }, [true], by decide⟩

/-- The longest message. -/
theorem witness_EngineComputesSha256 : ∃ M : BitString, M.length < 2 ^ 64 ∧ M.length + 1 = 2 ^ 64 :=
  ⟨List.replicate (2 ^ 64 - 1) true, by rw [List.length_replicate]; omega⟩

/-- The shortest and the longest derivation. -/
theorem witness_DfDeriveEffect :
    (∃ (input : BitString) (bits : BitVec 32), 1 ≤ bits.toNat ∧ bits.toNat ≤ 65280 ∧ 40 + input.length < 2 ^ 64 ∧
      bits = 1) ∧
    (∃ (input : BitString) (bits : BitVec 32), 1 ≤ bits.toNat ∧ bits.toNat ≤ 65280 ∧ 40 + input.length < 2 ^ 64 ∧
      bits = 65280) := ⟨⟨[], 1, by decide⟩, ⟨[true], 65280, by decide⟩⟩

theorem witness_DeriveLengthAndPrefix :
    ∃ bits : BitVec 32, 1 ≤ bits.toNat ∧ bits.toNat ≤ 65280 ∧ bits = 65280 := ⟨65280, by decide⟩

theorem witness_DfDeriveInvalidLength :
    (∃ bits : BitVec 32, bits.toNat = 0) ∧ (∃ bits : BitVec 32, 65280 < bits.toNat ∧ bits = 65281) :=
  ⟨⟨0, by decide⟩, ⟨65281, by decide⟩⟩

/-- The bounds of the operand range, and the first and the last length whose blocks `hg_i` can count beyond it. -/
theorem witness_HgHashgenEffect :
    (∃ bits : BitVec 32, bits.toNat ≤ 2 ^ 19 ∧ bits = 1) ∧ (∃ bits : BitVec 32, bits.toNat ≤ 2 ^ 19 ∧ bits = 0x80000) ∧
    (∃ bits : BitVec 32, 2 ^ 19 < bits.toNat ∧ (bits.toNat + 255) / 256 < 2 ^ 12 ∧ bits = 0x80001) ∧
    (∃ bits : BitVec 32, 2 ^ 19 < bits.toNat ∧ (bits.toNat + 255) / 256 < 2 ^ 12 ∧ bits = 4095 * 256) :=
  ⟨⟨1, by decide⟩, ⟨0x80000, by decide⟩, ⟨0x80001, by decide⟩, ⟨4095 * 256, by decide⟩⟩

theorem witness_EntRequestEffect : (∃ s : State, s.ent.state = .idle) ∧ (∃ s : State, s.ent.state ≠ .idle) :=
  ⟨⟨State.reset, rfl⟩, ⟨waiting [], by decide⟩⟩

/-- The longest delivery to a waiting core and to an idle one, and one bit more. -/
theorem witness_EntDeliverEffect (n : Nat) (hn : n = 2 ^ 35) :
    (∃ (s : State) (p : BitString), p.length ≤ 2 ^ 35 ∧ s.ent.state = .req ∧ p.length = n) ∧
    (∃ (s : State) (p : BitString), p.length ≤ 2 ^ 35 ∧ s.ent.state ≠ .req ∧ p.length = n) ∧
    (∃ p : BitString, 2 ^ 35 < p.length ∧ p.length = n + 1) := by
  refine ⟨⟨waiting [], List.replicate n true, ?_, rfl, ?_⟩, ⟨State.reset, List.replicate n true, ?_, by decide, ?_⟩,
    ⟨List.replicate (n + 1) true, ?_, ?_⟩⟩ <;> rw [List.length_replicate] <;> omega

theorem witness_EntFailEffect : (∃ s : State, s.ent.state = .req) ∧ (∃ s : State, s.ent.state ≠ .req) :=
  ⟨⟨waiting [], rfl⟩, ⟨State.reset, by decide⟩⟩

theorem witness_UnsolicitedAnswerIsDropped :
    (∃ (s : State) (args : UopArgs), s.env.inputs = [⟨0, .uop 0xD#4 args⟩] ∧ args.bits.length ≤ 2 ^ 35 ∧
      s.ent.state ≠ .req) ∧
    (∃ (s : State) (args : UopArgs), s.env.inputs = [⟨0, .uop 0xE#4 args⟩] ∧ args.bits.length ≤ 2 ^ 35 ∧
      s.ent.state ≠ .req) :=
  ⟨⟨fresh [⟨0, .uop 0xD .none⟩], .none, rfl, by decide, by decide⟩,
   ⟨fresh [⟨0, .uop 0xE .none⟩], .none, rfl, by decide, by decide⟩⟩

/-- A delivery one bit short, and a failure. -/
theorem witness_ShortOrFailedAnswerEndsCommand :
    (∃ (s : State) (args : UopArgs), s.env.inputs = [⟨0, .uop 0xD#4 args⟩] ∧ s.phase = .entE ∧ s.ent.state = .req ∧
      Undisturbed (withInputs [] s) ∧ args.bits.length ≤ 2 ^ 35 ∧ args.bits.length < s.ent.min.toNat ∧
      args.bits.length + 1 = s.ent.min.toNat) ∧
    (∃ (s : State) (args : UopArgs), s.env.inputs = [⟨0, .uop 0xE#4 args⟩] ∧ s.phase = .entN ∧ s.ent.state = .req ∧
      Undisturbed (withInputs [] s)) :=
  ⟨⟨waiting [⟨0, .uop 0xD { UopArgs.none with bits := List.replicate 255 true }⟩],
      { UopArgs.none with bits := List.replicate 255 true }, rfl, rfl, rfl, rfl,
      by decide +kernel, by decide +kernel, by decide +kernel⟩,
   ⟨{ waiting [⟨0, .uop 0xE .none⟩] with phase := .entN }, .none, rfl, rfl, rfl, rfl⟩⟩

theorem witness_WaitingCoreHasNoStepOfItsOwn :
    ∃ s : State, s.phase = .entE ∧ s.ent.state = .req ∧ s.env.source = [] ∧ s.env.inputs = [] :=
  ⟨waiting [], rfl, rfl, rfl, rfl⟩

/-- Every strength, the two bounds among them, with answers of exactly the lengths asked for, whatever `NONCE_MIN_BITS` is. -/
theorem witness_InstantiateCompletes (n : BitVec 24) (h1 : 1 ≤ n.toNat) (h2 : n.toNat ≤ 256) :
    ∃ (s : State) (e d : BitString) (rest : List Answer),
      s.host.busy = false ∧ Undisturbed s ∧ s.ent.state = .idle ∧
      s.drbg.instantiated = false ∧ 1 ≤ n.toNat ∧ n.toNat ≤ 256 ∧
      s.host.inLen.toNat ≤ 2 ^ 35 ∧ s.host.inWords.length = (s.host.inLen.toNat + 31) / 32 ∧
      s.env.source = .deliver e :: .deliver d :: rest ∧
      n.toNat ≤ e.length ∧ e.length ≤ 2 ^ 35 ∧
      (Config.nonceMinBits n.toNat).toNat ≤ d.length ∧ d.length ≤ 2 ^ 35 := by
  refine ⟨withSource [.deliver (List.replicate n.toNat true),
      .deliver (List.replicate (Config.nonceMinBits n.toNat).toNat true)] (withOperand 20 [0xABCDE000] (fresh [])),
    _, _, _, rfl, rfl, rfl, rfl, h1, h2, (by decide : (20#64).toNat ≤ 2 ^ 35),
    (by decide : 1 = ((20#64).toNat + 31) / 32), rfl, ?_, ?_, ?_, ?_⟩ <;>
  rw [List.length_replicate]
  · omega
  · exact Nat.le_of_lt (Nat.lt_trans (BitVec.isLt _) (by decide))

theorem witness_InstantiateHolds (n : BitVec 24) (h1 : 1 ≤ n.toNat) (h2 : n.toNat ≤ 256) :
    ∃ s : State, s.host.busy = false ∧ Undisturbed s ∧ s.ent.state = .idle ∧
      s.drbg.instantiated = false ∧ 1 ≤ n.toNat ∧ n.toNat ≤ 256 ∧
      s.host.inLen.toNat ≤ 2 ^ 35 ∧ s.host.inWords.length = (s.host.inLen.toNat + 31) / 32 ∧ s.env.source = [] :=
  ⟨fresh [], rfl, rfl, rfl, rfl, h1, h2, by decide, by decide, rfl⟩

/-- The clauses in order: a live instance; strengths 0 and 257; 2^35 + 1 bits declared; 33 bits declared and one word. -/
theorem witness_InstantiateErrors :
    (∃ s : State, s.host.busy = false ∧ Undisturbed s ∧ s.drbg.instantiated = true) ∧
    (∃ (s : State) (n m : BitVec 24), s.host.busy = false ∧ Undisturbed s ∧ s.drbg.instantiated = false ∧
      n.toNat = 0 ∧ 256 < m.toNat ∧ m = 257) ∧
    (∃ (s : State) (n : BitVec 24), s.host.busy = false ∧ Undisturbed s ∧ s.drbg.instantiated = false ∧
      1 ≤ n.toNat ∧ n.toNat ≤ 256 ∧ 2 ^ 35 < s.host.inLen.toNat ∧ s.host.inLen.toNat = 2 ^ 35 + 1) ∧
    (∃ (s : State) (n : BitVec 24), s.host.busy = false ∧ Undisturbed s ∧ s.drbg.instantiated = false ∧
      1 ≤ n.toNat ∧ n.toNat ≤ 256 ∧ s.host.inLen.toNat ≤ 2 ^ 35 ∧
      s.host.inWords.length ≠ (s.host.inLen.toNat + 31) / 32) :=
  ⟨⟨live 1, rfl, rfl, rfl⟩, ⟨fresh [], 0, 257, rfl, rfl, rfl, by decide, by decide, rfl⟩,
   ⟨withOperand 0x800000001 [] (fresh []), 256, rfl, rfl, rfl, by decide, by decide, by decide, by decide⟩,
   ⟨withOperand 33 [0] (fresh []), 1, rfl, rfl, rfl, by decide, by decide, by decide, by decide⟩⟩

/-- A script of one answer, a failure or an entropy input a bit short (E16); a good entropy input and a failed nonce (E17). A
nonce that is a bit short there is for every strength whose `NONCE_MIN_BITS` is not 0. -/
theorem witness_InstantiateInsufficientEntropy :
    (∀ a : Answer, ∃ (s : State) (n : BitVec 24), s.host.busy = false ∧ Undisturbed s ∧ s.ent.state = .idle ∧
      s.drbg.instantiated = false ∧ 1 ≤ n.toNat ∧ n.toNat ≤ 256 ∧ s.host.inLen.toNat ≤ 2 ^ 35 ∧
      s.host.inWords.length = (s.host.inLen.toNat + 31) / 32 ∧ s.env.source = [a] ∧
      ∃ e : BitString, e.length < n.toNat ∧ e.length + 1 = n.toNat) ∧
    (∃ (s : State) (n : BitVec 24) (e : BitString) (b : Answer) (rest : List Answer),
      s.host.busy = false ∧ Undisturbed s ∧ s.ent.state = .idle ∧
      s.drbg.instantiated = false ∧ 1 ≤ n.toNat ∧ n.toNat ≤ 256 ∧ s.host.inLen.toNat ≤ 2 ^ 35 ∧
      s.host.inWords.length = (s.host.inLen.toNat + 31) / 32 ∧ s.env.source = .deliver e :: b :: rest ∧
      n.toNat ≤ e.length ∧ e.length ≤ 2 ^ 35 ∧ b = .fail) :=
  ⟨fun a => ⟨withSource [a] (fresh []), 8, rfl, rfl, rfl, rfl, by decide, by decide,
      (by decide : (0#64).toNat ≤ 2 ^ 35), (by decide : 0 = ((0#64).toNat + 31) / 32), rfl,
      List.replicate 7 true, by decide, by decide⟩,
   ⟨withSource [.deliver (List.replicate 8 true), .fail] (fresh []), 8, List.replicate 8 true, .fail, [],
      rfl, rfl, rfl, rfl, by decide, by decide, by decide, by decide, rfl, by decide, by decide, rfl⟩⟩

/-- An exhausted instance and an answer of exactly its strength. -/
theorem witness_ReseedCompletes :
    ∃ (s : State) (e : BitString) (rest : List Answer),
      s.host.busy = false ∧ Undisturbed s ∧ s.ent.state = .idle ∧ s.drbg.instantiated = true ∧
      s.host.inLen.toNat ≤ 2 ^ 35 ∧ s.host.inWords.length = (s.host.inLen.toNat + 31) / 32 ∧
      s.env.source = .deliver e :: rest ∧ s.drbg.strength.toNat ≤ e.length ∧ e.length ≤ 2 ^ 35 :=
  ⟨withSource [.deliver (List.replicate 256 true)] (withOperand 24 [0x61626300] (live 0x1000000000001)),
    List.replicate 256 true, [], rfl, rfl, rfl, rfl, by decide, by decide, rfl, by decide +kernel, by decide +kernel⟩

/-- A RESEED that waits, an INSTANTIATE that waits for its entropy input, and one that waits for a nonce of 64 bits. -/
theorem witness_DeliveryResumesCommand :
    (∃ (s : State) (args : UopArgs), s.env.inputs = [⟨0, .uop 0xD args⟩] ∧ Undisturbed (withInputs [] s) ∧
      s.ent.state = .req ∧ s.ent.min.toNat ≤ args.bits.length ∧ args.bits.length ≤ 2 ^ 35 ∧
      s.work.opnd.len.toNat ≤ 2 ^ 35 ∧ s.phase = .entE ∧ s.work.curOp = 0x02) ∧
    (∃ (s : State) (args : UopArgs), s.env.inputs = [⟨0, .uop 0xD args⟩] ∧ Undisturbed (withInputs [] s) ∧
      s.ent.state = .req ∧ s.ent.min.toNat ≤ args.bits.length ∧ args.bits.length ≤ 2 ^ 35 ∧
      s.work.opnd.len.toNat ≤ 2 ^ 35 ∧ s.phase = .entE ∧ s.work.curOp = 0x01 ∧ s.env.source = []) ∧
    (∃ (s : State) (args : UopArgs), s.env.inputs = [⟨0, .uop 0xD args⟩] ∧ Undisturbed (withInputs [] s) ∧
      s.ent.state = .req ∧ s.ent.min.toNat ≤ args.bits.length ∧ args.bits.length ≤ 2 ^ 35 ∧
      s.work.opnd.len.toNat ≤ 2 ^ 35 ∧ s.phase = .entN ∧ s.work.curOp = 0x01 ∧ s.work.entE.length ≤ 2 ^ 35 ∧
      s.work.curImm.toNat ≤ s.work.entE.length + args.bits.length) :=
  ⟨⟨waiting [⟨0, .uop 0xD { UopArgs.none with bits := List.replicate 256 true }⟩],
      { UopArgs.none with bits := List.replicate 256 true }, rfl, rfl, rfl, by decide +kernel, by decide +kernel,
      by decide, rfl, rfl⟩,
   ⟨{ waiting [⟨0, .uop 0xD { UopArgs.none with bits := List.replicate 256 true }⟩] with
        drbg := Drbg.zero, work := { Work.zero with curOp := 0x01, curImm := 256 } },
      { UopArgs.none with bits := List.replicate 256 true }, rfl, rfl, rfl, by decide +kernel, by decide +kernel,
      by decide, rfl, rfl, rfl⟩,
   ⟨{ waiting [⟨0, .uop 0xD { UopArgs.none with bits := List.replicate 64 true }⟩] with
        phase := .entN, drbg := Drbg.zero, ent := { Sync.zero with state := .req, min := 64 }
        work := { Work.zero with curOp := 0x01, curImm := 128, entE := List.replicate 128 true } },
      { UopArgs.none with bits := List.replicate 64 true }, rfl, rfl, rfl, by decide +kernel, by decide +kernel,
      by decide, rfl, rfl, by decide +kernel, by decide +kernel⟩⟩

/-- The clauses in order; the last for a failure and for an answer one bit short. -/
theorem witness_ReseedErrors :
    (∃ s : State, s.host.busy = false ∧ Undisturbed s ∧ s.drbg.instantiated = false) ∧
    (∃ s : State, s.host.busy = false ∧ Undisturbed s ∧ s.drbg.instantiated = true ∧ 2 ^ 35 < s.host.inLen.toNat ∧
      s.host.inLen.toNat = 2 ^ 35 + 1) ∧
    (∃ s : State, s.host.busy = false ∧ Undisturbed s ∧ s.drbg.instantiated = true ∧ s.host.inLen.toNat ≤ 2 ^ 35 ∧
      s.host.inWords.length ≠ (s.host.inLen.toNat + 31) / 32 ∧ s.host.inLen.toNat = 2 ^ 35) ∧
    (∀ a : Answer, ∃ (s : State) (rest : List Answer), s.host.busy = false ∧ Undisturbed s ∧
      s.drbg.instantiated = true ∧ s.host.inLen.toNat ≤ 2 ^ 35 ∧
      s.host.inWords.length = (s.host.inLen.toNat + 31) / 32 ∧ s.ent.state = .idle ∧ s.env.source = a :: rest ∧
      s.drbg.strength = 256) ∧
    (∃ e : BitString, e.length ≤ 2 ^ 35 ∧ e.length < 256 ∧ e.length = 255) :=
  ⟨⟨fresh [], rfl, rfl, rfl⟩,
   ⟨withOperand 0x800000001 [] (live 1), rfl, rfl, rfl, by decide, by decide⟩,
   ⟨withOperand 0x800000000 [] (live 1), rfl, rfl, rfl, by decide, by decide, by decide⟩,
   fun a => ⟨withSource [a] (live 1), [], rfl, rfl, rfl, (by decide : (0#64).toNat ≤ 2 ^ 35),
     (by decide : 0 = ((0#64).toNat + 31) / 32), rfl, rfl, rfl⟩,
   ⟨List.replicate 255 true, by decide +kernel⟩⟩

/-- The last generate before the threshold, with one bit and with 2^19 bits, an additional input and none. -/
theorem witness_GenerateCompletes :
    (∃ (s : State) (r : BitVec 24), s.host.busy = false ∧ Undisturbed s ∧ s.drbg.instantiated = true ∧
      1 ≤ r.toNat ∧ r.toNat ≤ 2 ^ 19 ∧ s.drbg.reseedCounter.toNat ≤ 2 ^ 48 ∧
      s.host.inLen.toNat ≤ 2 ^ 35 ∧ s.host.inWords.length = (s.host.inLen.toNat + 31) / 32 ∧
      r = 1 ∧ s.drbg.reseedCounter.toNat = 2 ^ 48 ∧ s.host.inLen.toNat = 12) ∧
    (∃ (s : State) (r : BitVec 24), s.host.busy = false ∧ Undisturbed s ∧ s.drbg.instantiated = true ∧
      1 ≤ r.toNat ∧ r.toNat ≤ 2 ^ 19 ∧ s.drbg.reseedCounter.toNat ≤ 2 ^ 48 ∧
      s.host.inLen.toNat ≤ 2 ^ 35 ∧ s.host.inWords.length = (s.host.inLen.toNat + 31) / 32 ∧
      r = 0x80000 ∧ s.host.inLen.toNat = 0) :=
  ⟨⟨withOperand 12 [0x5A500000] (live 0x1000000000000), 1, rfl, rfl, rfl, by decide, by decide, by decide, by decide,
      by decide, rfl, by decide, by decide⟩,
   ⟨live 1, 0x80000, rfl, rfl, rfl, by decide, by decide, by decide, by decide, by decide, rfl, by decide⟩⟩

/-- The clauses in order, each at the first value past its bound, with everything the earlier clauses check in order. -/
theorem witness_GenerateErrors :
    (∃ s : State, s.host.busy = false ∧ Undisturbed s ∧ s.drbg.instantiated = false) ∧
    (∃ (s : State) (q r : BitVec 24), s.host.busy = false ∧ Undisturbed s ∧ s.drbg.instantiated = true ∧
      q.toNat = 0 ∧ 2 ^ 19 < r.toNat ∧ r = 0x80001) ∧
    (∃ (s : State) (r : BitVec 24), s.host.busy = false ∧ Undisturbed s ∧ s.drbg.instantiated = true ∧
      1 ≤ r.toNat ∧ r.toNat ≤ 2 ^ 19 ∧ 2 ^ 35 < s.host.inLen.toNat ∧ s.host.inLen.toNat = 2 ^ 35 + 1) ∧
    (∃ (s : State) (r : BitVec 24), s.host.busy = false ∧ Undisturbed s ∧ s.drbg.instantiated = true ∧
      1 ≤ r.toNat ∧ r.toNat ≤ 2 ^ 19 ∧ s.host.inLen.toNat ≤ 2 ^ 35 ∧
      s.host.inWords.length ≠ (s.host.inLen.toNat + 31) / 32) ∧
    (∃ (s : State) (r : BitVec 24), s.host.busy = false ∧ Undisturbed s ∧ s.drbg.instantiated = true ∧
      1 ≤ r.toNat ∧ r.toNat ≤ 2 ^ 19 ∧ s.host.inLen.toNat ≤ 2 ^ 35 ∧
      s.host.inWords.length = (s.host.inLen.toNat + 31) / 32 ∧ 2 ^ 48 < s.drbg.reseedCounter.toNat ∧
      s.drbg.reseedCounter.toNat = 2 ^ 48 + 1) :=
  ⟨⟨fresh [], rfl, rfl, rfl⟩, ⟨live 1, 0, 0x80001, rfl, rfl, rfl, by decide, by decide, rfl⟩,
   ⟨withOperand 0x800000001 [] (live 1), 32, rfl, rfl, rfl, by decide, by decide, by decide, by decide⟩,
   ⟨withOperand 33 [0] (live 1), 0x80000, rfl, rfl, rfl, by decide, by decide, by decide, by decide⟩,
   ⟨live 0x1000000000001, 1, rfl, rfl, rfl, by decide, by decide, by decide, by decide, by decide, by decide⟩⟩

theorem witness_UninstantiateCompletes :
    ∃ s : State, s.host.busy = false ∧ Undisturbed s ∧ s.drbg.instantiated = true := ⟨live 1, rfl, rfl, rfl⟩

/-- The illegal words of E10, E12 and E19 (95_test_vectors.md). -/
theorem witness_IllegalCommandWordEndsInError (w : Word)
    (hw : w ∈ [0x00000000#32, 0x05000000#32, 0xFF123456#32, 0x02000001#32, 0x04000001#32]) :
    ∃ s : State, s.env.inputs = [⟨0, .hostWrite 0 w⟩] ∧ s.host.busy = false ∧ Undisturbed (withInputs [] s) ∧
      (w.toNat / 2 ^ 24 = 0 ∨ 5 ≤ w.toNat / 2 ^ 24 ∨
        ((w.toNat / 2 ^ 24 = 2 ∨ w.toNat / 2 ^ 24 = 4) ∧ w.toNat % 2 ^ 24 ≠ 0)) := by
  refine ⟨fresh [⟨0, .hostWrite 0 w⟩], rfl, rfl, rfl, ?_⟩
  simp only [List.mem_cons, List.not_mem_nil, or_false] at hw
  rcases hw with h | h | h | h | h <;> subst h <;> decide

theorem witness_CommandWhileBusyIsDropped :
    ∃ (s : State) (i : Instr) (w : Word), encode i = .command w ∧ s.host.busy = true :=
  ⟨waiting [], .uninstantiate, _, rfl, rfl⟩

/-- A GENERATE cut before its first turn, and an UNINSTANTIATE that completes. -/
theorem witness_GenerateAndUninstantiateFrame :
    (∃ s t : State, s.host.busy = false ∧ ∃ r, exec (.generate r) s = .next t) ∧
    (∃ s t : State, s.host.busy = false ∧ exec .uninstantiate s = .next t) :=
  ⟨⟨withInputs [⟨0, .hostRead 1⟩] (live 1), _, rfl, 32, rfl⟩, ⟨live 1, _, rfl, rfl⟩⟩

theorem witness_SeedingCommandsFrame :
    (∃ s t : State, s.host.busy = false ∧ exec .reseed s = .next t) ∧
    (∃ s t : State, s.host.busy = false ∧ (∃ n, exec (.instantiate n) s = .next t) ∧ s.drbg.instantiated = true) :=
  ⟨⟨live 1, _, rfl, rfl⟩, ⟨live 1, _, rfl, ⟨256, rfl⟩, rfl⟩⟩

/-- Every register number, and for `OUT_DATA` the last word, the end of the output, and a busy core. -/
theorem witness_HostReadValues :
    (∀ n : Nat, ∃ s : State, s.env.inputs = [⟨0, .hostRead n⟩]) ∧
    (∃ s : State, s.env.inputs = [⟨0, .hostRead 6⟩] ∧ s.host.busy = false ∧
      s.host.outRd.toNat < (s.host.outLen.toNat + 31) / 32 ∧ s.host.outRd.toNat + 1 = (s.host.outLen.toNat + 31) / 32) ∧
    (∃ s : State, s.env.inputs = [⟨0, .hostRead 6⟩] ∧ s.host.busy = false ∧
      (s.host.outLen.toNat + 31) / 32 ≤ s.host.outRd.toNat) ∧
    (∃ s : State, s.env.inputs = [⟨0, .hostRead 6⟩] ∧ s.host.busy = true) :=
  ⟨fun n => ⟨fresh [⟨0, .hostRead n⟩], rfl⟩,
   ⟨{ fresh [⟨0, .hostRead 6⟩] with host := { HostIf.zero with outLen := 33, outWords := [1, 2], outRd := 1 } }, rfl, rfl,
      by decide, by decide⟩,
   ⟨{ fresh [⟨0, .hostRead 6⟩] with host := { HostIf.zero with outLen := 33, outWords := [1, 2], outRd := 2 } }, rfl, rfl,
      by decide⟩,
   ⟨waiting [⟨0, .hostRead 6⟩], rfl, rfl⟩⟩

theorem witness_HostReadEffects (n : Nat) :
    ∃ s : State, s.env.inputs = [⟨0, .hostRead n⟩] ∧ s.phase = .idle ∧ s.host.busy = false :=
  ⟨fresh [⟨0, .hostRead n⟩], rfl, rfl, rfl⟩

/-- Every register number but 0. -/
theorem witness_HostWritesWhenIdle (n : Nat) (hn : n ≠ 0) :
    ∃ s : State, s.env.inputs = [⟨0, .hostWrite n 7⟩] ∧ s.phase = .idle ∧ s.host.busy = false ∧ n ≠ 0 :=
  ⟨fresh [⟨0, .hostWrite n 7⟩], rfl, rfl, rfl, hn⟩

theorem witness_HostWritesWhenBusy (n : Nat) :
    ∃ s : State, s.env.inputs = [⟨0, .hostWrite n 7⟩] ∧ s.host.busy = true := ⟨waiting [⟨0, .hostWrite n 7⟩], rfl, rfl⟩

theorem witness_LoadedOperandDenotesItsString :
    ∃ (s : State) (p : BitString), p.length < 2 ^ 64 ∧ s.host.busy = false ∧ s.host.inWords = [] ∧ p.length = 33 :=
  ⟨fresh [], List.replicate 33 true, by decide, rfl, rfl, by decide⟩

theorem witness_ResetAtAnyTime : ∃ s : State, s.env.inputs = [⟨0, .reset⟩] ∧ s.host.busy = true :=
  ⟨waiting [⟨0, .reset⟩], rfl, rfl⟩

/-- An idle core with an instance and one event to come meets the invariant. -/
theorem live_inv (ctr : BitVec 64) (h1 : 1 ≤ ctr.toNat) (h2 : ctr.toNat ≤ 2 ^ 48 + 1) (i : Input)
    (hi : i.event.external = true) : Inv (withInputs [i] (live ctr)) where
  busyPhase := by simp [withInputs, live, State.reset, HostIf.zero]
  idleClean := by simp [withInputs, live, State.reset]
  oneFlag := by simp [withInputs, live, State.reset, HostIf.zero]
  errCode := by simp [withInputs, live, State.reset, HostIf.zero]
  entPhase := by simp [withInputs, live, State.reset, Sync.zero]
  noInstance := by simp [withInputs, live]
  hasInstance := fun _ => ⟨(by decide : 1 ≤ (256#9).toNat), (by decide : (256#9).toNat ≤ 256), h1, h2⟩
  instantiating := by simp [withInputs, live, State.reset, Work.zero]
  reseeding := by simp [withInputs, live, State.reset, Work.zero]
  generating := by simp [withInputs, live, State.reset, Work.zero]
  phaseOp := by simp [withInputs, live, State.reset]
  returned := by simp [withInputs, live, State.reset]
  outBuffer := (by decide : 0 = ceilDiv (0#20).toNat 32 ∧ (0#15).toNat ≤ ceilDiv (0#20).toNat 32 ∧ (0#20).toNat ≤ 2 ^ 19)
  inputs := by simpa [withInputs, live, State.reset, Env.zero] using hi

theorem witness_StepKeepsInvariant : ∃ s t : State, Inv s ∧ step s = .next t :=
  ⟨_, _, live_inv 0x1000000000001 (by decide) (by decide) ⟨0, .hostWrite 0 0x03000020⟩ rfl, rfl⟩

theorem witness_ErrorLeavesDrbgUnchanged : ∃ s t : State, Inv s ∧ step s = .next t ∧ t.host.error = true :=
  ⟨_, _, live_inv 0x1000000000001 (by decide) (by decide) ⟨0, .hostWrite 0 0x03000020⟩ rfl, rfl, by decide⟩

/-- A RESEED that comes to hold, and a read of `STATUS` while it holds. -/
theorem witness_EffectsShowOnlyAtCompletion :
    (∃ s t : State, step s = .next t ∧ t.host.busy = true) ∧
    (∃ s t : State, step s = .next t ∧ t.host.busy = true ∧ s.host.busy = true) :=
  ⟨⟨withInputs [⟨0, .hostWrite 0 0x02000000⟩] (live 1), _, rfl, by decide⟩,
   ⟨waiting [⟨0, .hostRead 1⟩], _, rfl, by decide, rfl⟩⟩

/-- An UNINSTANTIATE, and reset. -/
theorem witness_StateChangesOnlyOnSuccess :
    (∃ s t : State, Inv s ∧ step s = .next t ∧ drbgState t.drbg ≠ drbgState s.drbg ∧ t.host.done = true) ∧
    (∃ s t : State, Inv s ∧ step s = .next t ∧ drbgState t.drbg ≠ drbgState s.drbg ∧
      s.env.inputs = [⟨0, .reset⟩]) :=
  ⟨⟨_, _, live_inv 1 (by decide) (by decide) ⟨0, .hostWrite 0 0x04000000⟩ rfl, rfl, by decide, by decide⟩,
   ⟨_, _, live_inv 1 (by decide) (by decide) ⟨0, .reset⟩ rfl, rfl, by decide, rfl⟩⟩

/-- Two states that differ in `V`, with a command and an answer to come. -/
theorem witness_SecretsShowOnlyInOutData :
    ∃ s t : State, s ≠ t ∧ publicView s = publicView t ∧
      (∀ i ∈ s.env.inputs, i.event.external = true) ∧ (∀ i ∈ t.env.inputs, i.event.external = true) := by
  refine ⟨withInputs [⟨0, .hostWrite 0 0x02000000⟩, ⟨3, .uop 0xD .none⟩] (live 1),
    withInputs [⟨0, .hostWrite 0 0x02000000⟩, ⟨3, .uop 0xD .none⟩]
      { live 1 with drbg := { (live 1).drbg with V := 6 } }, ?_, rfl, ?_, ?_⟩
  · intro h
    exact absurd (congrArg (fun s => s.drbg.V) h) (by decide)
  · decide
  · decide

end Sys2Proof.Tests
end

section
/-! SUPPORT. The statements about single operations of the SHA-256 engine (40_sha256_engine.md R120, R121, R132). -/

namespace Sys2Proof.Machine

/-! ### The meanings of U.NOP, SHA.INIT and SHA.LOAD -/

@[simp] theorem exec_uNop (s : State) : exec .uNop s = .next s := rfl

@[simp] theorem exec_shaInit (s : State) : exec .shaInit s = .next { s with eng := engineInit s.eng } := rfl

@[simp] theorem exec_shaLoad (B : Block) (s : State) :
    exec (.shaLoad B) s = .next { s with eng := engineLoad B s.eng } := rfl

/-! ### The schedule after SHA.LOAD (R121) -/

theorem loadSchedule_getMsbD_low (W : Vector Word 64) (B : Block) {i j : Nat} (hi : i < 16) (hj : j < 32) :
    ((loadSchedule W B).getD i 0).getMsbD j = B.getMsbD (32 * i + j) := by
  rw [loadSchedule_getD, if_pos hi, blockWord_getMsbD B i j hi hj]

theorem loadSchedule_getD_high (W : Vector Word 64) (B : Block) {i : Nat} (hi : 16 ≤ i) :
    (loadSchedule W B).getD i 0 = W.getD i 0 := by
  rw [loadSchedule_getD, if_neg (Nat.not_lt.mpr hi)]

/-! ### The statements -/

/-- Settles O7: the decoder's first row and the meaning of U.NOP. -/
theorem uNopChangesNothing : Obligations.UNopChangesNothing := by
  unfold Obligations.UNopChangesNothing
  exact ⟨fun _ => rfl, exec_uNop⟩

/-- Settles O10: `engineInit` is the four writes of R120, and `initialDigest` the table of R118. -/
theorem shaInitEffect : Obligations.ShaInitEffect := by
  unfold Obligations.ShaInitEffect
  exact ⟨fun _ => rfl, exec_shaInit⟩

/-- Settles O11: the schedule that SHA.LOAD leaves is `loadSchedule`, read below 16 by the block's words and above as before. -/
theorem shaLoadEffect : Obligations.ShaLoadEffect := by
  unfold Obligations.ShaLoadEffect
  refine ⟨fun _ => rfl, fun s B => ⟨loadSchedule s.eng.W B, exec_shaLoad B s, ?_, ?_⟩⟩
  · intro i hi j hj
    exact loadSchedule_getMsbD_low s.eng.W B hi hj
  · intro i hi _
    exact loadSchedule_getD_high s.eng.W B hi

end Sys2Proof.Machine
end

section
/-! SUPPORT. The statement about `derive` (41_hash_df.md R144): what its result is cut from, and the spec's witness "abc". -/

namespace Sys2Proof.Machine

/-! ### The digests that a derivation is cut from -/

theorem derive_prefix_deriveDigests (input : BitString) (bits : BitVec 32) :
    derive input bits <+: deriveDigests input bits (ceilDiv bits.toNat 256) := by
  rw [derive_eq]
  exact List.take_prefix bits.toNat _

theorem firstDigest_prefix_deriveDigests (input : BitString) (bits : BitVec 32) {n : Nat} (hn : 0 < n) :
    toBits (sha256 (deriveMessage 1 bits input)) <+: deriveDigests input bits n := by
  obtain ⟨m, rfl⟩ := Nat.exists_eq_add_one.mpr hn
  rw [deriveDigests, List.range_succ_eq_map, List.flatMap_cons]
  exact List.prefix_append _ _

theorem firstDigest_prefix_derive (input : BitString) (bits : BitVec 32) (h : 256 ≤ bits.toNat) :
    toBits (sha256 (deriveMessage 1 bits input)) <+: derive input bits := by
  have hn : 0 < ceilDiv bits.toNat 256 := Nat.div_pos (by omega) (by omega)
  rw [derive_eq, leftmost, List.prefix_take_iff, toBits_length]
  exact ⟨firstDigest_prefix_deriveDigests input bits hn, h⟩

/-- A result of a whole digest or more starts with the first word of the digest under counter 1. -/
theorem firstWord_prefix_derive {input : BitString} {bits : BitVec 32} {w : Word} {rest : BitVec 224}
    (h : 256 ≤ bits.toNat) (hd : sha256 (deriveMessage 1 bits input) = w ++ rest) :
    toBits w <+: derive input bits := by
  have hp := firstDigest_prefix_derive input bits h
  rw [hd, toBits_append] at hp
  exact (List.prefix_append _ _).trans hp

/-! ### The spec's witness: "abc" -/

/-- The digest under counter 1 for 256 bits of "abc". -/
theorem sha256_deriveMessage_abc_256 :
    sha256 (deriveMessage 1 256 (toBits 0x616263#24)) =
      0x8644b538#32 ++ 0x6fd50e9f79cd992055903e26e2387d0ae63a3fb6abfaa08bb0182478#224 := by decide +kernel

/-- The digest under counter 1 for 512 bits of "abc": another message, so another digest. -/
theorem sha256_deriveMessage_abc_512 :
    sha256 (deriveMessage 1 512 (toBits 0x616263#24)) =
      0x602e88b2#32 ++ 0x3c4e02ce2ad0d73149a8cd2e12774964c2ce81b3ab6a78b7dec2067c#224 := by decide +kernel

theorem derive_abc_256_prefix : toBits 0x8644b538#32 <+: derive (toBits 0x616263#24) 256 :=
  firstWord_prefix_derive (by decide) sha256_deriveMessage_abc_256

theorem derive_abc_512_prefix : toBits 0x602e88b2#32 <+: derive (toBits 0x616263#24) 512 :=
  firstWord_prefix_derive (by decide) sha256_deriveMessage_abc_512

/-- Values of one width that start the same bit string are equal. -/
theorem eq_of_toBits_prefix {w : Nat} {x y : BitVec w} {s : BitString} (hx : toBits x <+: s) (hy : toBits y <+: s) :
    x = y := by
  have hlen : (toBits x).length = (toBits y).length := by rw [toBits_length, toBits_length]
  have hbits : toBits x = toBits y := (List.prefix_of_prefix_length_le hx hy hlen.le).eq_of_length hlen
  rw [← ofBits_toBits x, hbits, ofBits_toBits]

/-- ENHD's prefix property fails: the shorter result of "abc" is no prefix of the longer one. -/
theorem derive_abc_256_not_prefix_512 :
    ¬ derive (toBits 0x616263#24) 256 <+: derive (toBits 0x616263#24) 512 := by
  intro h
  have heq : 0x8644b538#32 = 0x602e88b2#32 :=
    eq_of_toBits_prefix (derive_abc_256_prefix.trans h) derive_abc_512_prefix
  exact absurd heq (by decide)

/-- Settles O23: the length and the weaker prefix property for every input, and the failure of ENHD's at "abc". -/
theorem deriveLengthAndPrefix : Obligations.DeriveLengthAndPrefix := by
  unfold Obligations.DeriveLengthAndPrefix
  refine ⟨fun input bits _ _ => ⟨derive_length input bits, ?_⟩,
    derive_abc_256_prefix, derive_abc_512_prefix, derive_abc_256_not_prefix_512⟩
  exact derive_prefix_deriveDigests input bits

end Sys2Proof.Machine
end

section
/-! SUPPORT. The statements about the decoder, the encoder and the step that runs what they read (30_encoding.md R80 to R84,
R95). -/

namespace Sys2Proof.Machine

/-! ### The rows of the opcode map, read back (R82) -/

@[simp] theorem decodeCommand_instantiate (n : BitVec 24) :
    decodeCommand (commandWord 0x01 n) = .ok (.instantiate n) := by
  simp [decodeCommand, opcodeField_commandWord, immField_commandWord]

@[simp] theorem decodeCommand_reseed : decodeCommand (commandWord 0x02 0) = .ok .reseed := rfl

@[simp] theorem decodeCommand_generate (n : BitVec 24) :
    decodeCommand (commandWord 0x03 n) = .ok (.generate n) := by
  simp [decodeCommand, opcodeField_commandWord, immField_commandWord]

@[simp] theorem decodeCommand_uninstantiate : decodeCommand (commandWord 0x04 0) = .ok .uninstantiate := rfl

/-- A word is known by its two fields (R81). -/
theorem eq_commandWord {w : Word} {op : BitVec 8} {imm : BitVec 24} (ho : opcodeField w = op)
    (hi : immField w = imm) : commandWord op imm = w := by
  rw [← ho, ← hi, commandWord_fields]

theorem encode_of_decodeCommand {w : Word} {i : Instr} (h : decodeCommand w = .ok i) : encode i = .command w := by
  rw [decodeCommand] at h
  split at h
  · rename_i ho
    cases h
    exact congrArg Encoded.command (eq_commandWord ho rfl)
  split at h
  · rename_i ho
    split at h
    · rename_i hi
      cases h
      exact congrArg Encoded.command (eq_commandWord ho hi)
    · cases h
  split at h
  · rename_i ho
    cases h
    exact congrArg Encoded.command (eq_commandWord ho rfl)
  split at h
  · rename_i ho
    split at h
    · rename_i hi
      cases h
      exact congrArg Encoded.command (eq_commandWord ho hi)
    · cases h
  · cases h

/-- The unused micro-operation codes (R95). -/
theorem decodeUop_unused {code : BitVec 4} (h : code = 0x7#4 ∨ code = 0xA#4 ∨ code = 0xB#4 ∨ code = 0xF#4)
    (args : UopArgs) : decodeUop code args = .error .unusedMicroOp := by
  rcases h with rfl | rfl | rfl | rfl <;> rfl

theorem step_uop_unused {s : State} {k : Nat} {code : BitVec 4} {args : UopArgs} {rest : List Input}
    {e : DecodeError} (h : s.env.inputs = ⟨k, .uop code args⟩ :: rest) (hd : decodeUop code args = .error e) :
    step s = .refused (.unusedMicroOp code) := by
  simp only [step, fetch, h, landEvent, hd]

/-! ### The statements -/

/-- Settles O1: a command's fields are read back from its word; a micro-operation's code and arguments stand side by side. -/
theorem decodeOfEncodeIsIdentity : Obligations.DecodeOfEncodeIsIdentity := by
  unfold Obligations.DecodeOfEncodeIsIdentity
  intro i
  cases i with
  | instantiate n => exact decodeCommand_instantiate n
  | generate n => exact decodeCommand_generate n
  | _ => rfl

/-- Settles O2: a legal word is its two fields put together, and an immediate that the instruction does not carry is 0. -/
theorem encodeOfDecodedCommandIsWord : Obligations.EncodeOfDecodedCommandIsWord := by
  unfold Obligations.EncodeOfDecodedCommandIsWord
  exact fun _ _ h => encode_of_decodeCommand h

/-- Settles O3: the decoder evaluated on the written-out words and codes. -/
theorem sampleWordsDecode : Obligations.SampleWordsDecode := by
  unfold Obligations.SampleWordsDecode
  exact ⟨rfl, rfl, rfl, rfl, rfl, rfl, rfl, rfl⟩

/-- Settles O4: the step issues the word, and so does `exec` of what the word decodes to. -/
theorem stepRunsDecodedCommand : Obligations.StepRunsDecodedCommand := by
  unfold Obligations.StepRunsDecodedCommand
  intro s k w rest i hin hd
  rw [step_command hin, (exec_of_decodeCommand hd (withInputs rest s)).2]

/-- Settles O5: what a micro-operation code decodes to is no command, so the core's turns follow its effect. -/
theorem stepRunsDecodedMicroOp : Obligations.StepRunsDecodedMicroOp := by
  unfold Obligations.StepRunsDecodedMicroOp
  intro s k code args rest i hin hd
  exact step_uop hin hd

/-- Settles O6: the decoder names the four codes as unused, and the step passes the name on. -/
theorem unusedCodesAreRefused : Obligations.UnusedCodesAreRefused := by
  unfold Obligations.UnusedCodesAreRefused
  intro s k code args rest hin hcode
  exact step_uop_unused hin (decodeUop_unused hcode args)

end Sys2Proof.Machine
end

section
/-! SUPPORT. The meanings of the micro-operations, an equation for each outcome (40_sha256_engine.md R122 to R125; 41_hash_df.md R141,
R142; 42_drbg_commands.md R163; 43_entropy_sync.md R192 to R197), and the step on an answer of the EntropySource. -/

namespace Sys2Proof.Machine

section
variable {s : State}

theorem exec_shaAbsorb {p : BitString} (h : s.eng.mlen.toNat + p.length < 2 ^ 64) :
    exec (.shaAbsorb p) s = .next { s with eng := engineAbsorb p s.eng } := if_pos h

theorem exec_shaAbsorb_long {p : BitString} (h : 2 ^ 64 ≤ s.eng.mlen.toNat + p.length) :
    exec (.shaAbsorb p) s = .refused .messageTooLong := if_neg (Nat.not_lt.mpr h)

theorem exec_shaFinal : exec .shaFinal s = .next { s with
    eng := engineFinal s.eng
    work := { s.work with ret := toBits (engineDigest (engineFinal s.eng)) } } := rfl

theorem exec_shaRound (h : s.eng.t.toNat < 64) : exec .shaRound s = .next { s with eng := engineRound s.eng } :=
  if_pos h

theorem exec_shaRound_done (h : 64 ≤ s.eng.t.toNat) : exec .shaRound s = .refused .roundAfterLast :=
  if_neg (Nat.not_lt.mpr h)

theorem exec_shaFold (h : s.eng.t.toNat = 64) : exec .shaFold s = .next { s with eng := engineFold s.eng } := if_pos h

theorem exec_shaFold_early (h : s.eng.t.toNat ≠ 64) : exec .shaFold s = .refused .foldBeforeLastRound := if_neg h

theorem deriveLengthInvalid_iff (bits : BitVec 32) :
    deriveLengthInvalid bits = true ↔ bits.toNat = 0 ∨ 65280 < bits.toNat := by
  rw [deriveLengthInvalid, decide_eq_true_eq, ← BitVec.toNat_inj]
  rfl

theorem exec_dfDerive_invalid {input : BitString} {bits : BitVec 32} (h : bits.toNat = 0 ∨ 65280 < bits.toNat) :
    exec (.dfDerive input bits) s = .next (raiseError .invalidLength s) :=
  if_pos ((deriveLengthInvalid_iff bits).mpr h)

theorem exec_dfDerive {input : BitString} {bits : BitVec 32} (h1 : 1 ≤ bits.toNat) (h2 : bits.toNat ≤ 65280)
    (h3 : 40 + input.length < 2 ^ 64) : exec (.dfDerive input bits) s = .next (runDerive input bits s) := by
  have hv : ¬ deriveLengthInvalid bits = true := fun c => by
    rw [deriveLengthInvalid_iff] at c; omega
  rw [exec, execDfDerive, if_neg hv, if_pos h3]

theorem exec_hgHashgen {bits : BitVec 32} (h : bits.toNat ≤ 2 ^ 19) :
    exec (.hgHashgen bits) s = .next (runHashgen bits.toNat s) := if_pos h

theorem exec_hgHashgen_beyond {bits : BitVec 32} (h : 2 ^ 19 < bits.toNat) :
    exec (.hgHashgen bits) s = .next (runHashgenBeyond bits.toNat s) := if_neg (Nat.not_le.mpr h)

theorem exec_entRequest {m : BitVec 32} (h : s.ent.state = .idle) :
    exec (.entRequest m) s = .next { s with ent := entRequest m s.ent } := if_pos h

theorem exec_entRequest_outstanding {m : BitVec 32} (h : s.ent.state ≠ .idle) :
    exec (.entRequest m) s = .refused .requestOutstanding := if_neg h

theorem exec_entDeliver {p : BitString} (h : p.length ≤ 2 ^ 35) :
    exec (.entDeliver p) s = .next { s with ent := entDeliver p s.ent } := if_pos h

theorem exec_entDeliver_long {p : BitString} (h : 2 ^ 35 < p.length) :
    exec (.entDeliver p) s = .refused .deliveryTooLong := if_neg (Nat.not_le.mpr h)

theorem exec_entFail : exec .entFail s = .next { s with ent := entFail s.ent } := rfl

end

/-! ### An answer lands, or is dropped (R193, R195) -/

theorem entDeliver_req {p : BitString} {e : Sync} (h : e.state = .req) :
    entDeliver p e = { e with buf := p, len := BitVec.ofNat 64 p.length, state := .ready } := if_pos h

theorem entDeliver_dropped {p : BitString} {e : Sync} (h : e.state ≠ .req) : entDeliver p e = e := if_neg h

theorem entFail_req {e : Sync} (h : e.state = .req) : entFail e = { e with state := .fail } := if_pos h

theorem entFail_dropped {e : Sync} (h : e.state ≠ .req) : entFail e = e := if_neg h

/-- The synchronizer's registers replaced. -/
def withEnt (e : Sync) (s : State) : State := { s with ent := e }

@[simp] theorem withEnt_ent (e : Sync) (s : State) : (withEnt e s).ent = e := rfl
@[simp] theorem withEnt_self (s : State) : withEnt s.ent s = s := rfl

section
variable {s : State} {k : Nat} {args : UopArgs} {rest : List Input}

theorem step_deliver (h : s.env.inputs = ⟨k, .uop 0xD args⟩ :: rest) (hl : args.bits.length ≤ 2 ^ 35) :
    step s = .next (goOn (withEnt (entDeliver args.bits s.ent) (withInputs rest s))) := by
  rw [step_uop (i := .entDeliver args.bits) h rfl, exec_entDeliver hl]
  rfl

theorem step_deliver_long (h : s.env.inputs = ⟨k, .uop 0xD args⟩ :: rest) (hl : 2 ^ 35 < args.bits.length) :
    step s = .refused .deliveryTooLong := by
  rw [step_uop (i := .entDeliver args.bits) h rfl, exec_entDeliver_long hl]

theorem step_fail (h : s.env.inputs = ⟨k, .uop 0xE args⟩ :: rest) :
    step s = .next (goOn (withEnt (entFail s.ent) (withInputs rest s))) :=
  step_uop (i := .entFail) h rfl

/-- An answer that lands with no further event near: the core has all its turns after it. -/
theorem goOn_withEnt (e : Sync) (hu : Undisturbed s) : goOn (withEnt e s) = turns maxTurns (withEnt e s) := by
  have hb : budget (withEnt e s) = budget s := rfl
  rw [goOn, hb, hu]

end

/-! ### `STATUS` bit by bit (10_state.md R42) -/

/-- The eight flags, the last reading 0, then the error code. -/
def statusBit (s : State) : Nat → Bool
  | 0 => s.host.busy
  | 1 => s.host.done
  | 2 => s.host.error
  | 3 => s.drbg.instantiated
  | 4 => needsReseed s.drbg
  | 5 => entWait s.ent
  | 6 => s.host.overrun
  | 7 => false
  | i + 8 => s.host.err.getLsbD i

theorem statusWord_getLsbD (s : State) (i : Nat) : (statusWord s).getLsbD i = statusBit s i := by
  show BitVec.getLsbD (w := 16 + 8 + 1 + 1 + 1 + 1 + 1 + 1 + 1 + 1) (statusWord s) i = _
  rw [statusWord]
  simp only [BitVec.getLsbD_append]
  rcases i with _ | _ | _ | _ | _ | _ | _ | _ | i
  case succ.succ.succ.succ.succ.succ.succ.succ =>
    simp only [statusBit]
    by_cases h : i < 8
    · simp [h]
    · simp [h, BitVec.getLsbD_of_ge s.host.err i (Nat.not_lt.mp h)]
  all_goals simp [statusBit]

end Sys2Proof.Machine
end

section
/-! SUPPORT. The invariant `Inv`, sorted by what it speaks of: the host interface, the DRBG registers, and the command that stands
behind the phase. Every turn of the core and every event from outside keep it (10_state.md R30 to R33, R48, R54;
42_drbg_commands.md R168). -/

namespace Sys2Proof.Machine

/-! ### The three parts of the invariant -/

/-- The flags, the OUT buffer and the events to come of a core whose phase is `p` (10_state.md R33, R39, R42, R48). -/
structure HostInv (p : Phase) (h : HostIf) (v : Env) : Prop where
  busyPhase : h.busy = true ↔ p ≠ .idle
  oneFlag : ¬ (h.busy = true ∧ h.done = true) ∧ ¬ (h.busy = true ∧ h.error = true) ∧
    ¬ (h.done = true ∧ h.error = true)
  errCode : (h.error = false → h.err = 0) ∧ (h.error = true → ∃ k, h.err = errorCode k)
  outBuffer : h.outWords.length = ceilDiv h.outLen.toNat 32 ∧ h.outRd.toNat ≤ ceilDiv h.outLen.toNat 32 ∧
    h.outLen.toNat ≤ Config.maxRequestBits
  inputs : ∀ i ∈ v.inputs, i.event.external = true

/-- The counter and the strength, of an instantiated DRBG and of one that is not (R30, R32). -/
def DrbgBounds (d : Drbg) : Prop :=
  (d.instantiated = false → d.reseedCounter = 0 ∧ d.strength = 0) ∧
  (d.instantiated = true →
    1 ≤ d.strength.toNat ∧ d.strength.toNat ≤ Config.maxStrength ∧
      1 ≤ d.reseedCounter.toNat ∧ d.reseedCounter.toNat ≤ Config.reseedInterval + 1)

/-- Uninstantiated, `V` and `C` are 0. -/
def Blank (d : Drbg) : Prop := d.instantiated = false → d.V = 0 ∧ d.C = 0

/-- An INSTANTIATE past its checks (42_drbg_commands.md R153). -/
def Instantiating (d : Drbg) (w : Work) : Prop :=
  w.curOp = 0x01#8 ∧ d.instantiated = false ∧ 1 ≤ w.curImm.toNat ∧ w.curImm.toNat ≤ Config.maxStrength

/-- A RESEED past its checks (R154). -/
def Reseeding (d : Drbg) (w : Work) : Prop := w.curOp = 0x02#8 ∧ d.instantiated = true

/-- A GENERATE past its checks (R155). -/
def Generating (d : Drbg) (w : Work) : Prop :=
  w.curOp = 0x03#8 ∧ d.instantiated = true ∧ d.reseedCounter.toNat ≤ Config.reseedInterval ∧
    1 ≤ w.curImm.toNat ∧ w.curImm.toNat ≤ Config.maxRequestBits

/-- Which command stands behind a phase, and what its checks have left (R168). -/
def PhaseInv (s : State) : Prop :=
  match s.phase with
  | .idle => s.eng = Engine.zero ∧ s.work = Work.zero ∧ s.ent = Sync.zero ∧ Blank s.drbg
  | .check => s.ent.state = .idle ∧ Blank s.drbg
  | .entE => (Instantiating s.drbg s.work ∨ Reseeding s.drbg s.work) ∧ Blank s.drbg
  | .entN => Instantiating s.drbg s.work ∧ Blank s.drbg
  | .seedV => s.ent.state = .idle ∧ (Instantiating s.drbg s.work ∨ Reseeding s.drbg s.work) ∧ Blank s.drbg
  | .seedC => s.ent.state = .idle ∧ (Instantiating s.drbg s.work ∨ Reseeding s.drbg s.work)
  | .addin => s.ent.state = .idle ∧ Generating s.drbg s.work
  | .hashgen => s.ent.state = .idle ∧ Generating s.drbg s.work
  | .update => s.ent.state = .idle ∧ Generating s.drbg s.work ∧ s.work.ret.length = s.work.curImm.toNat
  | .complete => s.ent.state = .idle ∧
    (Instantiating s.drbg s.work ∨ Reseeding s.drbg s.work ∨
      (Generating s.drbg s.work ∧ s.work.ret.length = s.work.curImm.toNat) ∨
      (s.work.curOp = 0x04#8 ∧ Blank s.drbg))

theorem phaseInv_of_inv {s : State} (h : Inv s) : PhaseInv s := by
  have entIdle : s.phase ≠ .entE → s.phase ≠ .entN → s.ent.state = .idle := fun c1 c2 =>
    Decidable.byContradiction fun c => (h.entPhase c).elim c1 c2
  have blank : s.phase ≠ .seedC → s.phase ≠ .complete → Blank s.drbg := by
    intro c1 c2 hi
    obtain ⟨-, -, hz | ⟨hp, -⟩⟩ := h.noInstance hi
    · exact hz
    · exact (hp.elim c1 c2).elim
  obtain ⟨opSeed, opN, opGen, opEnd⟩ := h.phaseOp
  have seeding : s.phase = .entE ∨ s.phase = .seedV ∨ s.phase = .seedC →
      Instantiating s.drbg s.work ∨ Reseeding s.drbg s.work := by
    intro c
    refine (opSeed c).imp (fun o => ⟨o, h.instantiating o ?_⟩) (fun o => ⟨o, h.reseeding o ?_⟩)
    · rcases c with c | c | c <;> simp [c]
    · rcases c with c | c | c <;> simp [c]
  have generating : s.phase = .addin ∨ s.phase = .hashgen ∨ s.phase = .update → Generating s.drbg s.work := by
    intro c
    refine ⟨opGen c, h.generating (opGen c) ?_⟩
    rcases c with c | c | c <;> simp [c]
  rw [PhaseInv]
  split
  next c => 
    obtain ⟨e, w, n⟩ := h.idleClean c
    exact ⟨e, w, n, blank (by simp [c]) (by simp [c])⟩
  next c => exact ⟨entIdle (by simp [c]) (by simp [c]), blank (by simp [c]) (by simp [c])⟩
  next c => exact ⟨seeding (.inl c), blank (by simp [c]) (by simp [c])⟩
  next c => exact ⟨⟨opN c, h.instantiating (opN c) (.inr (.inl c))⟩, blank (by simp [c]) (by simp [c])⟩
  next c =>
    exact ⟨entIdle (by simp [c]) (by simp [c]), seeding (.inr (.inl c)), blank (by simp [c]) (by simp [c])⟩
  next c => exact ⟨entIdle (by simp [c]) (by simp [c]), seeding (.inr (.inr c))⟩
  next c => exact ⟨entIdle (by simp [c]) (by simp [c]), generating (.inl c)⟩
  next c => exact ⟨entIdle (by simp [c]) (by simp [c]), generating (.inr (.inl c))⟩
  next c => exact ⟨entIdle (by simp [c]) (by simp [c]), generating (.inr (.inr c)), h.returned (.inl c)⟩
  next c =>
    refine ⟨entIdle (by simp [c]) (by simp [c]), ?_⟩
    rcases opEnd c with o | o | o | o
    · exact .inl ⟨o, h.instantiating o (by simp [c])⟩
    · exact .inr (.inl ⟨o, h.reseeding o (by simp [c])⟩)
    · exact .inr (.inr (.inl ⟨⟨o, h.generating o (by simp [c])⟩, h.returned (.inr ⟨c, o⟩)⟩))
    · refine .inr (.inr (.inr ⟨o, fun hi => ?_⟩))
      obtain ⟨-, -, hz | ⟨-, o'⟩⟩ := h.noInstance hi
      · exact hz
      · rw [o] at o'; exact absurd o' (by decide)

theorem hostInv_of_inv {s : State} (h : Inv s) : HostInv s.phase s.host s.env :=
  ⟨h.busyPhase, h.oneFlag, h.errCode, h.outBuffer, h.inputs⟩

theorem drbgBounds_of_inv {s : State} (h : Inv s) : DrbgBounds s.drbg :=
  ⟨fun hi => ⟨(h.noInstance hi).1, (h.noInstance hi).2.1⟩, h.hasInstance⟩

section
variable {s : State} (h : PhaseInv s)
include h

theorem PhaseInv.clean (c : s.phase = .idle) :
    s.eng = Engine.zero ∧ s.work = Work.zero ∧ s.ent = Sync.zero ∧ Blank s.drbg := by
  simpa only [PhaseInv, c] using h

theorem PhaseInv.seeding (c : s.phase = .entE ∨ s.phase = .seedV ∨ s.phase = .seedC) :
    Instantiating s.drbg s.work ∨ Reseeding s.drbg s.work := by
  rcases c with c | c | c <;> simp only [PhaseInv, c] at h
  exacts [h.1, h.2.1, h.2]

theorem PhaseInv.nonce (c : s.phase = .entN) : Instantiating s.drbg s.work ∧ Blank s.drbg := by
  simpa only [PhaseInv, c] using h

theorem PhaseInv.generating (c : s.phase = .addin ∨ s.phase = .hashgen ∨ s.phase = .update) :
    Generating s.drbg s.work := by
  rcases c with c | c | c <;> simp only [PhaseInv, c] at h
  exacts [h.2, h.2, h.2.1]

theorem PhaseInv.updating (c : s.phase = .update) : s.work.ret.length = s.work.curImm.toNat := by
  simp only [PhaseInv, c] at h
  exact h.2.2

theorem PhaseInv.completing (c : s.phase = .complete) :
    Instantiating s.drbg s.work ∨ Reseeding s.drbg s.work ∨
      (Generating s.drbg s.work ∧ s.work.ret.length = s.work.curImm.toNat) ∨
      (s.work.curOp = 0x04#8 ∧ Blank s.drbg) := by
  simp only [PhaseInv, c] at h
  exact h.2

theorem PhaseInv.entIdle (c1 : s.phase ≠ .entE) (c2 : s.phase ≠ .entN) : s.ent.state = .idle := by
  rw [PhaseInv] at h
  split at h
  next => rw [h.2.2.1, Sync.zero]
  next => exact h.1
  next c => exact absurd c c1
  next c => exact absurd c c2
  all_goals exact h.1

theorem PhaseInv.blank (c1 : s.phase ≠ .seedC) (c2 : s.phase ≠ .complete) : Blank s.drbg := by
  rw [PhaseInv] at h
  split at h
  next => exact h.2.2.2
  next => exact h.2
  next => exact h.2
  next => exact h.2
  next => exact h.2.2
  next c => exact absurd c c1
  next => exact fun hi => absurd (h.2.2.1.symm.trans hi) (by decide)
  next => exact fun hi => absurd (h.2.2.1.symm.trans hi) (by decide)
  next => exact fun hi => absurd (h.2.1.2.1.symm.trans hi) (by decide)
  next c => exact absurd c c2

/-- The command that stands behind a phase in which one has passed its checks. -/
theorem PhaseInv.command (h1 : s.phase ≠ .idle) (h2 : s.phase ≠ .check) :
    Instantiating s.drbg s.work ∨ Reseeding s.drbg s.work ∨ Generating s.drbg s.work ∨
      (s.work.curOp = 0x04#8 ∧ Blank s.drbg) := by
  cases c : s.phase with
  | idle => exact absurd c h1
  | check => exact absurd c h2
  | entE => exact (h.seeding (.inl c)).imp_right .inl
  | entN => exact .inl (h.nonce c).1
  | seedV => exact (h.seeding (.inr (.inl c))).imp_right .inl
  | seedC => exact (h.seeding (.inr (.inr c))).imp_right .inl
  | addin => exact .inr (.inr (.inl (h.generating (.inl c))))
  | hashgen => exact .inr (.inr (.inl (h.generating (.inr (.inl c)))))
  | update => exact .inr (.inr (.inl (h.generating (.inr (.inr c)))))
  | complete => exact (h.completing c).imp_right (Or.imp_right (Or.imp_left And.left))

end

/-- Two opcodes are not one. -/
theorem opcode_absurd {op a b : BitVec 8} {p : Prop} (ha : op = a) (hb : op = b) (h : a ≠ b) : p :=
  absurd (ha.symm.trans hb) h

theorem inv_of_parts {s : State} (hh : HostInv s.phase s.host s.env) (hd : DrbgBounds s.drbg) (hp : PhaseInv s) :
    Inv s where
  busyPhase := hh.busyPhase
  idleClean c := ⟨(hp.clean c).1, (hp.clean c).2.1, (hp.clean c).2.2.1⟩
  oneFlag := hh.oneFlag
  errCode := hh.errCode
  entPhase c := by
    by_contra hn
    rw [not_or] at hn
    exact c (hp.entIdle hn.1 hn.2)
  noInstance hi := by
    refine ⟨(hd.1 hi).1, (hd.1 hi).2, ?_⟩
    by_cases c : s.phase = .seedC ∨ s.phase = .complete
    · rcases hp.command (by rcases c with c | c <;> simp [c]) (by rcases c with c | c <;> simp [c]) with
        h | h | h | h
      · exact .inr ⟨c, h.1⟩
      · exact absurd (h.2.symm.trans hi) (by decide)
      · exact absurd (h.2.1.symm.trans hi) (by decide)
      · exact .inl (h.2 hi)
    · rw [not_or] at c
      exact .inl (hp.blank c.1 c.2 hi)
  hasInstance := hd.2
  instantiating o c := by
    rcases hp.command (by rintro e; simp [e] at c) (by rintro e; simp [e] at c) with h | h | h | h
    · exact h.2
    · exact opcode_absurd o h.1 (by decide)
    · exact opcode_absurd o h.1 (by decide)
    · exact opcode_absurd o h.1 (by decide)
  reseeding o c := by
    rcases hp.command (by rintro e; simp [e] at c) (by rintro e; simp [e] at c) with h | h | h | h
    · exact opcode_absurd o h.1 (by decide)
    · exact h.2
    · exact opcode_absurd o h.1 (by decide)
    · exact opcode_absurd o h.1 (by decide)
  generating o c := by
    rcases hp.command (by rintro e; simp [e] at c) (by rintro e; simp [e] at c) with h | h | h | h
    · exact opcode_absurd o h.1 (by decide)
    · exact opcode_absurd o h.1 (by decide)
    · exact h.2
    · exact opcode_absurd o h.1 (by decide)
  phaseOp := by
    refine ⟨fun c => (hp.seeding c).imp And.left And.left, fun c => (hp.nonce c).1.1, fun c => (hp.generating c).1,
      fun c => ?_⟩
    exact (hp.completing c).imp And.left (Or.imp And.left (Or.imp (fun h => h.1.1) And.left))
  returned := by
    rintro (c | ⟨c, o⟩)
    · exact hp.updating c
    · rcases hp.completing c with h | h | h | h
      · exact opcode_absurd o h.1 (by decide)
      · exact opcode_absurd o h.1 (by decide)
      · exact h.2
      · exact opcode_absurd o h.1 (by decide)
  outBuffer := hh.outBuffer
  inputs := hh.inputs

/-! ### The host interface of a running core and of one that has ended a command -/

section
variable {p : Phase} {h : HostIf} {v : Env} (i : HostInv p h v)
include i

theorem HostInv.running {q : Phase} {w : Env} (hp : p ≠ .idle) (hq : q ≠ .idle) (hw : w.inputs = v.inputs) :
    HostInv q h w where
  busyPhase := ⟨fun _ => hq, fun _ => i.busyPhase.mpr hp⟩
  oneFlag := i.oneFlag
  errCode := i.errCode
  outBuffer := i.outBuffer
  inputs := by rw [hw]; exact i.inputs

theorem HostInv.noError (hp : p ≠ .idle) : h.error = false := by
  have hb := i.busyPhase.mpr hp
  have he := i.oneFlag.2.1
  simpa [hb] using he

theorem HostInv.raised (k : ErrorKind) :
    HostInv .idle { h with err := errorCode k, error := true, done := false, busy := false } v where
  busyPhase := by simp
  oneFlag := by simp
  errCode := ⟨by simp, fun _ => ⟨k, rfl⟩⟩
  outBuffer := i.outBuffer
  inputs := i.inputs

theorem HostInv.finished (hp : p ≠ .idle) : HostInv .idle { h with done := true, busy := false } v where
  busyPhase := by simp
  oneFlag := by simp [i.noError hp]
  errCode := i.errCode
  outBuffer := i.outBuffer
  inputs := i.inputs

/-- The delivery of GENERATE (42_drbg_commands.md R164). -/
theorem HostInv.delivered {n : BitVec 24} {r : BitString} (hr : r.length = n.toNat)
    (hn : n.toNat ≤ Config.maxRequestBits) :
    HostInv p { h with outLen := n.setWidth 20, outWords := pack32 r, outRd := 0 } v where
  busyPhase := i.busyPhase
  oneFlag := i.oneFlag
  errCode := i.errCode
  outBuffer := by
    have hw : (n.setWidth 20).toNat = n.toNat := by
      rw [BitVec.toNat_setWidth, Nat.mod_eq_of_lt (Nat.lt_of_le_of_lt hn (by decide))]
    refine ⟨?_, Nat.zero_le _, hw ▸ hn⟩
    rw [pack32_length, hr, hw]
  inputs := i.inputs

end

theorem inv_idleState {d : Drbg} {h : HostIf} {v : Env} (hh : HostInv .idle h v) (hd : DrbgBounds d) (hb : Blank d) :
    Inv (idleState d h v) :=
  inv_of_parts hh hd ⟨rfl, rfl, rfl, hb⟩

/-! ### The turns -/

/-- A turn that goes on with the command: only the phase's own facts are left to show. -/
theorem inv_of_running {s t : State} (h : Inv s) (hs : s.phase ≠ .idle) (ht : t.phase ≠ .idle)
    (hh : t.host = s.host) (hw : t.env.inputs = s.env.inputs) (hd : DrbgBounds t.drbg) (hp : PhaseInv t) : Inv t :=
  inv_of_parts (hh ▸ (hostInv_of_inv h).running hs ht hw) hd hp

theorem inv_raiseError {s : State} (k : ErrorKind) (h : Inv s) (hb : Blank s.drbg) : Inv (raiseError k s) := by
  rw [raiseError_eq]
  exact inv_idleState ((hostInv_of_inv h).raised k) (drbgBounds_of_inv h) hb

/-- The counter after a seeding is within its bounds. -/
theorem one_counter_bounds :
    1 ≤ (1 : BitVec Config.ctrBits).toNat ∧ (1 : BitVec Config.ctrBits).toNat ≤ Config.reseedInterval + 1 := by
  decide

theorem inv_finish_commit {s : State} (h : Inv s) (hp : s.phase = .complete) : Inv (finishCommand (commit s)) := by
  have hs : s.phase ≠ .idle := by simp [hp]
  have hh := hostInv_of_inv h
  rcases (phaseInv_of_inv h).completing hp with c | c | ⟨c, hr⟩ | ⟨c, hb⟩
  · obtain ⟨ho, hi, h1, h2⟩ := c
    have hw : (s.work.curImm.setWidth 9).toNat = s.work.curImm.toNat := by
      rw [BitVec.toNat_setWidth, Nat.mod_eq_of_lt (Nat.lt_of_le_of_lt h2 (by decide))]
    rw [commit_instantiate ho]
    refine inv_idleState (hh.finished hs) ⟨nofun, fun _ => ⟨?_, ?_, one_counter_bounds⟩⟩ nofun
    · exact hw ▸ h1
    · exact hw ▸ h2
  · obtain ⟨ho, hi⟩ := c
    rw [commit_reseed ho]
    obtain ⟨h1, h2, -, -⟩ := h.hasInstance hi
    exact inv_idleState (hh.finished hs) ⟨fun c => absurd (hi.symm.trans c) (by decide),
      fun _ => ⟨h1, h2, one_counter_bounds⟩⟩ fun c => absurd (hi.symm.trans c) (by decide)
  · obtain ⟨ho, hi, hc, -, hn⟩ := c
    rw [commit_generate ho]
    obtain ⟨h1, h2, h3, -⟩ := h.hasInstance hi
    have hs1 : (s.drbg.reseedCounter + 1).toNat = s.drbg.reseedCounter.toNat + 1 := by
      rw [BitVec.toNat_add]
      exact Nat.mod_eq_of_lt (Nat.lt_of_le_of_lt (Nat.succ_le_succ hc) (by decide))
    refine inv_idleState ((hh.delivered hr hn).finished hs) ⟨fun c => absurd (hi.symm.trans c) (by decide),
      fun _ => ⟨h1, h2, ?_, ?_⟩⟩ fun c => absurd (hi.symm.trans c) (by decide)
    · show 1 ≤ (s.drbg.reseedCounter + 1).toNat
      rw [hs1]; omega
    · show (s.drbg.reseedCounter + 1).toNat ≤ _
      rw [hs1]; omega
  · rw [commit_uninstantiate c]
    exact inv_idleState (hh.finished hs) ⟨fun _ => ⟨rfl, rfl⟩, nofun⟩ fun _ => ⟨rfl, rfl⟩

theorem inv_sourceTurn {s : State} (h : Inv s) (hp : s.phase = .entE ∨ s.phase = .entN) : Inv (sourceTurn s) := by
  have hs : s.phase ≠ .idle := by rcases hp with c | c <;> simp [c]
  have hd := drbgBounds_of_inv h
  /- In ENT_E and ENT_N nothing is claimed of the synchronizer, nor anywhere of the script. -/
  have key : ∀ (e : Sync) (l : List Answer), Inv { s with ent := e, env := { s.env with source := l } } := by
    intro e l
    refine inv_of_running h hs hs rfl rfl hd ?_
    have hi := phaseInv_of_inv h
    rcases hp with c | c <;> simpa only [PhaseInv, c] using hi
  rcases sourceTurn_cases s with c | ⟨d, rest, -, -, c⟩ | ⟨rest, -, c⟩ <;> rw [c]
  · exact h
  · exact key _ _
  · exact key _ _

theorem inv_turn {s t : State} (h : Inv s) (ht : Turn s t) : Inv t := by
  have hp := phaseInv_of_inv h
  have hd := drbgBounds_of_inv h
  cases ht with
  | idle _ => exact h
  | error k c => exact inv_raiseError k h (hp.blank (by rcases c with c | c | c <;> simp [c])
      (by rcases c with c | c | c <;> simp [c]))
  | instantiate c ho hi h1 h2 _ _ =>
    exact inv_of_running h (by simp [c]) nofun rfl rfl hd ⟨.inl ⟨ho, hi, h1, h2⟩, hp.blank (by simp [c]) (by simp [c])⟩
  | reseed c ho hi _ _ _ =>
    exact inv_of_running h (by simp [c]) nofun rfl rfl hd ⟨.inr ⟨ho, hi⟩, hp.blank (by simp [c]) (by simp [c])⟩
  | generate p c ho hi h1 h2 _ _ h3 e =>
    have hg : s.ent.state = .idle ∧ Generating s.drbg s.work :=
      ⟨hp.entIdle (by simp [c]) (by simp [c]), ho, hi, h3, h1, h2⟩
    split at e <;> subst e <;> exact inv_of_running h (by simp [c]) nofun rfl rfl hd hg
  | uninstantiate c ho _ =>
    exact inv_of_running h (by simp [c]) nofun rfl rfl hd
      ⟨hp.entIdle (by simp [c]) (by simp [c]), .inr (.inr (.inr ⟨ho, hp.blank (by simp [c]) (by simp [c])⟩))⟩
  | request m c _ =>
    refine inv_of_running h ?_ ?_ rfl rfl hd ?_
    · rcases c with c | c <;> simp [c]
    · rcases c with c | c <;> simp [c]
    · rcases c with c | c <;> simpa only [PhaseInv, c] using hp
  | source c _ => exact inv_sourceTurn h c
  | entropy c _ _ =>
    have hb := hp.blank (by simp [c]) (by simp [c])
    rcases hp.seeding (.inl c) with o | o
    · have e : (takeEntropy s.ent.buf { s with ent := entTake s.ent }).phase = .entN := if_pos o.1
      refine inv_of_running h (by simp [c]) (by rw [e]; nofun) rfl rfl hd ?_
      rw [PhaseInv, e]
      exact ⟨o, hb⟩
    · have e : (takeEntropy s.ent.buf { s with ent := entTake s.ent }).phase = .seedV :=
        if_neg fun x => opcode_absurd x o.1 (by decide)
      refine inv_of_running h (by simp [c]) (by rw [e]; nofun) rfl rfl hd ?_
      rw [PhaseInv, e]
      exact ⟨rfl, .inr o, hb⟩
  | nonce c _ _ _ =>
    exact inv_of_running h (by simp [c]) nofun rfl rfl hd ⟨rfl, .inl (hp.nonce c).1, (hp.nonce c).2⟩
  | seedV E n a r c =>
    exact inv_of_running h (by simp [c]) nofun rfl rfl hd
      ⟨hp.entIdle (by simp [c]) (by simp [c]), hp.seeding (.inr (.inl c))⟩
  | seedC E n a r c =>
    exact inv_of_running h (by simp [c]) nofun rfl rfl hd
      ⟨hp.entIdle (by simp [c]) (by simp [c]), (hp.seeding (.inr (.inr c))).imp_right .inl⟩
  | addin E v c =>
    exact inv_of_running h (by simp [c]) nofun rfl rfl hd
      ⟨hp.entIdle (by simp [c]) (by simp [c]), hp.generating (.inl c)⟩
  | hashgen E d n c =>
    exact inv_of_running h (by simp [c]) nofun rfl rfl hd
      ⟨hp.entIdle (by simp [c]) (by simp [c]), hp.generating (.inr (.inl c)), hashgen_length _ _⟩
  | update E v c =>
    exact inv_of_running h (by simp [c]) nofun rfl rfl hd
      ⟨hp.entIdle (by simp [c]) (by simp [c]), .inr (.inr (.inl ⟨hp.generating (.inr (.inr c)), hp.updating c⟩))⟩
  | complete c => exact inv_finish_commit h c

theorem inv_seqStep {s : State} (h : Inv s) : Inv (seqStep s) := inv_turn h (seqStep_turn s)

theorem inv_goOn {s : State} (h : Inv s) : Inv (goOn s) := goOn_keep (fun _ hs => inv_seqStep hs) h

/-! ### The events from outside -/

/-- The invariant does not see an event being taken off the list. -/
theorem inv_withInputs {s : State} {l : List Input} (h : Inv s) (hl : ∀ i ∈ l, i.event.external = true) :
    Inv (withInputs l s) := by
  have hd := drbgBounds_of_inv h
  have hp := phaseInv_of_inv h
  obtain ⟨busy, one, code, out, -⟩ := hostInv_of_inv h
  exact inv_of_parts ⟨busy, one, code, out, hl⟩ hd hp

/-- A change of the host interface alone. -/
theorem inv_withHost {s : State} {g : HostIf} {w : Env} (h : Inv s) (hh : HostInv s.phase g w) :
    Inv { s with host := g, env := w } := by
  have hd := drbgBounds_of_inv h
  have hp := phaseInv_of_inv h
  exact inv_of_parts hh hd hp

theorem phase_idle_of_not_busy {s : State} (h : Inv s) (hb : s.host.busy = false) : s.phase = .idle := by
  by_contra c
  exact absurd ((h.busyPhase.mpr c).symm.trans hb) (by decide)

theorem hostIf_zero_outBuffer :
    HostIf.zero.outWords.length = ceilDiv HostIf.zero.outLen.toNat 32 ∧
      HostIf.zero.outRd.toNat ≤ ceilDiv HostIf.zero.outLen.toNat 32 ∧
      HostIf.zero.outLen.toNat ≤ Config.maxRequestBits := by decide

theorem inv_accept {s : State} (w : Word) (h : Inv s) (hb : s.host.busy = false) : Inv (accept w s) := by
  have hi := phase_idle_of_not_busy h hb
  have hd := drbgBounds_of_inv h
  obtain ⟨-, -, he, hz⟩ := (phaseInv_of_inv h).clean hi
  refine inv_of_parts ⟨by simp [HostIf.zero], by simp [HostIf.zero], by simp [HostIf.zero], hostIf_zero_outBuffer,
    h.inputs⟩ hd ⟨?_, hz⟩
  show s.ent.state = _
  rw [he]; rfl

theorem inv_setOverrun {s : State} (h : Inv s) : Inv (setOverrun s) := by
  obtain ⟨busy, one, code, out, ins⟩ := hostInv_of_inv h
  exact inv_withHost h ⟨busy, one, code, out, ins⟩

/-- A write of the IN buffer. -/
theorem inv_withIn {s : State} (n : BitVec 64) (ws : List Word) (h : Inv s) :
    Inv { s with host := { s.host with inLen := n, inWords := ws } } := by
  obtain ⟨busy, one, code, out, ins⟩ := hostInv_of_inv h
  exact inv_withHost h ⟨busy, one, code, out, ins⟩

theorem inv_hostWrite {s : State} (n : Nat) (v : Word) (h : Inv s) : Inv (hostWrite n v s) := by
  unfold hostWrite
  split
  · split
    · exact inv_setOverrun h
    · exact inv_withIn _ _ h
  · split
    · exact inv_setOverrun h
    · exact inv_withIn _ _ h
  · split
    · exact inv_setOverrun h
    · exact inv_withIn _ _ h
  · exact h

theorem inv_popOut {s : State} (h : Inv s) : Inv (popOut s) := by
  rw [popOut]
  split
  next c =>
    obtain ⟨busy, one, code, ⟨ho, -, hm⟩, ins⟩ := hostInv_of_inv h
    rw [outReady, Bool.and_eq_true, decide_eq_true_eq] at c
    refine inv_withHost h ⟨busy, one, code, ⟨ho, ?_, hm⟩, ins⟩
    show (s.host.outRd + 1).toNat ≤ _
    rw [BitVec.toNat_add]
    exact (Nat.mod_le _ _).trans c.2
  next => exact h

theorem inv_hostRead {s : State} (n : Nat) (h : Inv s) : Inv (hostRead n s) := by
  have hr : Inv (readEffect n s) := by
    unfold readEffect
    split
    · exact inv_popOut h
    · exact h
  obtain ⟨busy, one, code, out, ins⟩ := hostInv_of_inv hr
  exact inv_withHost hr ⟨busy, one, code, out, ins⟩

/-- The synchronizer changes only with a request outstanding, and then the phase's facts do not speak of it. -/
theorem inv_withEnt {s : State} {e : Sync} (h : Inv s) (he : s.ent.state = .req ∨ e = s.ent) :
    Inv { s with ent := e } := by
  rcases he with he | rfl
  · have hh := hostInv_of_inv h
    have hd := drbgBounds_of_inv h
    have hp := phaseInv_of_inv h
    refine inv_of_parts hh hd ?_
    rcases h.entPhase (by simp [he]) with c | c <;> simpa only [PhaseInv, c] using hp
  · exact h

theorem inv_entDeliver {s : State} (d : BitString) (h : Inv s) : Inv { s with ent := entDeliver d s.ent } := by
  refine inv_withEnt h ?_
  rw [entDeliver]
  split
  next c => exact .inl c
  next => exact .inr rfl

theorem inv_entFail {s : State} (h : Inv s) : Inv { s with ent := entFail s.ent } := by
  refine inv_withEnt h ?_
  rw [entFail]
  split
  next c => exact .inl c
  next => exact .inr rfl

theorem inv_resetCore {s : State} (h : ∀ i ∈ s.env.inputs, i.event.external = true) : Inv (resetCore s) :=
  inv_idleState (h := HostIf.zero)
    ⟨by simp [HostIf.zero], by simp [HostIf.zero], by simp [HostIf.zero], hostIf_zero_outBuffer, h⟩
    ⟨fun _ => ⟨rfl, rfl⟩, nofun⟩ fun _ => ⟨rfl, rfl⟩

/-- Whatever event comes next, the rest of the list is still from outside. -/
theorem external_of_mem_rest {s : State} {i : Input} {rest : List Input} (h : Inv s) (hin : s.env.inputs = i :: rest) :
    i.event.external = true ∧ ∀ j ∈ rest, j.event.external = true := by
  have hx := h.inputs
  rw [hin] at hx
  exact ⟨hx i List.mem_cons_self, fun j hj => hx j (List.mem_cons_of_mem i hj)⟩

theorem inv_landed {s u : State} (h : Inv s) (hl : Landed s u) : Inv u := by
  cases hl with
  | none => exact h
  | command k w rest hin hb => exact inv_accept w (inv_withInputs h (external_of_mem_rest h hin).2) hb
  | dropped k w rest hin _ => exact inv_setOverrun (inv_withInputs h (external_of_mem_rest h hin).2)
  | hostWrite k n v rest hin => exact inv_hostWrite (n + 1) v (inv_withInputs h (external_of_mem_rest h hin).2)
  | hostRead k n rest hin => exact inv_hostRead n (inv_withInputs h (external_of_mem_rest h hin).2)
  | uop k code args rest i u hin hd he =>
    obtain ⟨hx, hrest⟩ := external_of_mem_rest h hin
    rcases external_uop hx hd he with e | e <;> rw [e]
    · exact inv_entDeliver args.bits (inv_withInputs h hrest)
    · exact inv_entFail (inv_withInputs h hrest)
  | reset k rest hin => exact inv_resetCore (external_of_mem_rest h hin).2

theorem inv_step {s t : State} (h : Inv s) (ht : step s = .next t) : Inv t := by
  obtain ⟨u, hu, rfl⟩ := step_landed ht
  exact inv_goOn (inv_landed h hu)

/-! ### The statements -/

/-- Settles O54: reset is an idle, uninstantiated core with no event to come. -/
theorem resetMeetsInvariant : Obligations.ResetMeetsInvariant := by
  unfold Obligations.ResetMeetsInvariant
  have h : Inv (resetCore State.reset) := inv_resetCore fun _ hi => absurd hi List.not_mem_nil
  exact h

/-- Settles O55: every event from outside keeps the invariant, and so does every turn after it. -/
theorem stepKeepsInvariant : Obligations.StepKeepsInvariant := by
  unfold Obligations.StepKeepsInvariant
  exact fun _ _ => inv_step

end Sys2Proof.Machine
end

section
/-! SUPPORT. What follows from the turns and from the invariant for a whole step: errors leave the DRBG registers, effects show only
at completion, the DRBG's state graph, and the bound on the turns of a command (10_state.md R49; 42_drbg_commands.md R150, R151,
R168; 60_exceptions.md R206; 70_reset_and_hazards.md R243). -/

namespace Sys2Proof.Machine

/-! ### What a turn, and an event that lands, can do to the registers behind `STATUS` -/

/-- The counter, `instantiated` and the strength are the same. -/
def SameFlags (d e : Drbg) : Prop :=
  e.reseedCounter = d.reseedCounter ∧ e.instantiated = d.instantiated ∧ e.strength = d.strength

theorem SameFlags.refl (d : Drbg) : SameFlags d d := ⟨rfl, rfl, rfl⟩

theorem SameFlags.trans {d e f : Drbg} (h : SameFlags d e) (k : SameFlags e f) : SameFlags d f :=
  ⟨k.1.trans h.1, k.2.1.trans h.2.1, k.2.2.trans h.2.2⟩

/-- A turn goes on unseen, or raises an error, or completes the command. -/
theorem turn_outcome {s t : State} (h : Turn s t) :
    (SameFlags s.drbg t.drbg ∧ t.host = s.host) ∨ (∃ k, t = raiseError k s) ∨
      (s.phase = .complete ∧ t = finishCommand (commit s)) := by
  cases h with
  | error k _ => exact .inr (.inl ⟨k, rfl⟩)
  | complete c => exact .inr (.inr ⟨c, rfl⟩)
  | source _ _ =>
    refine .inl ?_
    rcases sourceTurn_cases s with c | ⟨d, rest, -, -, c⟩ | ⟨rest, -, c⟩ <;> rw [c] <;>
      exact ⟨SameFlags.refl _, rfl⟩
  | _ => exact .inl ⟨⟨rfl, rfl, rfl⟩, rfl⟩

/-- The completion of a command leaves `done` set, `busy` clear and the core idle. -/
theorem finishCommand_ends (s : State) :
    (finishCommand s).phase = .idle ∧ (finishCommand s).host.busy = false ∧ (finishCommand s).host.done = true :=
  ⟨rfl, rfl, rfl⟩

/-- A micro-operation writes neither the DRBG registers nor the host interface, but that DF.DERIVE of an illegal length takes the
error entry. -/
theorem exec_uop_outcome {i : Instr} {s u : State} (hc : isCommand i = false) (he : exec i s = .next u) :
    u.drbg = s.drbg ∧ (u.host = s.host ∨ (u.phase = .idle ∧ u.host.busy = false)) := by
  cases i with
  | instantiate | reseed | generate | uninstantiate => cases hc
  | uNop | shaInit | shaFinal | shaLoad | entFail => cases he; exact ⟨rfl, .inl rfl⟩
  | shaAbsorb p =>
    rw [exec, execShaAbsorb] at he
    split at he <;> cases he
    exact ⟨rfl, .inl rfl⟩
  | shaRound =>
    rw [exec, execShaRound] at he
    split at he <;> cases he
    exact ⟨rfl, .inl rfl⟩
  | shaFold =>
    rw [exec, execShaFold] at he
    split at he <;> cases he
    exact ⟨rfl, .inl rfl⟩
  | dfDerive input bits =>
    rw [exec, execDfDerive] at he
    split at he
    · cases he; exact ⟨rfl, .inr ⟨rfl, rfl⟩⟩
    · split at he <;> cases he
      obtain ⟨E, a, r, e⟩ := runDerive_frame input bits s
      rw [e]; exact ⟨rfl, .inl rfl⟩
  | hgHashgen bits =>
    rw [exec, execHgHashgen] at he
    split at he <;> cases he
    · obtain ⟨E, e⟩ := runHashgen_spec bits.toNat s
      rw [e]; exact ⟨rfl, .inl rfl⟩
    · obtain ⟨E, e⟩ := runHashgenBeyond_spec bits.toNat s
      rw [e]; exact ⟨rfl, .inl rfl⟩
  | entRequest m =>
    rw [exec, execEntRequest] at he
    split at he <;> cases he
    exact ⟨rfl, .inl rfl⟩
  | entDeliver p =>
    rw [exec, execEntDeliver] at he
    split at he <;> cases he
    exact ⟨rfl, .inl rfl⟩

theorem hostWrite_drbg (n : Nat) (v : Word) (s : State) : (hostWrite n v s).drbg = s.drbg := by
  unfold hostWrite
  split
  · split <;> rfl
  · split <;> rfl
  · split <;> rfl
  · rfl

/-- A write while a command runs can only set `overrun` (10_state.md R50). -/
theorem hostWrite_busy (n : Nat) (v : Word) {s : State} (h : s.host.busy = true) :
    hostWrite n v s = s ∨ hostWrite n v s = setOverrun s := by
  unfold hostWrite
  rw [if_pos h, if_pos h, if_pos h]
  split
  · exact .inr rfl
  · exact .inr rfl
  · exact .inr rfl
  · exact .inl rfl

theorem popOut_drbg (s : State) : (popOut s).drbg = s.drbg := by
  rw [popOut]; split <;> rfl

theorem outReady_busy {h : HostIf} (hb : h.busy = true) : outReady h = false := by rw [outReady, hb]; rfl

theorem popOut_busy {s : State} (h : s.host.busy = true) : popOut s = s := by
  rw [popOut, outReady_busy h]; rfl

theorem hostRead_drbg (n : Nat) (s : State) : (hostRead n s).drbg = s.drbg := by
  show (readEffect n s).drbg = s.drbg
  unfold readEffect
  split
  · exact popOut_drbg s
  · rfl

theorem hostRead_busy (n : Nat) {s : State} (h : s.host.busy = true) : (hostRead n s).host = s.host := by
  show (readEffect n s).host = s.host
  unfold readEffect
  split
  · rw [popOut_busy h]
  · rfl

/-- An event that lands leaves the DRBG registers, but for reset. -/
theorem landed_drbg {s u : State} (h : Landed s u) :
    u.drbg = s.drbg ∨ ∃ k rest, s.env.inputs = ⟨k, .reset⟩ :: rest ∧ u = resetCore (withInputs rest s) := by
  cases h with
  | none | command | dropped => exact .inl rfl
  | hostWrite k n v rest _ => exact .inl (hostWrite_drbg (n + 1) v (withInputs rest s))
  | hostRead k n rest _ => exact .inl (hostRead_drbg n (withInputs rest s))
  | uop k code args rest i u _ hd he => exact .inl (exec_uop_outcome (isCommand_of_decodeUop hd) he).1
  | reset k rest hin => exact .inr ⟨k, rest, hin, rfl⟩

/-- An event that lands on a busy core and leaves it busy sets `overrun` at most. -/
theorem landed_busy {s u : State} (h : Landed s u) (hb : s.host.busy = true) :
    u.host = { s.host with overrun := u.host.overrun } ∨ (u.phase = .idle ∧ u.host.busy = false) := by
  cases h with
  | none | dropped => exact .inl rfl
  | command k w rest _ hn => exact absurd (hb.symm.trans hn) (by decide)
  | hostWrite k n v rest _ =>
    refine .inl ?_
    rcases hostWrite_busy (n + 1) v (s := withInputs rest s) hb with e | e <;> rw [e] <;> rfl
  | hostRead k n rest _ =>
    refine .inl ?_
    rw [hostRead_busy n (s := withInputs rest s) hb]
    rfl
  | uop k code args rest i u _ hd he =>
    exact (exec_uop_outcome (isCommand_of_decodeUop hd) he).2.imp_left fun e => by rw [e]; rfl
  | reset k rest _ => exact .inr ⟨rfl, rfl⟩

/-! ### Effects show only at completion -/

/-- The turns of the core end with `busy` clear, or nothing of what the host can see has changed. -/
theorem goOn_shown (s : State) :
    ((goOn s).phase = .idle ∧ (goOn s).host.busy = false) ∨
      (SameFlags s.drbg (goOn s).drbg ∧ (goOn s).host = s.host) := by
  refine goOn_keep (P := fun t => (t.phase = .idle ∧ t.host.busy = false) ∨
    (SameFlags s.drbg t.drbg ∧ t.host = s.host)) ?_ (.inr ⟨SameFlags.refl _, rfl⟩)
  rintro t (h | ⟨hd, hh⟩)
  · rw [seqStep_idle h.1]; exact .inl h
  · rcases turn_outcome (seqStep_turn t) with ⟨kd, kh⟩ | ⟨k, e⟩ | ⟨-, e⟩
    · exact .inr ⟨hd.trans kd, kh.trans hh⟩
    · rw [e]; exact .inl ⟨rfl, rfl⟩
    · rw [e]; exact .inl ⟨rfl, rfl⟩

theorem goOn_busy {s : State} (h : (goOn s).host.busy = true) :
    SameFlags s.drbg (goOn s).drbg ∧ (goOn s).host = s.host :=
  (goOn_shown s).resolve_left fun c => absurd (h.symm.trans c.2) (by decide)

/-! ### An error leaves the DRBG registers -/

/-- Past the checks and the entropy input a command raises no error (42_drbg_commands.md R168). -/
def NoMoreErrors (s : State) : Prop :=
  s.host.error = false ∧ s.phase ≠ .check ∧ s.phase ≠ .entE ∧ s.phase ≠ .entN

theorem noMoreErrors_turn {s t : State} (h : NoMoreErrors s) (ht : Turn s t) : NoMoreErrors t := by
  obtain ⟨he, h1, h2, h3⟩ := h
  cases ht with
  | idle c => exact ⟨he, h1, h2, h3⟩
  | error _ c => exact absurd c (by simp [h1, h2, h3])
  | instantiate c | reseed c | uninstantiate c => exact absurd c h1
  | generate _ c => exact absurd c h1
  | request _ c => exact absurd c (by simp [h2, h3])
  | source c => exact absurd c (by simp [h2, h3])
  | entropy c => exact absurd c h2
  | nonce c => exact absurd c h3
  | complete c =>
    refine ⟨?_, nofun, nofun, nofun⟩
    rcases commit_cases s with ⟨-, e⟩ | ⟨-, e⟩ | ⟨-, e⟩ | ⟨-, e⟩ | ⟨-, -, -, -, e⟩ <;> rw [e] <;> exact he
  | _ => exact ⟨he, nofun, nofun, nofun⟩

/-- In the checks and while the entropy input is taken the DRBG registers are not written. -/
theorem turn_drbg_early {s t : State} (ht : Turn s t) (h : s.phase = .check ∨ s.phase = .entE ∨ s.phase = .entN) :
    t.drbg = s.drbg := by
  cases ht with
  | source => rcases sourceTurn_cases s with c | ⟨d, rest, -, -, c⟩ | ⟨rest, -, c⟩ <;> rw [c]
  | seedV _ _ _ _ c | seedC _ _ _ _ c | addin _ _ c | update _ _ c | complete c => simp [c] at h
  | _ => rfl

theorem turns_error_drbg (n : Nat) {s : State} (h : Inv s) (he : (turns n s).host.error = true) :
    (turns n s).drbg = s.drbg := by
  induction n generalizing s with
  | zero => rfl
  | succ n ih =>
    by_cases early : s.phase = .check ∨ s.phase = .entE ∨ s.phase = .entN
    · rw [turns_succ] at he ⊢
      rw [ih (inv_seqStep h) he, turn_drbg_early (seqStep_turn s) early]
    · by_cases idle : s.phase = .idle
      · rw [turns_idle idle]
      · simp only [not_or] at early
        have late : NoMoreErrors (turns (n + 1) s) :=
          turns_keep (fun t ht => noMoreErrors_turn ht (seqStep_turn t)) _
            ⟨(hostInv_of_inv h).noError idle, early⟩
        exact absurd (he.symm.trans late.1) (by decide)

/-! ### The DRBG's state graph -/

theorem drbgState_congr {d e : Drbg} (h : SameFlags d e) : drbgState e = drbgState d := by
  rw [drbgState, drbgState, counterExhausted, counterExhausted, h.1, h.2.1]

/-- The turns of the core end with `done` set, or leave the registers that tell the DRBG's state. -/
theorem goOn_done (s : State) :
    ((goOn s).phase = .idle ∧ (goOn s).host.done = true) ∨ SameFlags s.drbg (goOn s).drbg := by
  refine goOn_keep (P := fun t => (t.phase = .idle ∧ t.host.done = true) ∨ SameFlags s.drbg t.drbg) ?_
    (.inr (SameFlags.refl _))
  rintro t (h | hd)
  · rw [seqStep_idle h.1]; exact .inl h
  · rcases turn_outcome (seqStep_turn t) with ⟨kd, -⟩ | ⟨k, e⟩ | ⟨-, e⟩
    · exact .inr (hd.trans kd)
    · rw [e]; exact .inr hd
    · rw [e]; exact .inl ⟨rfl, rfl⟩

/-- From an uninstantiated core the turns of the core lead to an uninstantiated one, or to one whose counter is 1. -/
theorem goOn_uninstantiated {s : State} (h : Inv s) (hi : s.drbg.instantiated = false) :
    (goOn s).drbg.instantiated = false ∨ (goOn s).drbg.reseedCounter = 1 := by
  refine (goOn_keep (P := fun t => Inv t ∧
    (t.drbg.instantiated = false ∨ (t.phase = .idle ∧ t.drbg.reseedCounter = 1))) ?_ ⟨h, .inl hi⟩).2.imp_right And.right
  rintro t ⟨ht, hf | hf⟩
  · refine ⟨inv_seqStep ht, ?_⟩
    rcases turn_outcome (seqStep_turn t) with ⟨kd, -⟩ | ⟨k, e⟩ | ⟨c, e⟩
    · exact .inl (kd.2.1.trans hf)
    · rw [e]; exact .inl hf
    · rw [e]
      rcases (phaseInv_of_inv ht).completing c with o | o | ⟨o, -⟩ | ⟨o, -⟩
      · rw [commit_instantiate o.1]; exact .inr ⟨rfl, rfl⟩
      · exact absurd (o.2.symm.trans hf) (by decide)
      · exact absurd (o.2.1.symm.trans hf) (by decide)
      · rw [commit_uninstantiate o]; exact .inl rfl
  · rw [seqStep_idle hf.1]; exact ⟨ht, .inr hf⟩

theorem drbgState_uninstantiated_iff (d : Drbg) : drbgState d = .uninstantiated ↔ d.instantiated = false := by
  rw [drbgState]
  cases d.instantiated with
  | false => simp
  | true => cases counterExhausted d <;> simp

theorem drbgState_ne_needsReseed {d : Drbg} (h : d.instantiated = false ∨ d.reseedCounter = 1) :
    drbgState d ≠ .needsReseed := by
  rcases h with h | h
  · rw [(drbgState_uninstantiated_iff d).mpr h]; nofun
  · have hc : counterExhausted d = false := by rw [counterExhausted, h]; decide
    rw [drbgState, hc]
    cases d.instantiated <;> nofun

/-! ### Ten turns -/

/-- How many turns a command has left at most (42_drbg_commands.md R168, R244). -/
def turnsLeft (s : State) : Nat :=
  match s.phase, s.ent.state with
  | .idle, _ => 0
  | .check, _ => 10
  | .entE, .idle => 9
  | .entE, .req => 8
  | .entE, _ => 7
  | .entN, .idle => 6
  | .entN, .req => 5
  | .entN, _ => 4
  | .addin, _ => 4
  | .hashgen, _ => 3
  | .seedV, _ => 3
  | .update, _ => 2
  | .seedC, _ => 2
  | .complete, _ => 1

theorem turnsLeft_le (s : State) : turnsLeft s ≤ 10 := by
  unfold turnsLeft; split <;> decide

theorem seqStep_holding {s : State} (h : Holding s) : seqStep s = s := by
  obtain ⟨hp | hp, hr, hs⟩ := h
  · rw [seqStep_entE hp, phaseEntE, entropyGet_req _ _ hr, hs]
  · rw [seqStep_entN hp, phaseEntN, entropyGet_req _ _ hr, hs]

/-- An answer of the script ends the wait. -/
theorem turnsLeft_sourceTurn {s : State} (hp : s.phase = .entE ∨ s.phase = .entN) (hr : s.ent.state = .req) :
    Holding s ∨ turnsLeft (sourceTurn s) < turnsLeft s := by
  rcases sourceTurn_cases s with c | ⟨d, rest, -, -, c⟩ | ⟨rest, -, c⟩
  · exact .inl ⟨hp, hr, c⟩
  · refine .inr ?_
    rw [c, entDeliver, if_pos hr]
    rcases hp with hp | hp <;> simp [turnsLeft, hp, hr]
  · refine .inr ?_
    rw [c, entFail, if_pos hr]
    rcases hp with hp | hp <;> simp [turnsLeft, hp, hr]

/-- Every turn of a core that neither idles nor holds brings the command nearer its end. -/
theorem turnsLeft_turn {s t : State} (ht : Turn s t) :
    s.phase = .idle ∨ Holding s ∨ turnsLeft t < turnsLeft s := by
  cases ht with
  | idle c => exact .inl c
  | source c hr => exact .inr (turnsLeft_sourceTurn c hr)
  | error k c =>
    refine .inr (.inr ?_)
    rcases c with c | c | c <;> cases e : s.ent.state <;> simp [turnsLeft, c, e]
  | instantiate c | reseed c => 
    refine .inr (.inr ?_)
    cases e : s.ent.state <;> simp [turnsLeft, c, e]
  | generate p c _ _ _ _ _ _ _ e =>
    refine .inr (.inr ?_)
    split at e <;> subst e <;> simp [turnsLeft, c]
  | request m c e => 
    refine .inr (.inr ?_)
    rcases c with c | c <;> simp [turnsLeft, c, e, entRequest]
  | entropy c e =>
    refine .inr (.inr ?_)
    by_cases o : s.work.curOp = 0x01#8 <;> simp [turnsLeft, c, e, o, entTake]
  | nonce c e => exact .inr (.inr (by simp [turnsLeft, c, e]))
  | uninstantiate c | seedV _ _ _ _ c | seedC _ _ _ _ c | addin _ _ c | hashgen _ _ _ c | update _ _ c | complete c =>
    exact .inr (.inr (by simp [turnsLeft, c]))

theorem turns_end_or_hold (n : Nat) {s : State} (h : turnsLeft s ≤ n) :
    (turns n s).phase = .idle ∨ Holding (turns n s) := by
  induction n generalizing s with
  | zero =>
    rcases turnsLeft_turn (seqStep_turn s) with c | c | c
    · exact .inl c
    · exact .inr c
    · omega
  | succ n ih =>
    rcases turnsLeft_turn (seqStep_turn s) with c | c | c
    · rw [turns_idle c]; exact .inl c
    · rw [turns_fixed (seqStep_holding c)]; exact .inr c
    · exact ih (by omega)

/-! ### The statements -/

/-- Settles O56: an error is raised in a check or of an entropy request, before any write of the DRBG registers. -/
theorem errorLeavesDrbgUnchanged : Obligations.ErrorLeavesDrbgUnchanged := by
  unfold Obligations.ErrorLeavesDrbgUnchanged
  intro s t h ht he
  obtain ⟨u, hu, rfl⟩ := step_landed ht
  rcases landed_drbg hu with e | ⟨k, rest, -, rfl⟩
  · rw [← e]; exact turns_error_drbg _ (inv_landed h hu) he
  · rw [goOn_idle rfl] at he; cases he

/-- Settles O57: only the turn that ends a command writes what the host can see, and it clears `busy`. -/
theorem effectsShowOnlyAtCompletion : Obligations.EffectsShowOnlyAtCompletion := by
  unfold Obligations.EffectsShowOnlyAtCompletion
  intro s t ht hb
  obtain ⟨u, hu, rfl⟩ := step_landed ht
  obtain ⟨⟨h1, h2, h3⟩, hh⟩ := goOn_busy hb
  have hd : u.drbg = s.drbg := by
    rcases landed_drbg hu with e | ⟨k, rest, -, rfl⟩
    · exact e
    · rw [goOn_idle rfl] at hb; cases hb
  rw [h1, h2, h3, hd, hh]
  refine ⟨rfl, rfl, rfl, fun hs => ?_⟩
  rcases landed_busy hu hs with e | ⟨-, e⟩
  · exact e
  · rw [hh] at hb; exact absurd (hb.symm.trans e) (by decide)

/-- Settles O58: the turns left of a command are at most ten, and each turn takes one away. -/
theorem commandsEndOrHoldInTenTurns : Obligations.CommandsEndOrHoldInTenTurns := by
  unfold Obligations.CommandsEndOrHoldInTenTurns
  exact fun s => turns_end_or_hold 10 (turnsLeft_le s)

/-- Settles O59: the registers that tell the state are written at completion, and the counter starts at 1. -/
theorem stateChangesOnlyOnSuccess : Obligations.StateChangesOnlyOnSuccess := by
  unfold Obligations.StateChangesOnlyOnSuccess
  intro s t h ht hne
  obtain ⟨u, hu, rfl⟩ := step_landed ht
  rcases landed_drbg hu with e | ⟨k, rest, hin, rfl⟩
  · refine ⟨?_, ?_⟩
    · rcases goOn_done u with ⟨-, hd⟩ | hd
      · exact .inl hd
      · exact absurd ((drbgState_congr hd).trans (congrArg drbgState e)) hne
    · rintro ⟨h0, h1⟩
      rw [← e, drbgState_uninstantiated_iff] at h0
      exact drbgState_ne_needsReseed (goOn_uninstantiated (inv_landed h hu) h0) h1
  · rw [goOn_idle rfl]
    exact ⟨.inr ⟨k, rest, hin⟩, fun c => drbgState_ne_needsReseed (d := Drbg.zero) (.inl rfl) c.2⟩

end Sys2Proof.Machine
end

section
/-! SUPPORT. Secrecy: what a state shows with its secrets hidden decides what every turn and every event from outside leave to be
seen (10_state.md R52; 60_exceptions.md R220). -/

namespace Sys2Proof.Machine

/-! ### Hiding twice is hiding once -/

/-- The bits of a string hidden, its length kept. -/
abbrev hideBits (s : BitString) : BitString := List.replicate s.length false

theorem hideBits_idem (s : BitString) : hideBits (hideBits s) = hideBits s := by simp [hideBits]

theorem hideAnswer_idem (a : Answer) : hideAnswer (hideAnswer a) = hideAnswer a := by
  cases a with
  | deliver s => exact congrArg Answer.deliver (hideBits_idem s)
  | fail => rfl

theorem hideInput_idem (i : Input) : hideInput (hideInput i) = hideInput i := by
  obtain ⟨k, ev⟩ := i
  cases ev with
  | uop code args => simp only [hideInput, List.length_replicate]
  | _ => rfl

theorem map_idem {α : Type} {f : α → α} (h : ∀ a, f (f a) = f a) (l : List α) : (l.map f).map f = l.map f := by
  rw [List.map_map]
  exact List.map_congr_left fun a _ => h a

theorem publicView_idem (s : State) : publicView (publicView s) = publicView s := by
  simp only [publicView, List.length_replicate, map_idem hideInput_idem, map_idem hideAnswer_idem]

/-! ### Operations that do not let a secret show -/

/-- What an operation leaves to be seen depends on what could be seen before. -/
def Respects (f : State → State) : Prop := ∀ s, publicView (f s) = publicView (f (publicView s))

/-- An operation that acts on what can be seen as some function does. -/
theorem respects_of_view {f g : State → State} (h : ∀ s, publicView (f s) = g (publicView s)) : Respects f := by
  intro s
  rw [h, h, publicView_idem]

theorem Respects.congr {f : State → State} (hf : Respects f) {s t : State} (h : publicView s = publicView t) :
    publicView (f s) = publicView (f t) := by
  rw [hf s, h, ← hf t]

theorem Respects.comp {f g : State → State} (hg : Respects g) (hf : Respects f) : Respects fun s => g (f s) :=
  fun s => hg.congr (hf s)

theorem publicView_ite {p : Prop} [Decidable p] {a b c d : State} (h1 : publicView a = c) (h2 : publicView b = d) :
    publicView (if p then a else b) = if p then c else d := by
  split <;> assumption

/-! ### CHECK: everything it reads is public -/

theorem publicView_phaseCheck (s : State) : publicView (phaseCheck s) = phaseCheck (publicView s) := by
  refine publicView_ite ?_ (publicView_ite ?_ (publicView_ite ?_ (publicView_ite ?_ rfl)))
  · exact publicView_ite rfl (publicView_ite rfl (publicView_ite rfl (publicView_ite rfl rfl)))
  · exact publicView_ite rfl (publicView_ite rfl (publicView_ite rfl (publicView_ite rfl rfl)))
  · exact publicView_ite rfl (publicView_ite rfl (publicView_ite rfl
      (publicView_ite rfl (publicView_ite rfl (publicView_ite rfl rfl)))))
  · exact publicView_ite rfl rfl

/-! ### ENT_E and ENT_N: only lengths decide -/

theorem publicView_entDeliver (d : BitString) (s : State) :
    publicView (withEnt (entDeliver d s.ent) s) =
      withEnt (entDeliver (hideBits d) (publicView s).ent) (publicView s) := by
  by_cases c : s.ent.state = .req <;> simp [publicView, withEnt, entDeliver, c]

theorem publicView_entFail (s : State) :
    publicView (withEnt (entFail s.ent) s) = withEnt (entFail (publicView s).ent) (publicView s) := by
  by_cases c : s.ent.state = .req <;> simp [publicView, withEnt, entFail, c]

theorem publicView_sourceTurn (s : State) : publicView (sourceTurn s) = sourceTurn (publicView s) := by
  have hv : (publicView s).env.source = s.env.source.map hideAnswer := rfl
  cases h : s.env.source with
  | nil =>
    rw [h] at hv
    rw [sourceTurn, sourceTurn, h, hv]; rfl
  | cons a rest =>
    rw [h] at hv
    cases a with
    | fail =>
      rw [sourceTurn, sourceTurn, h, hv]
      exact publicView_entFail { s with env := { s.env with source := rest } }
    | deliver d =>
      rw [sourceTurn, sourceTurn, h, hv]
      simp only [List.map_cons, hideAnswer, List.length_replicate]
      exact publicView_ite (publicView_entDeliver d { s with env := { s.env with source := rest } }) rfl

theorem publicView_entropyGet (m : BitVec 32) (take : BitString → State → State)
    (ht : ∀ d s, publicView (take d s) = take (hideBits d) (publicView s)) (s : State) :
    publicView (entropyGet m take s) = entropyGet m take (publicView s) := by
  have hv : (publicView s).ent.state = s.ent.state := rfl
  have hl : (publicView s).ent.buf.length = s.ent.buf.length := List.length_replicate
  rw [entropyGet, entropyGet, hv, hl]
  split
  · rfl
  · exact publicView_sourceTurn s
  · rfl
  · exact publicView_ite rfl (ht s.ent.buf { s with ent := entTake s.ent })

theorem publicView_takeEntropy (d : BitString) (s : State) :
    publicView (takeEntropy d s) = takeEntropy (hideBits d) (publicView s) := rfl

theorem publicView_takeNonce (d : BitString) (s : State) :
    publicView (takeNonce d s) = takeNonce (hideBits d) (publicView s) := by
  have hl : (publicView s).work.entE.length = s.work.entE.length := List.length_replicate
  rw [takeNonce, takeNonce, hl, List.length_replicate]
  exact publicView_ite rfl rfl

theorem publicView_phaseEntE (s : State) : publicView (phaseEntE s) = phaseEntE (publicView s) :=
  publicView_entropyGet (entropyMin s) takeEntropy publicView_takeEntropy s

theorem publicView_phaseEntN (s : State) : publicView (phaseEntN s) = phaseEntN (publicView s) :=
  publicView_entropyGet _ takeNonce publicView_takeNonce s

/-! ### The phases that compute with secrets: of their results nothing shows -/

/-- What shows of a derivation: its length and its block count. -/
def derivedView (p : Phase) (v : State) : State :=
  { v with
    work := { v.work with dfReq := seedRequest, dfCtr := BitVec.ofNat 8 (ceilDiv seedRequest.toNat 256) }, phase := p }

theorem publicView_phaseSeedV (s : State) : publicView (phaseSeedV s) = derivedView .seedC (publicView s) := by
  obtain ⟨E, a, r, e⟩ := runDerive_frame (seedMaterial s) seedRequest s
  rw [phaseSeedV, e]; rfl

theorem publicView_phaseSeedC (s : State) : publicView (phaseSeedC s) = derivedView .complete (publicView s) := by
  obtain ⟨E, a, r, e⟩ := runDerive_frame (cMaterial s.drbg.V) seedRequest s
  rw [phaseSeedC, e]; rfl

theorem publicView_phaseAddin (s : State) :
    publicView (phaseAddin s) = { publicView s with phase := .hashgen } := by
  obtain ⟨E, v, e⟩ : ∃ E v, phaseAddin s =
      { s with eng := E, drbg := { s.drbg with V := v }, phase := .hashgen } := ⟨_, _, rfl⟩
  rw [e]; rfl

/-- What shows of Hashgen: its block count. -/
def hashgenView (v : State) : State :=
  { v with work := { v.work with hgI := BitVec.ofNat 12 (ceilDiv v.work.curImm.toNat 256) }, phase := .update }

theorem publicView_phaseHashgen (s : State) : publicView (phaseHashgen s) = hashgenView (publicView s) := by
  obtain ⟨E, e⟩ := runHashgen_spec s.work.curImm.toNat s
  rw [phaseHashgen, e]; rfl

theorem publicView_phaseUpdate (s : State) :
    publicView (phaseUpdate s) = { publicView s with phase := .complete } := by
  obtain ⟨E, v, e⟩ : ∃ E v, phaseUpdate s =
      { s with eng := E, drbg := { s.drbg with V := v }, phase := .complete } := ⟨_, _, rfl⟩
  rw [e]; rfl

/-- The OUT buffer's words hidden. -/
def hideOut (v : State) : State := { v with host := { v.host with outWords := [] } }

theorem publicView_commit (s : State) : publicView (commit s) = hideOut (commit (publicView s)) := by
  rw [commit, commit, apply_ite hideOut, apply_ite hideOut, apply_ite hideOut, apply_ite hideOut]
  exact publicView_ite rfl (publicView_ite rfl (publicView_ite rfl (publicView_ite rfl rfl)))

theorem publicView_finishCommand (s : State) : publicView (finishCommand s) = finishCommand (publicView s) := rfl

theorem publicView_phaseComplete (s : State) :
    publicView (phaseComplete s) = finishCommand (hideOut (commit (publicView s))) := by
  rw [phaseComplete, publicView_finishCommand, publicView_commit]

/-! ### The turns -/

theorem respects_seqStep : Respects seqStep := by
  intro s
  have hv : ∀ {p}, s.phase = p → (publicView s).phase = p := id
  cases h : s.phase with
  | idle => rw [seqStep_idle h, seqStep_idle (hv h), publicView_idem]
  | check => rw [seqStep_check h, seqStep_check (hv h)]; exact respects_of_view publicView_phaseCheck s
  | entE => rw [seqStep_entE h, seqStep_entE (hv h)]; exact respects_of_view publicView_phaseEntE s
  | entN => rw [seqStep_entN h, seqStep_entN (hv h)]; exact respects_of_view publicView_phaseEntN s
  | seedV => rw [seqStep_seedV h, seqStep_seedV (hv h)]; exact respects_of_view publicView_phaseSeedV s
  | seedC => rw [seqStep_seedC h, seqStep_seedC (hv h)]; exact respects_of_view publicView_phaseSeedC s
  | addin =>
    rw [seqStep_addin h, seqStep_addin (hv h)]
    exact respects_of_view (g := fun v => { v with phase := .hashgen }) publicView_phaseAddin s
  | hashgen => rw [seqStep_hashgen h, seqStep_hashgen (hv h)]; exact respects_of_view publicView_phaseHashgen s
  | update =>
    rw [seqStep_update h, seqStep_update (hv h)]
    exact respects_of_view (g := fun v => { v with phase := .complete }) publicView_phaseUpdate s
  | complete =>
    rw [seqStep_complete h, seqStep_complete (hv h)]
    exact respects_of_view (g := fun v => finishCommand (hideOut (commit v))) publicView_phaseComplete s

theorem respects_turns (n : Nat) : Respects (turns n) := by
  induction n with
  | zero => exact fun s => (publicView_idem s).symm
  | succ n ih => exact ih.comp respects_seqStep

theorem hideInput_after (i : Input) : (hideInput i).after = i.after := by
  obtain ⟨k, ev⟩ := i
  cases ev <;> rfl

theorem budget_publicView (s : State) : budget (publicView s) = budget s := by
  have hv : (publicView s).env.inputs = s.env.inputs.map hideInput := rfl
  rw [budget, budget, hv]
  cases s.env.inputs with
  | nil => rfl
  | cons i rest => exact congrArg (min · maxTurns) (hideInput_after i)

theorem respects_goOn : Respects goOn := by
  intro s
  rw [goOn, goOn, budget_publicView]
  exact respects_turns (budget s) s

/-! ### The events from outside -/

theorem publicView_withInputs (l : List Input) (s : State) :
    publicView (withInputs l s) = withInputs (l.map hideInput) (publicView s) := rfl

theorem respects_issueCommand (w : Word) : Respects (issueCommand w) :=
  respects_goOn.comp (f := fun s => if s.host.busy then setOverrun s else accept w s)
    (respects_of_view (g := fun v => if v.host.busy then setOverrun v else accept w v)
      fun _ => publicView_ite rfl rfl)

theorem publicView_hostWrite (n : Nat) (v : Word) (s : State) :
    publicView (hostWrite n v s) = hostWrite n v (publicView s) := by
  unfold hostWrite
  split
  · exact publicView_ite rfl rfl
  · exact publicView_ite rfl rfl
  · exact publicView_ite rfl rfl
  · rfl

/-- The value read is a secret at most, and a pop moves the read index only. -/
theorem publicView_hostRead (n : Nat) (s : State) : publicView (hostRead n s) = readEffect n (publicView s) := by
  have h : publicView (hostRead n s) = publicView (readEffect n s) := rfl
  rw [h]
  unfold readEffect
  split
  · exact publicView_ite rfl rfl
  · rfl

theorem publicView_resetCore (s : State) : publicView (resetCore s) = resetCore (publicView s) := rfl

/-- Reads of registers other than `OUT_DATA` return nothing secret. -/
theorem readValue_publicView {n : Nat} (h : n ≠ 6) (s : State) : readValue n (publicView s) = readValue n s := by
  unfold readValue
  split
  next => rfl
  next => rfl
  next => rfl
  next => rfl
  next => exact absurd rfl h
  next => rfl

theorem publicView_deliver_hidden (d : BitString) (s : State) :
    publicView (withEnt (entDeliver d s.ent) s) =
      publicView (withEnt (entDeliver (hideBits d) (publicView s).ent) (publicView s)) := by
  rw [publicView_entDeliver, publicView_entDeliver, publicView_idem, hideBits_idem]

/-! ### The step -/

/-- With the core going on after it, an answer that lands shows its length only. -/
theorem publicOutcome_uop {s : State} {k : Nat} {code : BitVec 4} {args : UopArgs} {rest : List Input}
    (h : s.env.inputs = ⟨k, .uop code args⟩ :: rest) (hx : (Event.uop code args).external = true) :
    publicOutcome (step s) = publicOutcome (step (publicView s)) := by
  have hv : (publicView s).env.inputs = hideInput ⟨k, .uop code args⟩ :: rest.map hideInput :=
    congrArg (List.map hideInput) h
  simp only [Event.external, Bool.or_eq_true, decide_eq_true_eq] at hx
  rcases hx with rfl | rfl
  · have hl : (hideBits args.bits).length = args.bits.length := List.length_replicate
    by_cases c : args.bits.length ≤ 2 ^ 35
    · rw [step_deliver h c, step_deliver hv (hl.le.trans c)]
      exact congrArg Host.Outcome.next (respects_goOn.congr (publicView_deliver_hidden args.bits (withInputs rest s)))
    · rw [step_deliver_long h (Nat.not_le.mp c), step_deliver_long hv (hl.symm ▸ Nat.not_le.mp c)]
  · rw [step_fail h, step_fail hv]
    exact congrArg Host.Outcome.next (respects_goOn.congr (respects_of_view (f := fun s => withEnt (entFail s.ent) s)
      (g := fun v => withEnt (entFail v.ent) v) publicView_entFail (withInputs rest s)))

theorem publicOutcome_step {s : State} (hx : ∀ i ∈ s.env.inputs, i.event.external = true) :
    publicOutcome (step s) = publicOutcome (step (publicView s)) := by
  have hv : (publicView s).env.inputs = s.env.inputs.map hideInput := rfl
  cases h : s.env.inputs with
  | nil =>
    rw [h] at hv
    rw [step_none h, step_none hv]
    exact congrArg Host.Outcome.next (respects_goOn s)
  | cons i rest =>
    rw [h] at hv
    obtain ⟨k, ev⟩ := i
    cases ev with
    | hostWrite n v =>
      cases n with
      | zero =>
        rw [step_command h, step_command hv]
        exact congrArg Host.Outcome.next (respects_issueCommand v (withInputs rest s))
      | succ n =>
        rw [step_hostWrite h, step_hostWrite hv]
        exact congrArg Host.Outcome.next
          (respects_goOn.comp (respects_of_view (publicView_hostWrite (n + 1) v)) (withInputs rest s))
    | hostRead n =>
      rw [step_hostRead h, step_hostRead hv]
      exact congrArg Host.Outcome.next
        (respects_goOn.comp (respects_of_view (publicView_hostRead n)) (withInputs rest s))
    | reset =>
      rw [step_reset h, step_reset hv]
      exact congrArg Host.Outcome.next (respects_of_view publicView_resetCore (withInputs rest s))
    | uop code args => exact publicOutcome_uop h (hx _ (h ▸ List.mem_cons_self))

/-- Settles O60: what can be seen decides every read but of `OUT_DATA`, and what can be seen after the step. -/
theorem secretsShowOnlyInOutData : Obligations.SecretsShowOnlyInOutData := by
  unfold Obligations.SecretsShowOnlyInOutData
  intro s t h hs ht
  refine ⟨fun n hn => ?_, ?_⟩
  · rw [← readValue_publicView hn s, h, readValue_publicView hn t]
  · rw [publicOutcome_step hs, h, ← publicOutcome_step ht]

end Sys2Proof.Machine
end

section
/-! SUPPORT. The statements about the SHA-256 engine (40_sha256_engine.md R111 to R131). -/

namespace Sys2Proof.Machine

/-! ### The word functions (R111 to R116) -/

theorem rotr_eq_rotateRight {n : Nat} (h : n < 32) (x : Word) : rotr n x = x.rotateRight n := by
  rw [rotr, BitVec.rotateRight_def, Nat.mod_eq_of_lt h]

theorem ch_getLsbD (x y z : Word) {j : Nat} (hj : j < 32) :
    (ch x y z).getLsbD j = if x.getLsbD j then y.getLsbD j else z.getLsbD j := by
  rw [ch, BitVec.getLsbD_xor, BitVec.getLsbD_and, BitVec.getLsbD_and, BitVec.getLsbD_not, decide_eq_true hj]
  cases x.getLsbD j <;> simp

theorem maj_getLsbD (x y z : Word) (j : Nat) :
    (maj x y z).getLsbD j =
      decide (2 ≤ (x.getLsbD j).toNat + (y.getLsbD j).toNat + (z.getLsbD j).toNat) := by
  rw [maj, BitVec.getLsbD_xor, BitVec.getLsbD_xor, BitVec.getLsbD_and, BitVec.getLsbD_and, BitVec.getLsbD_and]
  cases x.getLsbD j <;> cases y.getLsbD j <;> cases z.getLsbD j <;> rfl

theorem ch_zero (y z : Word) : ch 0 y z = z := by simp [ch]

theorem ch_ones (y z : Word) : ch 0xFFFFFFFF y z = y := by
  rw [show (0xFFFFFFFF : Word) = BitVec.allOnes 32 from rfl, ch, BitVec.allOnes_and, BitVec.not_allOnes, BitVec.zero_and,
    BitVec.xor_zero]

theorem maj_same (x z : Word) : maj x x z = x := by
  apply BitVec.eq_of_getLsbD_eq
  intro j _
  rw [maj_getLsbD]
  cases x.getLsbD j <;> cases z.getLsbD j <;> rfl

theorem maj_ones_zero (z : Word) : maj 0xFFFFFFFF 0 z = z := by
  rw [show (0xFFFFFFFF : Word) = BitVec.allOnes 32 from rfl, maj, BitVec.allOnes_and, BitVec.allOnes_and]
  simp

/-! ### The constant tables (R117, R118) -/

/-- The primes up to 311. -/
def firstPrimes : List Nat :=
  [2, 3, 5, 7, 11, 13, 17, 19, 23, 29, 31, 37, 41, 43, 47, 53, 59, 61, 67, 71, 73, 79, 83, 89, 97, 101, 103, 107, 109,
    113, 127, 131, 137, 139, 149, 151, 157, 163, 167, 173, 179, 181, 191, 193, 197, 199, 211, 223, 227, 229, 233, 239,
    241, 251, 257, 263, 269, 271, 277, 281, 283, 293, 307, 311]

theorem filter_primes :
    ((List.range 312).filter fun n => 2 ≤ n ∧ ∀ d ∈ List.range n, 2 ≤ d → n % d ≠ 0) = firstPrimes := by
  decide +kernel

/-- The constant `k` is the first 32 bits of the fraction of the `e`-th root of `p`: with the root's whole part `c` before it, it
is the integer root of `p * 2^(32 e)`. -/
def IsRootFraction (e p : Nat) (k : Word) : Prop :=
  ∃ c < 18, (c * 2 ^ 32 + k.toNat) ^ e ≤ p * 2 ^ (32 * e) ∧ p * 2 ^ (32 * e) < (c * 2 ^ 32 + k.toNat + 1) ^ e

theorem IsRootFraction.exists_root {e p : Nat} {k : Word} (h : IsRootFraction e p k) :
    ∃ n, n ^ e ≤ p * 2 ^ (32 * e) ∧ p * 2 ^ (32 * e) < (n + 1) ^ e ∧ k.toNat = n % 2 ^ 32 := by
  obtain ⟨c, -, h1, h2⟩ := h
  refine ⟨c * 2 ^ 32 + k.toNat, h1, h2, ?_⟩
  rw [Nat.mul_add_mod_self_right, Nat.mod_eq_of_lt k.isLt]

theorem tableK_isRootFraction : ∀ i < 64, IsRootFraction 3 (firstPrimes.getD i 0) (tableK.getD i 0) := by
  unfold IsRootFraction
  decide +kernel

theorem initialDigest_isRootFraction :
    ∀ i < 8, IsRootFraction 2 (firstPrimes.getD i 0) (initialDigest.getD i 0) := by
  unfold IsRootFraction
  decide +kernel

/-! ### One round (R122) -/

theorem tableK_getD {n : Nat} (h : n < 64) : tableK.getD n 0 = roundConst n := by
  simp [tableK, List.getD_eq_getElem?_getD, h]

/-! ### Absorbing (R124) -/

theorem engineAbsorb_append (p u : BitString) (e : Engine) :
    engineAbsorb (p ++ u) e = engineAbsorb u (engineAbsorb p e) := List.foldl_append

/-- A bit that does not fill the block. -/
theorem engineAbsorbBit_room {e : Engine} (b : Bool) (h : e.fill.toNat < 511) :
    engineAbsorbBit e b =
      { e with blkbuf := setBlockBit e.blkbuf e.fill.toNat b, fill := e.fill + 1, mlen := e.mlen + 1 } := by
  have hn : ¬ e.fill + 1 = 512 := by rw [fill_succ_eq e (by omega)]; omega
  exact if_neg hn

/-- The bit that fills the block. -/
theorem engineAbsorbBit_full {e : Engine} (b : Bool) (h : e.fill.toNat = 511) :
    engineAbsorbBit e b = engineFlush { enginePut b e with mlen := e.mlen + 1 } :=
  if_pos ((fill_succ_eq e (by omega)).mpr h)

theorem engineFinal_t (e : Engine) : (engineFinal e).t = 64 := engineProcess_t _ _

theorem toBits_digestOf (S : Vector Word 8) :
    toBits (digestOf S) =
      toBits S[0] ++ toBits S[1] ++ toBits S[2] ++ toBits S[3] ++ toBits S[4] ++ toBits S[5] ++ toBits S[6] ++
        toBits S[7] := by
  simp only [digestOf, toBits_append]

/-! ### A block in micro-operations (R128) -/

theorem execAll_cons {i : Instr} {is : List Instr} {s t : State} (h : exec i s = .next t) :
    execAll (i :: is) s = execAll is t := by
  simp only [execAll, h]

theorem execAll_append {is js : List Instr} {s t : State} (h : execAll is s = .next t) :
    execAll (is ++ js) s = execAll js t := by
  induction is generalizing s with
  | nil => cases h; rfl
  | cons i is ih =>
    rw [execAll] at h
    rw [List.cons_append, execAll]
    cases he : exec i s with
    | next u => rw [he] at h; exact ih h
    | fault r => rw [he] at h; cases h
    | refused r => rw [he] at h; cases h

/-- SHA.LOAD and up to 64 SHA.ROUND. -/
theorem execAll_rounds (s : State) (B : Block) {n : Nat} (hn : n ≤ 64) :
    execAll (.shaLoad B :: List.replicate n .shaRound) s =
      .next { s with eng := Nat.repeat engineRound n (engineLoad B s.eng) } := by
  induction n with
  | zero => exact execAll_cons (exec_shaLoad B s)
  | succ n ih =>
    rw [List.replicate_succ', ← List.cons_append, execAll_append (ih (by omega))]
    have ht := (roundsDone_rounds B s.eng n (by omega)).t
    exact execAll_cons (exec_shaRound (s := { s with eng := Nat.repeat engineRound n (engineLoad B s.eng) })
      (ht.trans_lt (by omega)))

theorem execAll_process (s : State) (B : Block) :
    execAll (.shaLoad B :: (List.replicate 64 .shaRound ++ [.shaFold])) s =
      .next { s with eng := engineProcess B s.eng } := by
  rw [← List.cons_append, execAll_append (execAll_rounds s B (Nat.le_refl 64))]
  have ht := (roundsDone_rounds B s.eng 64 (Nat.le_refl 64)).t
  exact execAll_cons (exec_shaFold (s := { s with eng := Nat.repeat engineRound 64 (engineLoad B s.eng) }) ht)

/-! ### A message in micro-operations (R126) -/

theorem execAll_hash (s : State) {M : BitString} (h : M.length < 2 ^ 64) :
    execAll [.shaInit, .shaAbsorb M, .shaFinal] s = .next { s with
      eng := engineHash [M] s.eng
      work := { s.work with ret := toBits (engineDigest (engineHash [M] s.eng)) } } := by
  have h0 : (engineInit s.eng).mlen.toNat + M.length < 2 ^ 64 := by
    rw [(absorbed_init s.eng).mlen, List.length_nil, Nat.zero_add]; exact h
  rw [execAll_cons (exec_shaInit s), execAll_cons (exec_shaAbsorb (s := { s with eng := engineInit s.eng }) h0)]
  rfl

/-! ### The sliding window (R131) -/

/-- The schedule in the making after `n` rounds. -/
def scheduleAfter (B : Block) (n : Nat) : List Word := Nat.repeat extendSchedule n (blockWords B)

theorem scheduleAfter_length (B : Block) (n : Nat) : (scheduleAfter B n).length = 16 + n := by
  rw [scheduleAfter, repeat_extendSchedule_length, blockWords_length]

/-- The words beyond the 64th that the window goes on to make are not read. -/
theorem scheduleAfter_getD (B : Block) {n : Nat} (h : n < 64) :
    (scheduleAfter B n).getD n 0 = (schedule B).getD n 0 := by
  rcases Nat.le_total n 48 with c | c
  · exact (schedule_prefix B (Nat.add_sub_of_le c) (by omega)).symm
  · obtain ⟨m, rfl⟩ := Nat.exists_eq_add_of_le c
    exact repeat_extendSchedule_getD m 48 (blockWords B) (48 + m) (by rw [blockWords_length]; omega)

/-- Sliding the window is dropping the oldest word of a schedule that is one entry longer. -/
theorem slideWindow_drop {ws : List Word} {n : Nat} (h : ws.length = 16 + n) :
    slideWindow (ws.drop n) = (extendSchedule ws).drop (n + 1) := by
  have hd : ∀ i, (ws.drop n).getD i 0 = ws.getD (n + i) 0 := fun i => by
    simp [List.getD_eq_getElem?_getD]
  simp only [slideWindow, extendSchedule, hd]
  rw [List.drop_append_of_le_length (by omega), List.drop_drop, h]
  congr 5 <;> omega

/-- After `n` rounds the window has made the same working values and holds the last sixteen words of the schedule. -/
theorem foldl_windowRound (S : Vector Word 8) (B : Block) {n : Nat} (hn : n ≤ 64) :
    (tableK.take n).foldl windowRound (varsOf S, blockWords B) = (varsAfter S B n, (scheduleAfter B n).drop n) := by
  induction n with
  | zero => rfl
  | succ n ih =>
    have hk : tableK[n]? = some (roundConst n) := by
      rw [getElem?_eq_some_getD tableK (show n < tableK.length by rw [tableK_length]; omega), tableK_getD (by omega)]
    have h0 : ((scheduleAfter B n).drop n).getD 0 0 = (schedule B).getD n 0 := by
      rw [← scheduleAfter_getD B (show n < 64 by omega)]
      simp [List.getD_eq_getElem?_getD]
    rw [List.take_add_one, hk, List.foldl_append, ih (by omega)]
    simp only [Option.toList_some, List.foldl_cons, List.foldl_nil, windowRound]
    rw [h0, slideWindow_drop (scheduleAfter_length B n), varsAfter_succ S B n (by omega)]
    rfl

theorem compressWindow_eq (S : Vector Word 8) (B : Block) : compressWindow S B = compress S B := by
  have h := foldl_windowRound S B (Nat.le_refl 64)
  rw [List.take_of_length_le tableK_length.le] at h
  rw [compressWindow, h, compress, varsAfter, List.take_of_length_le (by simp)]

/-! ### The statements -/

/-- Settles O8: the rotations are the library's, and `ch` and `maj` are read bit by bit. -/
theorem wordFunctionRules : Obligations.WordFunctionRules := by
  unfold Obligations.WordFunctionRules
  refine ⟨fun x => ?_, fun x => ?_, fun x => ?_, fun x => ?_, fun y z => ⟨ch_zero y z, ch_ones y z⟩,
    fun x y z j hj => ch_getLsbD x y z hj, fun x z => ⟨maj_same x z, maj_same 0 z, maj_ones_zero z⟩,
    fun x y z j _ => maj_getLsbD x y z j⟩
  · simp only [sigma0, rotr_eq_rotateRight, shr, Nat.reduceLT]
  · simp only [sigma1, rotr_eq_rotateRight, shr, Nat.reduceLT]
  · simp only [bigSigma0, rotr_eq_rotateRight, Nat.reduceLT]
  · simp only [bigSigma1, rotr_eq_rotateRight, Nat.reduceLT]

/-- Settles O9: each constant, with the whole part of the root before it, is the integer root. -/
theorem constantTablesAreRoots : Obligations.ConstantTablesAreRoots := by
  unfold Obligations.ConstantTablesAreRoots
  rw [filter_primes]
  exact ⟨rfl, tableK_length, fun i hi => (tableK_isRootFraction i hi).exists_root,
    fun i hi => (initialDigest_isRootFraction i hi).exists_root⟩

/-- Settles O12: `engineRound` is the pseudocode, its constant the table's entry. -/
theorem shaRoundEffect : Obligations.ShaRoundEffect := by
  unfold Obligations.ShaRoundEffect
  refine fun s => ⟨fun h => ?_, fun h => exec_shaRound_done h⟩
  rw [tableK_getD (Nat.lt_succ_of_le h), exec_shaRound (Nat.lt_succ_of_le h)]
  rfl

/-- Settles O13: `engineFold` is the eight additions. -/
theorem shaFoldEffect : Obligations.ShaFoldEffect := by
  unfold Obligations.ShaFoldEffect
  exact ⟨fun _ => rfl, fun s => ⟨fun h => exec_shaFold h, fun h => exec_shaFold_early h⟩⟩

/-- Settles O14: absorbing is a fold over the bits, and each bit moves the two counters by one. -/
theorem shaAbsorbEffect : Obligations.ShaAbsorbEffect := by
  unfold Obligations.ShaAbsorbEffect
  intro s p u hf hm
  rw [List.length_append] at hm
  obtain ⟨h1, h2⟩ := engineAbsorb_counts p s.eng hf (by omega)
  refine ⟨⟨engineAbsorb p s.eng, exec_shaAbsorb (by omega), h1, h2, ?_⟩,
    exec_shaAbsorb (by rw [List.length_nil]; omega)⟩
  rw [exec_shaAbsorb (s := { s with eng := engineAbsorb p s.eng }) (show (engineAbsorb p s.eng).mlen.toNat + _ < _ by omega),
    exec_shaAbsorb (by rw [List.length_append]; omega), engineAbsorb_append]

/-- Settles O15: the bit is put, and the block flushed when it is the 512th. -/
theorem shaAbsorbOneBitEffect : Obligations.ShaAbsorbOneBitEffect := by
  unfold Obligations.ShaAbsorbOneBitEffect
  intro s b hf hm
  have he : exec (.shaAbsorb [b]) s = .next { s with eng := engineAbsorbBit s.eng b } := exec_shaAbsorb hm
  refine ⟨setBlockBit s.eng.blkbuf s.eng.fill.toNat b, setBlockBit_getMsbD _ _ b hf, fun h => ?_, fun h => ?_⟩
  · rw [he, engineAbsorbBit_room b h]
  · refine ⟨engineAbsorbBit s.eng b, he, ?_⟩
    rw [engineAbsorbBit_full b h]
    exact ⟨engineFlush_H _, engineFlush_t _, rfl, rfl, engineFlush_mlen _⟩

/-- Settles O16: the precondition of SHA.ABSORB. -/
theorem shaAbsorbRefusesLongMessage : Obligations.ShaAbsorbRefusesLongMessage := by
  unfold Obligations.ShaAbsorbRefusesLongMessage
  exact fun s p h => exec_shaAbsorb_long h

/-- Settles O17: SHA.FINAL ends with a block processed, and its digest is its `H` word by word. -/
theorem shaFinalEffect : Obligations.ShaFinalEffect := by
  unfold Obligations.ShaFinalEffect
  intro s
  refine ⟨engineFinal s.eng, ?_, engineFinal_mlen s.eng, engineFinal_t s.eng⟩
  rw [exec_shaFinal, engineDigest, toBits_digestOf]

/-- Settles O18: the three operations are `engineHash`, whose digest is `Sha256`. -/
theorem engineComputesSha256 : Obligations.EngineComputesSha256 := by
  unfold Obligations.EngineComputesSha256
  intro s M h
  refine ⟨engineHash [M] s.eng, ?_⟩
  rw [execAll_hash s h, engineHash_digest [M] s.eng (by simpa using h), List.flatten_singleton]
  rfl

/-- Settles O19: the 66 operations are `engineProcess`. -/
theorem engineComputesCompress : Obligations.EngineComputesCompress := by
  unfold Obligations.EngineComputesCompress
  exact fun s B => ⟨engineProcess B s.eng, execAll_process s B, engineProcess_H B s.eng, engineProcess_t B s.eng,
    engineProcess_blkbuf B s.eng, engineProcess_fill B s.eng, engineProcess_mlen B s.eng⟩

/-- Settles O20: round for round the window holds the schedule's last sixteen words. -/
theorem windowEqualsSchedule : Obligations.WindowEqualsSchedule := by
  unfold Obligations.WindowEqualsSchedule
  exact compressWindow_eq

end Sys2Proof.Machine
end

section
/-! SUPPORT. The statements about the derivation unit, Hashgen and the entropy-input synchronizer (41_hash_df.md R141, R142;
42_drbg_commands.md R163; 43_entropy_sync.md R192 to R198). -/

namespace Sys2Proof.Machine

/-! ### The waiting core -/

/-- Phase ENT_E or ENT_N with a request outstanding or an answer to it: the turn is `EntropyGet`. -/
theorem seqStep_entropyGet {s : State} (h : s.phase = .entE ∨ s.phase = .entN) :
    ∃ m take, ∀ u : State, u.phase = s.phase → u.work = s.work → u.drbg = s.drbg →
      seqStep u = entropyGet m take u := by
  rcases h with h | h
  · refine ⟨entropyMin s, takeEntropy, fun u hp hw hd => ?_⟩
    rw [seqStep_entE (hp.trans h), phaseEntE, entropyMin, hw, hd]
    rfl
  · refine ⟨Config.nonceMinBits s.work.curImm.toNat, takeNonce, fun u hp hw _ => ?_⟩
    rw [seqStep_entN (hp.trans h), phaseEntN, hw]

/-- A failure or a delivery that is too short ends the waiting command in the next turn. -/
theorem turns_insufficient {s : State} {e : Sync} (hp : s.phase = .entE ∨ s.phase = .entN)
    (he : e.state = .fail ∨ (e.state = .ready ∧ e.buf.length < e.min.toNat)) (n : Nat) :
    turns (n + 1) (withEnt e s) = raiseError .insufficientEntropy s := by
  obtain ⟨m, take, hseq⟩ := seqStep_entropyGet hp
  rw [turns_succ, hseq (withEnt e s) rfl rfl rfl]
  rcases he with he | ⟨he, hl⟩
  · rw [entropyGet_fail _ _ he, turns_idle rfl]
    rfl
  · rw [entropyGet_short _ _ he hl, turns_idle rfl]
    rfl

theorem holding_of_no_answer {s : State} (hp : s.phase = .entE ∨ s.phase = .entN) (hr : s.ent.state = .req)
    (hs : s.env.source = []) : Holding s := ⟨hp, hr, by rw [sourceTurn, hs]⟩

/-! ### The statements -/

/-- Settles O21: the messages are below 2^64 bits, so the derivation is the pure one. -/
theorem dfDeriveEffect : Obligations.DfDeriveEffect := by
  unfold Obligations.DfDeriveEffect
  intro s input bits h1 h2 h3
  obtain ⟨E, e⟩ := runDerive_spec input bits s h3
  exact ⟨E, (exec_dfDerive h1 h2 h3).trans (congrArg Host.Outcome.next e)⟩

/-- Settles O22: the length is checked first, and the error entry scrubs. -/
theorem dfDeriveInvalidLength : Obligations.DfDeriveInvalidLength := by
  unfold Obligations.DfDeriveInvalidLength
  exact fun s input bits h => exec_dfDerive_invalid h

theorem add_ofNat_seed (V : Seed) (i : Nat) : V + BitVec.ofNat 440 i = BitVec.ofNat 440 (V.toNat + i) := by
  rw [BitVec.ofNat_add, BitVec.ofNat_toNat, BitVec.setWidth_eq]

/-- Settles O24: Hashgen's loop up to 2^19 bits, and the same loop with free values beyond. -/
theorem hgHashgenEffect : Obligations.HgHashgenEffect := by
  unfold Obligations.HgHashgenEffect
  intro s bits
  refine ⟨fun h => ?_, fun h => ?_⟩
  · obtain ⟨E, e⟩ := runHashgen_spec bits.toNat s
    refine ⟨E, ?_⟩
    rw [exec_hgHashgen h, e]
    simp only [hashgen, add_ofNat_seed]
    rfl
  · obtain ⟨E, e⟩ := runHashgenBeyond_spec bits.toNat s
    refine ⟨E, _, _, (exec_hgHashgen_beyond h).trans (congrArg Host.Outcome.next e), ?_, fun hm => ?_⟩
    · rw [List.length_map, List.length_range]
    · have hc : ceilDiv bits.toNat 256 < 2 ^ 12 := hm
      rw [if_pos hc, BitVec.toNat_ofNat, Nat.mod_eq_of_lt hc]
      rfl

/-- Settles O25: the three writes of ENT.REQUEST, and its precondition. -/
theorem entRequestEffect : Obligations.EntRequestEffect := by
  unfold Obligations.EntRequestEffect
  refine fun s m => ⟨fun h => ⟨_, exec_entRequest h, rfl, ?_⟩, fun h => exec_entRequest_outstanding h⟩
  rw [statusWord_getLsbD]
  rfl

/-- Settles O26: a delivery is held with a request outstanding and dropped without one. -/
theorem entDeliverEffect : Obligations.EntDeliverEffect := by
  unfold Obligations.EntDeliverEffect
  refine fun s p => ⟨fun hl h => ⟨_, exec_entDeliver hl, ?_, ?_⟩, fun hl h => ?_, fun hl => exec_entDeliver_long hl⟩
  · rw [entDeliver_req h]
  · rw [statusWord_getLsbD, entDeliver_req h]
    rfl
  · rw [exec_entDeliver hl, entDeliver_dropped h]

/-- Settles O27: a failure is held with a request outstanding and dropped without one. -/
theorem entFailEffect : Obligations.EntFailEffect := by
  unfold Obligations.EntFailEffect
  refine fun s => ⟨fun h => ⟨_, exec_entFail, ?_, ?_⟩, fun h => ?_⟩
  · rw [entFail_req h]
  · rw [statusWord_getLsbD, entFail_req h]
    rfl
  · rw [exec_entFail, entFail_dropped h]

/-- Settles O28: a dropped answer leaves the state in which the core goes on. -/
theorem unsolicitedAnswerIsDropped : Obligations.UnsolicitedAnswerIsDropped := by
  unfold Obligations.UnsolicitedAnswerIsDropped
  intro s k code args rest hin hcode hl hr
  rcases hcode with rfl | rfl
  · rw [step_deliver hin hl, entDeliver_dropped hr]
    rfl
  · rw [step_fail hin, entFail_dropped hr]
    rfl

/-- Settles O29: the answer lands, and the first turn after it raises the error. -/
theorem shortOrFailedAnswerEndsCommand : Obligations.ShortOrFailedAnswerEndsCommand := by
  unfold Obligations.ShortOrFailedAnswerEndsCommand
  intro s k code args rest hin hp hr hu ha
  rcases ha with ⟨rfl, hl, hs⟩ | rfl
  · rw [step_deliver hin hl, goOn_withEnt _ hu, entDeliver_req hr]
    exact congrArg Host.Outcome.next (turns_insufficient (s := withInputs rest s) hp (.inr ⟨rfl, hs⟩) 9)
  · rw [step_fail hin, goOn_withEnt _ hu, entFail_req hr]
    exact congrArg Host.Outcome.next (turns_insufficient (s := withInputs rest s) hp (.inl rfl) 9)

/-- Settles O30: the core holds, and holding is a fixed point of the turn. -/
theorem waitingCoreHasNoStepOfItsOwn : Obligations.WaitingCoreHasNoStepOfItsOwn := by
  unfold Obligations.WaitingCoreHasNoStepOfItsOwn
  intro s hp hr hs hin
  rw [step_none hin, goOn, turns_fixed (seqStep_holding (holding_of_no_answer hp hr hs))]

end Sys2Proof.Machine
end

section
/-! SUPPORT. The statements about the four commands, each run phase by phase with no event landing meanwhile (42_drbg_commands.md
R152 to R168; 43_entropy_sync.md R194; 60_exceptions.md R200 to R214). -/

namespace Sys2Proof.Machine

/-! ### A command issued to an idle core -/

section
variable {s : State} (hb : s.host.busy = false) (hu : Undisturbed s)
include hb hu

theorem exec_instantiate (n : BitVec 24) : exec (.instantiate n) s = .next (turns maxTurns (accepted 0x01 n s)) :=
  congrArg Host.Outcome.next (issueCommand_accepted hb hu)

theorem exec_reseed : exec .reseed s = .next (turns maxTurns (accepted 0x02 0 s)) :=
  congrArg Host.Outcome.next (issueCommand_accepted hb hu)

theorem exec_generate (r : BitVec 24) : exec (.generate r) s = .next (turns maxTurns (accepted 0x03 r s)) :=
  congrArg Host.Outcome.next (issueCommand_accepted hb hu)

theorem exec_uninstantiate : exec .uninstantiate s = .next (turns maxTurns (accepted 0x04 0 s)) :=
  congrArg Host.Outcome.next (issueCommand_accepted hb hu)

end

/-- All the turns of a command whose check raises an error. -/
theorem maxTurns_of_error {op : BitVec 8} {imm : BitVec 24} {s : State} {k : ErrorKind}
    (h : seqStep (accepted op imm s) = raiseError k (accepted op imm s)) :
    turns maxTurns (accepted op imm s) = endedInError (errorCode k) s := turns_of_error h 9

theorem inOperand_wellFormed {s : State} (h : s.host.inWords.length = (s.host.inLen.toNat + 31) / 32) :
    (inOperand s).wellFormed = true := (operand_wellFormed_iff _).mpr h

theorem inOperand_malformed {s : State} (h : s.host.inWords.length ≠ (s.host.inLen.toNat + 31) / 32) :
    (inOperand s).wellFormed = false :=
  Bool.eq_false_iff.mpr fun c => h ((operand_wellFormed_iff _).mp c)

/-! ### The entropy requests of INSTANTIATE and RESEED -/

theorem seqStep_entE_instantiate {s : State} (hp : s.phase = .entE) (ho : s.work.curOp = 0x01#8) :
    seqStep s = entropyGet (s.work.curImm.setWidth 32) takeEntropy s := by
  rw [seqStep_entE hp, phaseEntE, entropyMin, if_pos ho]

theorem seqStep_entE_reseed {s : State} (hp : s.phase = .entE) (ho : s.work.curOp = 0x02#8) :
    seqStep s = entropyGet (s.drbg.strength.setWidth 32) takeEntropy s := by
  rw [seqStep_entE hp, phaseEntE, entropyMin, if_neg fun c => opcode_absurd ho c (by decide)]

theorem seqStep_entN_nonce {s : State} (hp : s.phase = .entN) :
    seqStep s = entropyGet (Config.nonceMinBits s.work.curImm.toNat) takeNonce s := by
  rw [seqStep_entN hp, phaseEntN]

theorem imm_setWidth_toNat (n : BitVec 24) : (n.setWidth 32).toNat = n.toNat :=
  BitVec.toNat_setWidth_of_le (by decide)

theorem strength_setWidth_toNat (n : BitVec 9) : (n.setWidth 32).toNat = n.toNat :=
  BitVec.toNat_setWidth_of_le (by decide)

/-- The entropy input kept, and the phase that follows it. -/
def keepEntropy (d : BitString) (p : Phase) (s : State) : State :=
  { s with work := { s.work with entE := d }, phase := p }

/-- The nonce kept, and the seeding to follow. -/
def keepNonce (d : BitString) (s : State) : State := { s with work := { s.work with entN := d }, phase := .seedV }

theorem takeEntropy_instantiate {s : State} (d : BitString) (ho : s.work.curOp = 0x01#8) :
    takeEntropy d s = keepEntropy d .entN s := by
  rw [takeEntropy, if_pos ho, keepEntropy]

theorem takeEntropy_reseed {s : State} (d : BitString) (ho : s.work.curOp = 0x02#8) :
    takeEntropy d s = keepEntropy d .seedV s := by
  rw [takeEntropy, if_neg fun c => opcode_absurd ho c (by decide), keepEntropy]

theorem takeNonce_enough {s : State} {d : BitString} (h : s.work.curImm.toNat ≤ s.work.entE.length + d.length) :
    takeNonce d s = keepNonce d s := by
  rw [takeNonce, if_neg (Nat.not_lt.mpr h), keepNonce]

/-! ### From the last delivery to the end -/

/-- The DRBG registers after INSTANTIATE (R153, R160). -/
def instantiatedWith (material : BitString) (imm : BitVec 24) : Drbg :=
  { V := deriveSeed material, C := deriveSeed (cMaterial (deriveSeed material)), reseedCounter := 1
    instantiated := true, strength := BitVec.ofNat 9 imm.toNat }

theorem turns_takeNonce {s : State} {d : BitString} (ho : s.work.curOp = 0x01#8)
    (hd : s.work.curImm.toNat ≤ s.work.entE.length + d.length)
    (hl : 40 + (instantiateMaterial s.work.entE d s.work.opnd.string).length < 2 ^ 64) (n : Nat) :
    turns (n + 3) (takeNonce d s) =
      idleState (instantiatedWith (instantiateMaterial s.work.entE d s.work.opnd.string) s.work.curImm)
        { s.host with done := true, busy := false } s.env := by
  rw [takeNonce_enough hd]
  have hm : seedMaterial (keepNonce d s) = instantiateMaterial s.work.entE d s.work.opnd.string := if_pos ho
  rw [turns_seed_instantiate (s := keepNonce d s) rfl (by rw [hm]; exact hl) ho, hm, instantiatedWith,
    BitVec.ofNat_toNat]
  rfl

theorem turns_takeEntropy_reseed {s : State} {d : BitString} (ho : s.work.curOp = 0x02#8)
    (hl : 40 + (reseedMaterial s.drbg.V d s.work.opnd.string).length < 2 ^ 64) (n : Nat) :
    turns (n + 3) (takeEntropy d s) =
      idleState (seeded (reseedMaterial s.drbg.V d s.work.opnd.string) s.drbg)
        { s.host with done := true, busy := false } s.env := by
  rw [takeEntropy_reseed d ho]
  have hm : seedMaterial (keepEntropy d .seedV s) = reseedMaterial s.drbg.V d s.work.opnd.string :=
    if_neg fun c => opcode_absurd ho c (by decide)
  rw [turns_seed_reseed (s := keepEntropy d .seedV s) rfl (by rw [hm]; exact hl) ho, hm]
  rfl

theorem instantiateMaterial_bound {e d : BitString} {o : Operand} (he : e.length ≤ 2 ^ 35) (hd : d.length ≤ 2 ^ 35)
    (ho : o.len.toNat ≤ 2 ^ 35) : 40 + (instantiateMaterial e d o.string).length < 2 ^ 64 := by
  have := operand_string_length_le o
  rw [instantiateMaterial, List.length_append, List.length_append]
  omega

theorem reseedMaterial_bound (V : Seed) {e : BitString} {o : Operand} (he : e.length ≤ 2 ^ 35)
    (ho : o.len.toNat ≤ 2 ^ 35) : 40 + (reseedMaterial V e o.string).length < 2 ^ 64 := by
  have := operand_string_length_le o
  rw [reseedMaterial, byte, List.length_append, List.length_append, List.length_append, toBits_length, toBits_length]
  show 40 + (8 + 440 + _ + _) < _
  omega

/-! ### INSTANTIATE -/

/-- The state in which INSTANTIATE has passed its checks. -/
def instantiating (n : BitVec 24) (s : State) : State := { accepted 0x01 n s with phase := .entE }

section
variable {s : State} {n : BitVec 24} (hi : s.drbg.instantiated = false) (h1 : 1 ≤ n.toNat) (h2 : n.toNat ≤ 256)
  (h3 : s.host.inLen.toNat ≤ 2 ^ 35) (h4 : s.host.inWords.length = (s.host.inLen.toNat + 31) / 32)
include hi h1 h2 h3 h4

theorem turns_instantiate (m : Nat) : turns (m + 1) (accepted 0x01 n s) = turns m (instantiating n s) := by
  have hn : ¬ (n.toNat < Config.minStrength ∨ Config.maxStrength < n.toNat) :=
    not_or.mpr ⟨Nat.not_lt.mpr h1, Nat.not_lt.mpr h2⟩
  rw [turns_succ, seqStep_check_instantiate rfl rfl,
    checkInstantiate_passes (s := accepted 0x01 n s) hi hn h3 (inOperand_wellFormed h4), instantiating]

end

section
variable {s : State} {n : BitVec 24} (hs : s.ent.state = .idle)
include hs

theorem turns_instantiating {e : BitString} {rest : List Answer} (h : s.env.source = .deliver e :: rest)
    (hl : e.length ≤ 2 ^ 35) (hm : n.toNat ≤ e.length) (m : Nat) :
    turns (m + 3) (instantiating n s) = turns m (takeEntropy e
      { instantiating n s with
        ent := { Sync.zero with min := n.setWidth 32 }, env := { s.env with source := rest } }) :=
  turns_entropy (s := instantiating n s) (m := n.setWidth 32) (take := takeEntropy)
    (fun u hp hw _ => by rw [seqStep_entE_instantiate hp (by rw [hw]; rfl), hw]; rfl) rfl hs h hl
    (by rw [imm_setWidth_toNat]; exact hm) m

theorem turns_instantiating_error {a : Answer} {rest : List Answer} (h : s.env.source = a :: rest)
    (h2 : n.toNat ≤ 256) (ha : a = .fail ∨ ∃ d, a = .deliver d ∧ d.length < n.toNat) (m : Nat) :
    turns (m + 3) (instantiating n s) = endedInError 0x04 { s with env := { s.env with source := rest } } := by
  refine (turns_entropy_error (s := instantiating n s) (m := n.setWidth 32) (take := takeEntropy)
    (fun u hp hw _ => by rw [seqStep_entE_instantiate hp (by rw [hw]; rfl), hw]; rfl) rfl hs h ?_ m).trans rfl
  refine ha.imp_right fun ⟨d, hd, hl⟩ => ⟨d, hd, ?_, by rw [imm_setWidth_toNat]; exact hl⟩
  exact Nat.le_trans (Nat.le_of_lt hl) (h2.trans (by decide))

end

/-- The state in which INSTANTIATE has taken its entropy input. -/
def awaitingNonce (e : BitString) (n : BitVec 24) (rest : List Answer) (s : State) : State :=
  { instantiating n s with
    work := { (accepted 0x01 n s).work with entE := e }
    ent := { Sync.zero with min := n.setWidth 32 }, env := { s.env with source := rest }, phase := .entN }

theorem takeEntropy_instantiating (e : BitString) (n : BitVec 24) (rest : List Answer) (s : State) :
    takeEntropy e { instantiating n s with
      ent := { Sync.zero with min := n.setWidth 32 }, env := { s.env with source := rest } } =
    awaitingNonce e n rest s := takeEntropy_instantiate e rfl

theorem seqStep_awaitingNonce {e : BitString} {n : BitVec 24} {rest : List Answer} {s : State} (u : State)
    (hp : u.phase = .entN) (hw : u.work = (awaitingNonce e n rest s).work) :
    seqStep u = entropyGet (Config.nonceMinBits n.toNat) takeNonce u := by
  rw [seqStep_entN_nonce hp, hw]
  rfl

theorem turns_awaitingNonce {e d : BitString} {n : BitVec 24} {rest : List Answer} {s : State}
    (hl : d.length ≤ 2 ^ 35) (hm : (Config.nonceMinBits n.toNat).toNat ≤ d.length) (m : Nat) :
    turns (m + 3) (awaitingNonce e n (.deliver d :: rest) s) = turns m (takeNonce d
      { awaitingNonce e n rest s with ent := { Sync.zero with min := Config.nonceMinBits n.toNat } }) :=
  turns_entropy (s := awaitingNonce e n (.deliver d :: rest) s) (fun u hp hw _ => seqStep_awaitingNonce u hp hw) rfl rfl
    rfl hl hm m

theorem turns_awaitingNonce_error {e : BitString} {n : BitVec 24} {a : Answer} {rest : List Answer} {s : State}
    (ha : a = .fail ∨ ∃ d, a = .deliver d ∧ d.length ≤ 2 ^ 35 ∧ d.length < (Config.nonceMinBits n.toNat).toNat)
    (m : Nat) :
    turns (m + 3) (awaitingNonce e n (a :: rest) s) =
      endedInError 0x04 { s with env := { s.env with source := rest } } :=
  (turns_entropy_error (s := awaitingNonce e n (a :: rest) s) (fun u hp hw _ => seqStep_awaitingNonce u hp hw) rfl rfl
    rfl ha m).trans rfl

/-- With no answer in the script the request stands, and the core holds. -/
theorem turns_instantiating_holds {n : BitVec 24} {s : State} (hs : s.ent.state = .idle) (h : s.env.source = [])
    (m : Nat) :
    turns (m + 1) (instantiating n s) = withEnt (entRequest (n.setWidth 32) s.ent) (instantiating n s) := by
  rw [turns_succ, seqStep_entE_instantiate rfl rfl, entropyGet_idle (s := instantiating n s) _ _ hs]
  exact turns_fixed (seqStep_holding (holding_of_no_answer (s := withEnt (entRequest (n.setWidth 32) s.ent) (instantiating n s))
    (.inl rfl) rfl h)) m

theorem turns_nonce_holds {s : State} (hp : s.phase = .entN) (hs : s.ent.state = .idle) (h : s.env.source = [])
    (m : Nat) :
    turns (m + 1) s = withEnt (entRequest (Config.nonceMinBits s.work.curImm.toNat) s.ent) s := by
  rw [turns_succ, seqStep_entN_nonce hp, entropyGet_idle _ _ hs]
  exact turns_fixed (seqStep_holding (holding_of_no_answer
    (s := withEnt (entRequest (Config.nonceMinBits s.work.curImm.toNat) s.ent) s) (.inr hp) rfl h)) m

/-- A delivery that lands in a waiting command is taken in the next turn (43_entropy_sync.md R194). -/
theorem step_delivery {s : State} {k : Nat} {args : UopArgs} {rest : List Input} {m : BitVec 32}
    {take : BitString → State → State} (hin : s.env.inputs = ⟨k, .uop 0xD args⟩ :: rest)
    (hu : Undisturbed (withInputs rest s)) (hr : s.ent.state = .req) (hm : s.ent.min.toNat ≤ args.bits.length)
    (hl : args.bits.length ≤ 2 ^ 35)
    (hseq : ∀ e, seqStep (withEnt e (withInputs rest s)) = entropyGet m take (withEnt e (withInputs rest s))) :
    step s = .next (turns 9 (take args.bits (withEnt (entTake s.ent) (withInputs rest s)))) := by
  rw [step_deliver hin hl, goOn_withEnt _ hu, entDeliver_req hr, maxTurns, turns_succ, hseq,
    entropyGet_ready _ _ rfl hm]
  rfl

/-! ### RESEED -/

/-- The state in which RESEED has passed its checks. -/
def reseeding (s : State) : State := { accepted 0x02 0 s with phase := .entE }

theorem turns_reseed {s : State} (hi : s.drbg.instantiated = true) (h3 : s.host.inLen.toNat ≤ 2 ^ 35)
    (h4 : s.host.inWords.length = (s.host.inLen.toNat + 31) / 32) (m : Nat) :
    turns (m + 1) (accepted 0x02 0 s) = turns m (reseeding s) := by
  rw [turns_succ, seqStep_check_reseed rfl rfl, 
    checkReseed_passes (s := accepted 0x02 0 s) rfl hi h3 (inOperand_wellFormed h4), reseeding]

theorem seqStep_reseeding {s : State} (u : State) (hp : u.phase = .entE) (hw : u.work = (reseeding s).work)
    (hd : u.drbg = s.drbg) : seqStep u = entropyGet (s.drbg.strength.setWidth 32) takeEntropy u := by
  rw [seqStep_entE_reseed hp (by rw [hw]; rfl), hd]

theorem turns_reseeding {s : State} {e : BitString} {rest : List Answer} (hs : s.ent.state = .idle)
    (h : s.env.source = .deliver e :: rest) (hl : e.length ≤ 2 ^ 35) (hm : s.drbg.strength.toNat ≤ e.length) (m : Nat) :
    turns (m + 3) (reseeding s) = turns m (takeEntropy e
      { reseeding s with
        ent := { Sync.zero with min := s.drbg.strength.setWidth 32 }, env := { s.env with source := rest } }) :=
  turns_entropy (s := reseeding s) seqStep_reseeding rfl hs h hl (by rw [strength_setWidth_toNat]; exact hm) m

theorem turns_reseeding_error {s : State} {a : Answer} {rest : List Answer} (hs : s.ent.state = .idle)
    (h : s.env.source = a :: rest)
    (ha : a = .fail ∨ ∃ e, a = .deliver e ∧ e.length ≤ 2 ^ 35 ∧ e.length < s.drbg.strength.toNat) (m : Nat) :
    turns (m + 3) (reseeding s) = endedInError 0x04 { s with env := { s.env with source := rest } } := by
  refine (turns_entropy_error (s := reseeding s) seqStep_reseeding rfl hs h ?_ m).trans rfl
  exact ha.imp_right fun ⟨e, he, hl, hm⟩ => ⟨e, he, hl, by rw [strength_setWidth_toNat]; exact hm⟩

/-! ### GENERATE -/

theorem addinV_eq (V : Seed) (a : BitString) :
    addinV V a = if a.length = 0 then V
      else BitVec.ofNat 440 (V.toNat + (sha256 (byte 0x02 ++ toBits V ++ a)).toNat) := by
  rw [addinV]
  refine ite_congr rfl (fun _ => rfl) fun _ => ?_
  rw [← add_ofNat_seed, BitVec.ofNat_toNat]

theorem updateV_eq (V C : Seed) (ctr : BitVec 64) :
    updateV V C ctr =
      BitVec.ofNat 440 (V.toNat + (sha256 (byte 0x03 ++ toBits V)).toNat + C.toNat + ctr.toNat) := by
  rw [BitVec.ofNat_add, BitVec.ofNat_add, BitVec.ofNat_add, BitVec.ofNat_toNat, BitVec.ofNat_toNat, BitVec.ofNat_toNat,
    BitVec.ofNat_toNat, BitVec.setWidth_eq, BitVec.setWidth_eq, updateV]

/-- The state in which GENERATE has passed its checks and stands in a phase. -/
def generating (p : Phase) (r : BitVec 24) (s : State) : State := { accepted 0x03 r s with phase := p }

/-- The host interface of a GENERATE that has ended with success (R164). -/
def deliveredHost (r : BitVec 24) (out : BitString) : HostIf :=
  { doneHost with outLen := BitVec.ofNat 20 r.toNat, outWords := pack32 out }

/-- GENERATE from the additional input on, `V` being what it then is. -/
theorem turns_generating_hashgen (r : BitVec 24) (s : State) (m : Nat) :
    turns (m + 3) (generating .hashgen r s) =
      idleState
        { s.drbg with
          V := updateV s.drbg.V s.drbg.C s.drbg.reseedCounter, reseedCounter := s.drbg.reseedCounter + 1 }
        (deliveredHost r (hashgen s.drbg.V r.toNat)) s.env := by
  rw [turns_hashgen (s := generating .hashgen r s) rfl rfl, deliveredHost, BitVec.ofNat_toNat]
  rfl

/-- GENERATE from its checks to its end, with and without additional input (R161 to R164). -/
theorem turns_generating {r : BitVec 24} {s : State} (h3 : s.host.inLen.toNat ≤ 2 ^ 35) (m : Nat) :
    turns (m + 4) (generating (if (inOperand s).string.length = 0 then .hashgen else .addin) r s) =
      idleState
        { s.drbg with
          V := updateV (addinV s.drbg.V (inOperand s).string) s.drbg.C s.drbg.reseedCounter
          reseedCounter := s.drbg.reseedCounter + 1 }
        (deliveredHost r (hashgen (addinV s.drbg.V (inOperand s).string) r.toNat)) s.env := by
  by_cases h0 : (inOperand s).string.length = 0
  · rw [if_pos h0, addinV, if_pos h0, turns_generating_hashgen r s (m + 1)]
  · have hl := operand_string_length_le (inOperand s)
    have ho : (inOperand s).len.toNat ≤ 2 ^ 35 := h3
    obtain ⟨E, e⟩ := phaseAddin_spec (s := generating .addin r s)
      (show 448 + (inOperand s).string.length < 2 ^ 64 by omega)
    rw [if_neg h0, addinV, if_neg h0, turns_succ, seqStep_addin rfl, e]
    exact turns_generating_hashgen r { s with eng := E, drbg := { s.drbg with V := _ } } m

/-- GENERATE from its acceptance to its end. -/
theorem turns_generate {s : State} {r : BitVec 24} (hi : s.drbg.instantiated = true) (h1 : 1 ≤ r.toNat)
    (h2 : r.toNat ≤ 2 ^ 19) (hc : s.drbg.reseedCounter.toNat ≤ 2 ^ 48) (h3 : s.host.inLen.toNat ≤ 2 ^ 35)
    (h4 : s.host.inWords.length = (s.host.inLen.toNat + 31) / 32) (m : Nat) :
    turns (m + 5) (accepted 0x03 r s) =
      idleState
        { s.drbg with
          V := updateV (addinV s.drbg.V (inOperand s).string) s.drbg.C s.drbg.reseedCounter
          reseedCounter := s.drbg.reseedCounter + 1 }
        (deliveredHost r (hashgen (addinV s.drbg.V (inOperand s).string) r.toNat)) s.env := by
  rw [turns_succ, seqStep_check_generate rfl rfl,
    checkGenerate_passes (s := accepted 0x03 r s) hi h1 h2 h3 (inOperand_wellFormed h4) hc]
  exact turns_generating h3 m

/-! ### UNINSTANTIATE, and the words that are no command -/

theorem turns_uninstantiate (s : State) (m : Nat) :
    turns (m + 2) (accepted 0x04 0 s) = idleState Drbg.zero doneHost s.env := by
  have hc : checkUninstantiate (accepted 0x04 0 s) = { accepted 0x04 0 s with phase := .complete } :=
    if_neg fun c => c rfl
  rw [turns_succ, seqStep_check_uninstantiate rfl rfl, hc, turns_complete rfl, commit_uninstantiate rfl]
  rfl

/-- A reserved opcode, or RESEED or UNINSTANTIATE with an immediate (30_encoding.md R84). -/
theorem seqStep_illegal {op : BitVec 8} {imm : BitVec 24} {s : State}
    (h : op.toNat = 0 ∨ 5 ≤ op.toNat ∨ ((op.toNat = 2 ∨ op.toNat = 4) ∧ imm.toNat ≠ 0)) :
    seqStep (accepted op imm s) = raiseError .illegalCommand (accepted op imm s) := by
  have hne : ∀ c : BitVec 8, op.toNat ≠ c.toNat → ¬ (accepted op imm s).work.curOp = c :=
    fun c hc e => hc (congrArg BitVec.toNat e)
  have himm : imm.toNat ≠ 0 → (accepted op imm s).work.curImm ≠ 0 := fun hc e => hc (congrArg BitVec.toNat e)
  rcases h with h | h | ⟨h | h, hi⟩
  · rw [seqStep_check rfl, phaseCheck, if_neg (hne _ (by rw [h]; decide)), if_neg (hne _ (by rw [h]; decide)),
      if_neg (hne _ (by rw [h]; decide)), if_neg (hne _ (by rw [h]; decide))]
  · rw [seqStep_check rfl, phaseCheck, if_neg (hne 0x01#8 (Nat.ne_of_gt (Nat.lt_of_lt_of_le (by decide) h))),
      if_neg (hne 0x02#8 (Nat.ne_of_gt (Nat.lt_of_lt_of_le (by decide) h))),
      if_neg (hne 0x03#8 (Nat.ne_of_gt (Nat.lt_of_lt_of_le (by decide) h))),
      if_neg (hne 0x04#8 (Nat.ne_of_gt (Nat.lt_of_lt_of_le (by decide) h)))]
  · have ho : op = 0x02#8 := BitVec.eq_of_toNat_eq h
    rw [seqStep_check_reseed rfl ho, checkReseed, if_pos (himm hi)]
  · have ho : op = 0x04#8 := BitVec.eq_of_toNat_eq h
    rw [seqStep_check_uninstantiate rfl ho, checkUninstantiate, if_pos (himm hi)]

theorem opcodeField_toNat (w : Word) : (opcodeField w).toNat = w.toNat / 2 ^ 24 := by
  have := w.isLt
  rw [opcodeField, BitVec.extractLsb'_toNat, Nat.shiftRight_eq_div_pow, Nat.mod_eq_of_lt]
  exact Nat.div_lt_of_lt_mul this

theorem immField_toNat (w : Word) : (immField w).toNat = w.toNat % 2 ^ 24 := by
  rw [immField, BitVec.extractLsb'_toNat, Nat.shiftRight_zero]

/-! ### The statements -/

/-- Settles O31: ten turns, of which the last three seed `V` and `C` and complete. -/
theorem instantiateCompletes : Obligations.InstantiateCompletes := by
  unfold Obligations.InstantiateCompletes
  intro s n e d rest hb hu hs hi h1 h2 h3 h4 hsrc he hel hd hdl
  have hend := turns_takeNonce (d := d)
    (s := { awaitingNonce e n rest s with ent := { Sync.zero with min := Config.nonceMinBits n.toNat } }) rfl
    (he.trans (Nat.le_add_right _ _)) (instantiateMaterial_bound hel hdl h3) 0
  rw [exec_instantiate hb hu, maxTurns, turns_instantiate hi h1 h2 h3 h4, turns_instantiating hs hsrc hel he,
    takeEntropy_instantiating, turns_awaitingNonce hdl hd, hend]
  rfl

/-- Settles O32: after the check and the request the core holds. -/
theorem instantiateHolds : Obligations.InstantiateHolds := by
  unfold Obligations.InstantiateHolds
  intro s n hb hu hs hi h1 h2 h3 h4 hsrc
  refine ⟨?_, ?_⟩
  · rw [exec_instantiate hb hu, maxTurns, turns_instantiate hi h1 h2 h3 h4, turns_instantiating_holds hs hsrc,
      BitVec.ofNat_toNat]
    rfl
  · simp only [statusWord, needsReseed, hi, Bool.false_and, entWait, decide_true]
    rfl

/-- Settles O33: each clause is an outcome of the check. -/
theorem instantiateErrors : Obligations.InstantiateErrors := by
  unfold Obligations.InstantiateErrors
  intro s n hb hu
  have hn : 1 ≤ n.toNat → n.toNat ≤ 256 → ¬ (n.toNat < Config.minStrength ∨ Config.maxStrength < n.toNat) :=
    fun h1 h2 => not_or.mpr ⟨Nat.not_lt.mpr h1, Nat.not_lt.mpr h2⟩
  have hz : n.toNat = 0 ∨ 256 < n.toNat → n.toNat < Config.minStrength ∨ Config.maxStrength < n.toNat :=
    Or.imp_left fun h => h ▸ Nat.zero_lt_one
  rw [exec_instantiate hb hu]
  have hc := seqStep_check_instantiate (s := accepted 0x01 n s) rfl rfl
  refine ⟨fun hi => ?_, fun hi h => ?_, fun hi h1 h2 h3 => ?_, fun hi h1 h2 h3 h4 => ?_⟩
  · exact congrArg _ (maxTurns_of_error (hc.trans (checkInstantiate_live hi)))
  · exact congrArg _ (maxTurns_of_error (hc.trans (checkInstantiate_strength hi (hz h))))
  · exact congrArg _ (maxTurns_of_error (hc.trans (checkInstantiate_long hi (hn h1 h2) h3)))
  · exact congrArg _ (maxTurns_of_error (hc.trans (checkInstantiate_malformed hi (hn h1 h2) h3 (inOperand_malformed h4))))

/-- Settles O34: the error ends the command in the turn that would take the answer. -/
theorem instantiateInsufficientEntropy : Obligations.InstantiateInsufficientEntropy := by
  unfold Obligations.InstantiateInsufficientEntropy
  intro s n hb hu hs hi h1 h2 h3 h4
  refine ⟨fun a rest hsrc ha => ?_, fun e b rest hsrc he hel hbad => ?_⟩
  · rw [exec_instantiate hb hu, maxTurns, turns_instantiate hi h1 h2 h3 h4,
      turns_instantiating_error hs hsrc h2 ha]
  · rw [exec_instantiate hb hu, maxTurns, turns_instantiate hi h1 h2 h3 h4, turns_instantiating hs hsrc hel he,
      takeEntropy_instantiating, turns_awaitingNonce_error hbad]

/-- Settles O35: seven turns, of which the last three seed `V` and `C` and complete. -/
theorem reseedCompletes : Obligations.ReseedCompletes := by
  unfold Obligations.ReseedCompletes
  intro s e rest hb hu hs hi h3 h4 hsrc he hel
  have hend := turns_takeEntropy_reseed (d := e)
    (s := { reseeding s with
      ent := { Sync.zero with min := s.drbg.strength.setWidth 32 }, env := { s.env with source := rest } }) rfl
    (reseedMaterial_bound s.drbg.V hel h3) 3
  rw [exec_reseed hb hu, maxTurns, turns_reseed hi h3 h4, turns_reseeding hs hsrc hel he, hend]
  rfl

/-- Settles O36: the delivery is taken in the first turn, and the command goes on with it. -/
theorem deliveryResumesCommand : Obligations.DeliveryResumesCommand := by
  unfold Obligations.DeliveryResumesCommand
  intro s k args rest hin hu hr hm hl ho
  let u := withEnt (entTake s.ent) (withInputs rest s)
  refine ⟨fun hp hop => ?_, fun hp hop hsrc => ?_, fun hp hop hel himm => ?_⟩
  · rw [step_delivery (m := s.drbg.strength.setWidth 32) hin hu hr hm hl fun e =>
        seqStep_entE_reseed (s := withEnt e (withInputs rest s)) hp hop,
      turns_takeEntropy_reseed (s := u) hop (reseedMaterial_bound _ hl ho)]
    rfl
  · rw [step_delivery (m := s.work.curImm.setWidth 32) hin hu hr hm hl fun e =>
        seqStep_entE_instantiate (s := withEnt e (withInputs rest s)) hp hop,
      takeEntropy_instantiate (s := u) _ hop, turns_nonce_holds (s := keepEntropy args.bits .entN u) rfl rfl hsrc]
    rfl
  · rw [step_delivery (m := Config.nonceMinBits s.work.curImm.toNat) hin hu hr hm hl fun e =>
        seqStep_entN_nonce (s := withEnt e (withInputs rest s)) hp,
      turns_takeNonce (s := u) hop himm (instantiateMaterial_bound hel hl ho)]
    rfl

/-- Settles O37: each clause is an outcome of the check or of the entropy request. -/
theorem reseedErrors : Obligations.ReseedErrors := by
  unfold Obligations.ReseedErrors
  intro s hb hu
  rw [exec_reseed hb hu]
  have hc := seqStep_check_reseed (s := accepted 0x02 0 s) rfl rfl
  refine ⟨fun hi => ?_, fun hi h3 => ?_, fun hi h3 h4 => ?_, fun a rest hi h3 h4 hs hsrc ha => ?_⟩
  · exact congrArg _ (maxTurns_of_error (hc.trans (checkReseed_none rfl hi)))
  · exact congrArg _ (maxTurns_of_error (hc.trans (checkReseed_long rfl hi h3)))
  · exact congrArg _ (maxTurns_of_error (hc.trans (checkReseed_malformed rfl hi h3 (inOperand_malformed h4))))
  · rw [maxTurns, turns_reseed hi h3 h4, turns_reseeding_error hs hsrc ha]

/-- Settles O38: five turns with additional input, four without. -/
theorem generateCompletes : Obligations.GenerateCompletes := by
  unfold Obligations.GenerateCompletes
  intro s r hb hu hi h1 h2 hc h3 h4
  rw [exec_generate hb hu, maxTurns, turns_generate hi h1 h2 hc h3 h4, updateV_eq, addinV_eq]
  rfl

/-- Settles O39: each clause is an outcome of the check. -/
theorem generateErrors : Obligations.GenerateErrors := by
  unfold Obligations.GenerateErrors
  intro s r hb hu
  rw [exec_generate hb hu]
  have hc := seqStep_check_generate (s := accepted 0x03 r s) rfl rfl
  refine ⟨fun hi => ?_, fun hi => ⟨fun h0 => ?_, fun h2 => ?_, fun h1 h2 => ⟨fun h3 => ?_, fun h3 =>
    ⟨fun h4 => ?_, fun h4 h5 => ?_⟩⟩⟩⟩
  · exact congrArg _ (maxTurns_of_error (hc.trans (checkGenerate_none hi)))
  · exact congrArg _ (maxTurns_of_error (hc.trans (checkGenerate_zero hi (BitVec.eq_of_toNat_eq h0))))
  · exact congrArg _ (maxTurns_of_error (hc.trans (checkGenerate_many hi h2)))
  · exact congrArg _ (maxTurns_of_error (hc.trans (checkGenerate_long hi h1 h2 h3)))
  · exact congrArg _ (maxTurns_of_error (hc.trans (checkGenerate_malformed hi h1 h2 h3 (inOperand_malformed h4))))
  · exact congrArg _ (maxTurns_of_error (hc.trans (checkGenerate_exhausted hi h1 h2 h3 (inOperand_wellFormed h4) h5)))

/-- Settles O40: the check passes in every state of the DRBG. -/
theorem uninstantiateCompletes : Obligations.UninstantiateCompletes := by
  unfold Obligations.UninstantiateCompletes
  intro s hb hu
  rw [exec_uninstantiate hb hu, maxTurns, turns_uninstantiate]
  rfl

/-- Settles O41: the word is accepted, and its check raises the error. -/
theorem illegalCommandWordEndsInError : Obligations.IllegalCommandWordEndsInError := by
  unfold Obligations.IllegalCommandWordEndsInError
  intro s k w rest hin hb hu hw
  rw [← opcodeField_toNat, ← immField_toNat] at hw
  rw [step_command hin, ← commandWord_fields w, issueCommand_accepted (s := withInputs rest s) hb hu,
    maxTurns_of_error (seqStep_illegal hw)]
  rfl

/-- Settles O42: the word is dropped, and the turns do not see `overrun`. -/
theorem commandWhileBusyIsDropped : Obligations.CommandWhileBusyIsDropped := by
  unfold Obligations.CommandWhileBusyIsDropped
  intro s i w he hb
  have hd : decodeCommand w = .ok i := by
    have h := decodeOfEncodeIsIdentity i
    rwa [he] at h
  rw [(exec_of_decodeCommand hd s).2, issueCommand_drop w hb, goOn_setOverrun]
  rfl

end Sys2Proof.Machine
end

section
/-! SUPPORT. The frames of the four commands, wherever an event cuts them: what every turn of a running command leaves as it was
(42_drbg_commands.md R152 to R156, R161 to R164; 43_entropy_sync.md R193, R196). -/

namespace Sys2Proof.Machine

/-- A command accepted by an idle core, the core going on until the next event. -/
theorem issueCommand_goOn {op : BitVec 8} {imm : BitVec 24} {s : State} (hb : s.host.busy = false) :
    issueCommand (commandWord op imm) s = goOn (accepted op imm s) := by
  rw [issueCommand_accept _ hb, accept_commandWord]; rfl

theorem goOn_of_exec {op : BitVec 8} {imm : BitVec 24} {s t : State} (hb : s.host.busy = false)
    (h : Host.Outcome.next (φ := Fault) (ρ := Refusal) (issueCommand (commandWord op imm) s) = .next t) :
    t = goOn (accepted op imm s) := by
  rw [issueCommand_goOn hb] at h
  cases h; rfl

/-- A turn keeps the command, or ends it. -/
theorem turn_curOp {s t : State} (h : Turn s t) : t.phase = .idle ∨ t.work.curOp = s.work.curOp := by
  cases h with
  | idle c => exact .inl c
  | error | complete => exact .inl rfl
  | source =>
    rcases sourceTurn_cases s with c | ⟨d, rest, -, -, c⟩ | ⟨rest, -, c⟩ <;> rw [c] <;> exact .inr rfl
  | _ => exact .inr rfl

/-! ### GENERATE and UNINSTANTIATE -/

/-- The outside world is as it was, the synchronizer as it was or scrubbed, the operand consumed. -/
def Unasking (s t : State) : Prop :=
  t.env = s.env ∧ (t.ent = s.ent ∨ t.ent = Sync.zero) ∧ t.host.inLen = 0 ∧ t.host.inWords = []

theorem unasking_accepted (op : BitVec 8) (imm : BitVec 24) (s : State) : Unasking s (accepted op imm s) :=
  ⟨rfl, .inl rfl, rfl, rfl⟩

theorem unasking_raiseError {s t : State} (k : ErrorKind) (h : Unasking s t) : Unasking s (raiseError k t) :=
  ⟨h.1, .inr rfl, h.2.2⟩

/-- GENERATE under way: a phase of its own, and `C`, the strength and `instantiated` as they were. -/
def GenerateRun (s t : State) : Prop :=
  (t.drbg.C = s.drbg.C ∧ t.drbg.strength = s.drbg.strength ∧ t.drbg.instantiated = s.drbg.instantiated) ∧
  Unasking s t ∧
  (t.phase = .idle ∨ (t.work.curOp = 0x03#8 ∧
    (t.phase = .check ∨ t.phase = .addin ∨ t.phase = .hashgen ∨ t.phase = .update ∨ t.phase = .complete)))

theorem generateRun_turn {s t u : State} (h : GenerateRun s t) (ht : Turn t u) : GenerateRun s u := by
  obtain ⟨hd, hu, hp⟩ := h
  cases ht with
  | idle c => exact ⟨hd, hu, .inl c⟩
  | error k _ => exact ⟨hd, unasking_raiseError k hu, .inl rfl⟩
  | generate p c o _ _ _ _ _ _ e =>
    refine ⟨hd, hu, .inr ⟨o, ?_⟩⟩
    split at e <;> subst e <;> simp
  | addin E v c => exact ⟨hd, hu, .inr ⟨(hp.resolve_left (by simp [c])).1, by simp⟩⟩
  | hashgen E d i c => exact ⟨hd, hu, .inr ⟨(hp.resolve_left (by simp [c])).1, by simp⟩⟩
  | update E v c => exact ⟨hd, hu, .inr ⟨(hp.resolve_left (by simp [c])).1, by simp⟩⟩
  | complete c =>
    rw [commit_generate (hp.resolve_left (by simp [c])).1]
    exact ⟨hd, ⟨hu.1, .inr rfl, hu.2.2⟩, .inl rfl⟩
  | instantiate c o | reseed c o | uninstantiate c o =>
    exact opcode_absurd (hp.resolve_left (by simp [c])).1 o (by decide)
  | request _ c | source c => rcases c with c | c <;> simp [c] at hp
  | entropy c | nonce c | seedV _ _ _ _ c | seedC _ _ _ _ c => simp [c] at hp

/-- UNINSTANTIATE under way: the DRBG registers as they were, or zero. -/
def UninstantiateRun (s t : State) : Prop :=
  (t.drbg = s.drbg ∨ t.drbg = Drbg.zero) ∧ Unasking s t ∧
  (t.phase = .idle ∨ (t.work.curOp = 0x04#8 ∧ (t.phase = .check ∨ t.phase = .complete)))

theorem uninstantiateRun_turn {s t u : State} (h : UninstantiateRun s t) (ht : Turn t u) : UninstantiateRun s u := by
  obtain ⟨hd, hu, hp⟩ := h
  cases ht with
  | idle c => exact ⟨hd, hu, .inl c⟩
  | error k _ => exact ⟨hd, unasking_raiseError k hu, .inl rfl⟩
  | uninstantiate c o _ => exact ⟨hd, hu, .inr ⟨o, .inr rfl⟩⟩
  | complete c =>
    rw [commit_uninstantiate (hp.resolve_left (by simp [c])).1]
    exact ⟨.inr rfl, ⟨hu.1, .inr rfl, hu.2.2⟩, .inl rfl⟩
  | instantiate c o | reseed c o => exact opcode_absurd (hp.resolve_left (by simp [c])).1 o (by decide)
  | generate _ c o => exact opcode_absurd (hp.resolve_left (by simp [c])).1 o (by decide)
  | request _ c | source c => rcases c with c | c <;> simp [c] at hp
  | entropy c | nonce c | seedV _ _ _ _ c | seedC _ _ _ _ c | addin _ _ c | hashgen _ _ _ c | update _ _ c =>
    simp [c] at hp

/-! ### INSTANTIATE and RESEED -/

/-- INSTANTIATE or RESEED under way: the OUT buffer empty, and answers taken off the front of the script only. -/
def SeedingRun (s t : State) : Prop :=
  (t.host.outLen = 0 ∧ t.host.outWords = [] ∧ t.host.outRd = 0) ∧ (∃ used, s.env.source = used ++ t.env.source) ∧
  (t.phase = .idle ∨ t.work.curOp = 0x01#8 ∨ t.work.curOp = 0x02#8)

theorem source_suffix_sourceTurn (s : State) : ∃ used, s.env.source = used ++ (sourceTurn s).env.source := by
  rcases sourceTurn_cases s with c | ⟨d, rest, h, -, c⟩ | ⟨rest, h, c⟩
  · exact ⟨[], by rw [c]; rfl⟩
  · exact ⟨[.deliver d], by rw [c, h]; rfl⟩
  · exact ⟨[.fail], by rw [c, h]; rfl⟩

/-- No turn but a completed GENERATE writes the OUT buffer, and only the source's turn touches the script. -/
theorem turn_outBuffer {s t : State} (ht : Turn s t) (ho : s.work.curOp ≠ 0x03#8) :
    t.host.outLen = s.host.outLen ∧ t.host.outWords = s.host.outWords ∧ t.host.outRd = s.host.outRd ∧
      ∃ used, s.env.source = used ++ t.env.source := by
  cases ht with
  | source =>
    have h := source_suffix_sourceTurn s
    rcases sourceTurn_cases s with c | ⟨d, rest, -, -, c⟩ | ⟨rest, -, c⟩ <;> rw [c] at h ⊢ <;> exact ⟨rfl, rfl, rfl, h⟩
  | complete =>
    rcases commit_cases s with ⟨-, e⟩ | ⟨-, e⟩ | ⟨o, -⟩ | ⟨-, e⟩ | ⟨-, -, -, -, e⟩
    · rw [e]; exact ⟨rfl, rfl, rfl, [], rfl⟩
    · rw [e]; exact ⟨rfl, rfl, rfl, [], rfl⟩
    · exact absurd o ho
    · rw [e]; exact ⟨rfl, rfl, rfl, [], rfl⟩
    · rw [e]; exact ⟨rfl, rfl, rfl, [], rfl⟩
  | _ => exact ⟨rfl, rfl, rfl, [], rfl⟩

theorem seedingRun_seqStep {s t : State} (h : SeedingRun s t) : SeedingRun s (seqStep t) := by
  obtain ⟨⟨h1, h2, h3⟩, ⟨used, hs⟩, hp | ho⟩ := h
  · rw [seqStep_idle hp]; exact ⟨⟨h1, h2, h3⟩, ⟨used, hs⟩, .inl hp⟩
  · have hne : t.work.curOp ≠ 0x03#8 := fun e => ho.elim (opcode_absurd · e (by decide)) (opcode_absurd · e (by decide))
    obtain ⟨k1, k2, k3, more, ks⟩ := turn_outBuffer (seqStep_turn t) hne
    refine ⟨⟨k1.trans h1, k2.trans h2, k3.trans h3⟩, ⟨used ++ more, by rw [hs, ks, List.append_assoc]⟩, ?_⟩
    exact (turn_curOp (seqStep_turn t)).imp_right fun e => by rw [e]; exact ho

/-- RESEED under way: the strength and `instantiated` as they were. -/
def ReseedRun (s t : State) : Prop :=
  (t.drbg.strength = s.drbg.strength ∧ t.drbg.instantiated = s.drbg.instantiated) ∧
    (t.phase = .idle ∨ t.work.curOp = 0x02#8)

theorem reseedRun_seqStep {s t : State} (h : ReseedRun s t) : ReseedRun s (seqStep t) := by
  obtain ⟨⟨h1, h2⟩, hp | ho⟩ := h
  · rw [seqStep_idle hp]; exact ⟨⟨h1, h2⟩, .inl hp⟩
  · refine ⟨?_, (turn_curOp (seqStep_turn t)).imp_right fun e => e.trans ho⟩
    rcases turn_outcome (seqStep_turn t) with ⟨kd, -⟩ | ⟨k, e⟩ | ⟨-, e⟩
    · exact ⟨kd.2.2.trans h1, kd.2.1.trans h2⟩
    · rw [e]; exact ⟨h1, h2⟩
    · rw [e, commit_reseed ho]; exact ⟨h1, h2⟩

/-- INSTANTIATE of an instantiated core ends in its check. -/
theorem goOn_instantiate_live {s : State} (hi : s.drbg.instantiated = true) (n : BitVec 24) :
    (goOn (accepted 0x01 n s)).drbg = s.drbg := by
  refine (goOn_keep (P := fun t => t.drbg = s.drbg ∧ (t.phase = .idle ∨ (t.phase = .check ∧ t.work.curOp = 0x01#8))) ?_
    (s := accepted 0x01 n s) ⟨rfl, .inr ⟨rfl, rfl⟩⟩).1
  rintro t ⟨hd, hp | ⟨hp, ho⟩⟩
  · rw [seqStep_idle hp]; exact ⟨hd, .inl hp⟩
  · rw [seqStep_check_instantiate hp ho, checkInstantiate_live (by rw [hd]; exact hi)]
    exact ⟨hd, .inl rfl⟩

/-! ### The statements -/

/-- Settles O43: each turn of the two commands keeps their frame. -/
theorem generateAndUninstantiateFrame : Obligations.GenerateAndUninstantiateFrame := by
  unfold Obligations.GenerateAndUninstantiateFrame
  intro s t hb
  refine ⟨fun ⟨r, h⟩ => ?_, fun h => ?_⟩
  · rw [goOn_of_exec hb h]
    obtain ⟨⟨h1, h2, h3⟩, hu, -⟩ := goOn_keep (P := GenerateRun s) (fun u hu => generateRun_turn hu (seqStep_turn u))
      (s := accepted 0x03 r s) ⟨⟨rfl, rfl, rfl⟩, unasking_accepted _ _ s, .inr ⟨rfl, .inl rfl⟩⟩
    exact ⟨h1, h2, h3, hu⟩
  · rw [goOn_of_exec hb h]
    obtain ⟨hd, hu, -⟩ := goOn_keep (P := UninstantiateRun s) (fun u hu => uninstantiateRun_turn hu (seqStep_turn u))
      (s := accepted 0x04 0 s) ⟨.inl rfl, unasking_accepted _ _ s, .inr ⟨rfl, .inl rfl⟩⟩
    exact ⟨hd, hu⟩

theorem goOn_seeding {op : BitVec 8} (ho : op = 0x01#8 ∨ op = 0x02#8) (imm : BitVec 24) (s : State) :
    SeedingRun s (goOn (accepted op imm s)) :=
  goOn_keep (P := SeedingRun s) (fun _ => seedingRun_seqStep)
    ⟨⟨rfl, rfl, rfl⟩, ⟨[], rfl⟩, .inr ho⟩

/-- Settles O44: each turn of the two commands keeps their frame, and the checks stop an INSTANTIATE of an instantiated core. -/
theorem seedingCommandsFrame : Obligations.SeedingCommandsFrame := by
  unfold Obligations.SeedingCommandsFrame
  intro s t hb
  refine ⟨fun h => ?_, fun h => ?_, fun ⟨n, h⟩ hi => ?_⟩
  · have ⟨op, imm, ho, e⟩ : ∃ op imm, (op = 0x01#8 ∨ op = 0x02#8) ∧ t = goOn (accepted op imm s) := by
      rcases h with h | ⟨n, h⟩
      · exact ⟨_, _, .inr rfl, goOn_of_exec hb h⟩
      · exact ⟨_, _, .inl rfl, goOn_of_exec hb h⟩
    subst e
    obtain ⟨⟨h1, h2, h3⟩, hs, -⟩ := goOn_seeding ho imm s
    obtain ⟨k1, k2, k3, k4, -⟩ := goOn_outside (accepted op imm s)
    exact ⟨h1, h2, h3, k3, k4, k1, k2, hs⟩
  · rw [goOn_of_exec hb h]
    exact (goOn_keep (P := ReseedRun s) (fun _ => reseedRun_seqStep) (s := accepted 0x02 0 s)
      ⟨⟨rfl, rfl⟩, .inr rfl⟩).1
  · rw [goOn_of_exec hb h]
    exact goOn_instantiate_live hi n

end Sys2Proof.Machine
end

section
/-! SUPPORT. The host interface and reset: what a read returns and changes, what a write changes, the layout of `STATUS`, and the
values after reset (10_state.md R41 to R51; 20_memory.md R65, R69; 30_encoding.md R85, R94; 70_reset_and_hazards.md R230 to R232). -/

namespace Sys2Proof.Machine

/-! ### The halves of a 64-bit length -/

theorem lowHalf_toNat (x : BitVec 64) : (x.extractLsb' 0 32).toNat = x.toNat % 2 ^ 32 :=
  BitVec.extractLsb'_toNat 0 32 x

theorem highHalf_toNat (x : BitVec 64) : (x.extractLsb' 32 32).toNat = x.toNat / 2 ^ 32 := by
  rw [BitVec.extractLsb'_toNat, Nat.shiftRight_eq_div_pow]
  exact Nat.mod_eq_of_lt (Nat.div_lt_of_lt_mul x.isLt)

/-- Two 32-bit words side by side, as a number. -/
theorem append_eq_ofNat (x y : BitVec 32) : x ++ y = BitVec.ofNat 64 (x.toNat * 2 ^ 32 + y.toNat) := by
  refine BitVec.eq_of_toNat_eq ?_
  have hx := x.isLt
  have hy := y.isLt
  have hn : (BitVec.ofNat 64 (x.toNat * 2 ^ 32 + y.toNat)).toNat = x.toNat * 2 ^ 32 + y.toNat := by
    rw [BitVec.toNat_ofNat]; exact Nat.mod_eq_of_lt (by omega)
  rw [BitVec.toNat_append, ← Nat.shiftLeft_add_eq_or_of_lt hy, Nat.shiftLeft_eq]
  exact hn.symm

/-- The write of the low half of a 64-bit length, as a number (10_state.md R43). -/
theorem replaceLow_eq (x : BitVec 64) (v : Word) :
    x.extractLsb' 32 32 ++ v = BitVec.ofNat 64 (x.toNat / 2 ^ 32 * 2 ^ 32 + v.toNat) := by
  rw [← highHalf_toNat]; exact append_eq_ofNat _ v

/-- The write of the high half of a 64-bit length, as a number (10_state.md R43). -/
theorem replaceHigh_eq (x : BitVec 64) (v : Word) :
    v ++ x.extractLsb' 0 32 = BitVec.ofNat 64 (v.toNat * 2 ^ 32 + x.toNat % 2 ^ 32) := by
  rw [← lowHalf_toNat]; exact append_eq_ofNat v _

/-! ### Host reads -/

theorem outReady_iff (h : HostIf) :
    outReady h = true ↔ h.busy = false ∧ h.outRd.toNat < (h.outLen.toNat + 31) / 32 := by
  rw [outReady, Bool.and_eq_true, Bool.not_eq_true', decide_eq_true_eq]; rfl

theorem popOut_before_end {s : State} (hb : s.host.busy = false)
    (h : s.host.outRd.toNat < (s.host.outLen.toNat + 31) / 32) :
    popOut s = { s with host := { s.host with outRd := s.host.outRd + 1 } } :=
  if_pos ((outReady_iff s.host).mpr ⟨hb, h⟩)

theorem popOut_at_end {s : State} (h : (s.host.outLen.toNat + 31) / 32 ≤ s.host.outRd.toNat) : popOut s = s :=
  if_neg fun hr => Nat.not_lt.mpr h ((outReady_iff s.host).mp hr).2

theorem readEffect_outData (s : State) : readEffect 6 s = popOut s := rfl

theorem readEffect_ne_outData {n : Nat} (h : n ≠ 6) (s : State) : readEffect n s = s := by
  unfold readEffect
  split
  · exact absurd rfl h
  · rfl

/-- What a step on a host read hands to the host: the register's value when the read lands, whatever the core does then. -/
theorem readData_of_hostRead (n : Nat) (rest : List Input) (s : State) :
    (goOn (hostRead n (withInputs rest s))).env.readData = readValue n s := by
  obtain ⟨-, hr, -⟩ := goOn_outside (hostRead n (withInputs rest s))
  exact hr

theorem readValue_zero {n : Nat} (h : n = 0 ∨ n = 4 ∨ 7 ≤ n) (s : State) : readValue n s = 0 := by
  unfold readValue
  split
  case h_6 => rfl
  all_goals omega

/-- An idle core has no turn of its own, so the read is all that happens. -/
theorem step_hostRead_idle {s : State} {k n : Nat} {rest : List Input} (h : s.env.inputs = ⟨k, .hostRead n⟩ :: rest)
    (hp : s.phase = .idle) : step s = .next (hostRead n (withInputs rest s)) := by
  have hi : (hostRead n (withInputs rest s)).phase = .idle := by
    show (readEffect n (withInputs rest s)).phase = .idle
    unfold readEffect
    split
    · unfold popOut
      split <;> exact hp
    · exact hp
  rw [step_hostRead h, goOn_idle hi]

/-- Settles O45: the value is that of the moment the read lands, and the core's turns leave it. -/
theorem hostReadValues : Obligations.HostReadValues := by
  unfold Obligations.HostReadValues
  intro s k n rest hin
  refine ⟨_, step_hostRead hin, ?_⟩
  rw [readData_of_hostRead]
  refine ⟨fun h => readValue_zero h s, ?_, ?_, ?_, ?_, ?_, ?_⟩
  · rintro rfl; rfl
  · rintro rfl
    exact lowHalf_toNat s.host.inLen
  · rintro rfl
    exact highHalf_toNat s.host.inLen
  · rintro rfl
    show (s.host.outLen.setWidth 32).toNat = _
    exact BitVec.toNat_setWidth_of_le (by decide)
  · rintro rfl hb ho
    exact if_pos ((outReady_iff s.host).mpr ⟨hb, ho⟩)
  · rintro rfl hno
    refine if_neg fun hr => ?_
    obtain ⟨hb, ho⟩ := (outReady_iff s.host).mp hr
    rcases hno with hb' | ho'
    · exact absurd (hb.symm.trans hb') Bool.false_ne_true
    · omega

/-- Settles O46: only `OUT_DATA` has an effect, and only before the end of the output. -/
theorem hostReadEffects : Obligations.HostReadEffects := by
  unfold Obligations.HostReadEffects
  intro s k n rest hin hp hb
  refine ⟨readValue n s, ?_⟩
  rw [step_hostRead_idle hin hp]
  congr 1
  by_cases hn : n = 6
  · subst hn
    rw [hostRead, readEffect_outData]
    have hb' : (withInputs rest s).host.busy = false := hb
    by_cases ho : s.host.outRd.toNat < (s.host.outLen.toNat + 31) / 32
    · rw [popOut_before_end hb' ho, if_pos ⟨rfl, ho⟩]; rfl
    · rw [popOut_at_end (s := withInputs rest s) (Nat.not_lt.mp ho), if_neg fun h => ho h.2]; rfl
  · rw [hostRead, readEffect_ne_outData hn, if_neg fun h => hn h.1]; rfl

/-! ### `STATUS` -/

/-- Settles O47: the bits one by one, by the bits of `STATUS` as `statusBit` lists them. -/
theorem statusLayout : Obligations.StatusLayout := by
  unfold Obligations.StatusLayout
  intro s
  simp only [statusWord_getLsbD]
  refine ⟨rfl, rfl, rfl, rfl, rfl, ?_, rfl, rfl, ?_, ?_⟩
  · show (s.ent.state == .req) = decide (s.ent.state = .req)
    exact beq_eq_decide _ _
  · refine BitVec.eq_of_getLsbD_eq fun i hi => ?_
    rw [BitVec.getLsbD_extractLsb', statusWord_getLsbD, Nat.add_comm, statusBit, decide_eq_true hi, Bool.true_and]
  · refine BitVec.eq_of_getLsbD_eq fun i hi => ?_
    rw [BitVec.getLsbD_extractLsb', statusWord_getLsbD, show 16 + i = (i + 8) + 8 by omega, statusBit,
      BitVec.getLsbD_of_ge _ _ (Nat.le_add_left 8 i), Bool.and_false]
    exact BitVec.getLsbD_zero.symm

/-! ### Host writes -/

theorem hostWrite_ignored {n : Nat} (h : n ≠ 2 ∧ n ≠ 3 ∧ n ≠ 4) (v : Word) (s : State) : hostWrite n v s = s := by
  obtain ⟨h2, h3, h4⟩ := h
  unfold hostWrite
  split
  · exact absurd rfl h2
  · exact absurd rfl h3
  · exact absurd rfl h4
  · rfl

theorem hostWrite_overrun {n : Nat} (h : n = 2 ∨ n = 3 ∨ n = 4) (v : Word) {s : State} (hb : s.host.busy = true) :
    hostWrite n v s = setOverrun s := by
  rcases h with rfl | rfl | rfl <;> exact if_pos hb

theorem step_hostWrite_ne_zero {s : State} {k n : Nat} {v : Word} {rest : List Input}
    (h : s.env.inputs = ⟨k, .hostWrite n v⟩ :: rest) (hn : n ≠ 0) :
    step s = .next (goOn (hostWrite n v (withInputs rest s))) := by
  obtain ⟨m, rfl⟩ := Nat.exists_eq_succ_of_ne_zero hn
  exact step_hostWrite h

/-- Settles O48: an idle core takes the write and has no turn of its own. -/
theorem hostWritesWhenIdle : Obligations.HostWritesWhenIdle := by
  unfold Obligations.HostWritesWhenIdle
  intro s k n v rest hin hp hb hn
  have hstep : ∀ {u : State}, hostWrite n v (withInputs rest s) = u → u.phase = .idle → step s = .next u := by
    intro u hw hu
    rw [step_hostWrite_ne_zero hin hn, hw, goOn_idle hu]
  have hb' : (withInputs rest s).host.busy = false := hb
  by_cases h2 : n = 2
  · subst h2
    refine ⟨_, hstep (hostWrite_lenLo v hb') hp, rfl, fun _ => ?_, ?_, ?_, ?_⟩
    · rw [← replaceLow_eq]; rfl
    all_goals omega
  by_cases h3 : n = 3
  · subst h3
    refine ⟨_, hstep (hostWrite_lenHi v hb') hp, rfl, ?_, fun _ => ?_, ?_, ?_⟩
    · omega
    · rw [← replaceHigh_eq]; rfl
    all_goals omega
  by_cases h4 : n = 4
  · subst h4
    exact ⟨_, hstep (hostWrite_data v hb') hp, rfl, by omega, by omega, fun _ => rfl, by omega⟩
  · exact ⟨_, hstep (hostWrite_ignored ⟨h2, h3, h4⟩ v _) hp, rfl, by omega, by omega, by omega, fun _ => rfl⟩

/-- Settles O49: the turns do not see `overrun`. -/
theorem hostWritesWhenBusy : Obligations.HostWritesWhenBusy := by
  unfold Obligations.HostWritesWhenBusy
  intro s k n v rest hin hb
  refine ⟨fun h => ?_, fun h => ?_⟩
  · rw [step_hostWrite_ne_zero hin (by omega), hostWrite_overrun h v (s := withInputs rest s) hb, goOn_setOverrun]; rfl
  · rw [step_hostWrite_ne_zero hin (by omega), hostWrite_ignored (by omega)]

/-! ### Operands -/

/-- Settles O51: cutting `ceil(len/32)` words off a string carries it, zeros after it. -/
theorem packedWordsCarryTheString : Obligations.PackedWordsCarryTheString := by
  unfold Obligations.PackedWordsCarryTheString
  intro p
  have hlen : p.length ≤ 32 * ceilDiv p.length 32 := by
    rw [Nat.mul_comm]; exact ceilDiv_mul_ge _ 32 (by decide)
  exact ⟨pack32_length p, wordsBits_cutWords _ p hlen (Nat.le_refl _)⟩

/-- A length written half by half, low half first, is the length (10_state.md R43). -/
theorem length_of_halves (x : BitVec 64) {n : Nat} (h : n < 2 ^ 64) :
    ((BitVec.ofNat 32 (n >>> 32) ++ (x.extractLsb' 32 32 ++ BitVec.ofNat 32 n : BitVec 64).extractLsb' 0 32
      : BitVec 64)).toNat = n := by
  rw [replaceHigh_eq, replaceLow_eq]
  simp only [BitVec.toNat_ofNat, Nat.shiftRight_eq_div_pow, Config.word]
  have := x.isLt
  omega

/-- Loading leaves the string's words behind what the buffer held, and the string's length. -/
theorem writeAll_loadOperand (p : BitString) {s : State} (hb : s.host.busy = false) :
    writeAll (loadOperand p) s = { s with host := { s.host with
      inLen := BitVec.ofNat 32 (p.length >>> 32) ++
        (s.host.inLen.extractLsb' 32 32 ++ BitVec.ofNat 32 p.length : BitVec 64).extractLsb' 0 32
      inWords := s.host.inWords ++ pack32 p } } := by
  have h : writeAll (loadOperand p) s = writeAll ((pack32 p).map (writeNow 4))
      (hostWrite 3 (BitVec.ofNat 32 (p.length >>> 32)) (hostWrite 2 (BitVec.ofNat 32 p.length) s)) := rfl
  rw [h, hostWrite_lenLo _ hb, hostWrite_lenHi _ (by exact hb), writeAll_words _ (by exact hb)]
  rfl

/-- Settles O50: the words of `pack32` carry the string, and the two halves its length. -/
theorem loadedOperandDenotesItsString : Obligations.LoadedOperandDenotesItsString := by
  unfold Obligations.LoadedOperandDenotesItsString
  intro s p hp hb hw
  have hlen := length_of_halves s.host.inLen hp
  obtain ⟨-, hbits⟩ := packedWordsCarryTheString p
  rw [writeAll_loadOperand p hb]
  simp only [inOperand, Operand.wellFormed, Operand.string, leftmost, hlen, hw, List.nil_append]
  exact ⟨by simp, by rw [hbits, List.take_left]⟩

/-! ### Reset -/

/-- Settles O52: the reset state evaluated, register by register. -/
theorem resetValues : Obligations.ResetValues := by
  unfold Obligations.ResetValues
  exact ⟨by decide, by decide, rfl, rfl, rfl, rfl, rfl, rfl, rfl, rfl, rfl, rfl, by decide, by decide⟩

/-- Settles O53: the reset core is idle and has no turn of its own. -/
theorem resetAtAnyTime : Obligations.ResetAtAnyTime :=
  fun _ _ _ h => step_reset h

end Sys2Proof.Machine
end
